-- ==== Sys2Proof/Word.lean ====
section
/-! DEFINITION. The words of SYN-CORE: the sizes its registers, slots, addresses and command words have
(spec 00_scope.md R10, 10_state.md R20, 20_memory.md R54, 30_encoding.md R70). -/
namespace Sys2Proof

/-- A 64-bit slot: the unit of one host access and of one register (10_state.md R20, 20_memory.md R54). -/
abbrev Slot := BitVec 64

/-- The 64-bit data of a CMD write (30_encoding.md R70). -/
abbrev CmdWord := BitVec 64

/-- A 32-bit byte address relative to the block's base (20_memory.md R54). -/
abbrev Addr := BitVec 32

/-- A 32-bit pattern: a binary32 sample as stored, or any other 32-bit register field (10_state.md R36). -/
abbrev Pattern := BitVec 32

end Sys2Proof
end

