-- ==== Sys2Proof/Config.lean ====
section
/-! DEFINITION. What one SYN-CORE is built with (spec 00_scope.md R5 to R8) and the values the spec leaves free
(93_implementation_defined.md items 1 and 2b). -/
namespace Sys2Proof

/-- The phase width W: "Legal values are 32 and 64" (00_scope.md R5). -/
inductive PhaseWidth where
  | w32
  | w64
  deriving DecidableEq, Repr

/-- W in bits. -/
def PhaseWidth.bits : PhaseWidth → Nat
  | .w32 => 32
  | .w64 => 64

/-- The build parameters (00_scope.md R5, R6, R7; 93_implementation_defined.md item 5). CAP reports them. -/
structure Config where
  width    : PhaseWidth
  tmaxLog2 : Nat
  bmax     : Nat
  deriving DecidableEq, Repr

/-- W, the phase width in bits (00_scope.md R5). -/
def Config.w (c : Config) : Nat := c.width.bits

/-- TMAX, the table memory's capacity in entries (00_scope.md R6). -/
def Config.tmax (c : Config) : Nat := 2 ^ c.tmaxLog2

/-- LANE: a fixed constant, not a parameter (00_scope.md R8). -/
def Config.lane : Nat := 8

/-- GROUP: a fixed constant, not a parameter (00_scope.md R8). -/
def Config.group : Nat := 16

/-- The reference configuration: W = 64, TMAX_LOG2 = 16, BMAX = 1024 (00_scope.md R5, R6, R7). -/
def Config.reference : Config := ⟨.w64, 16, 1024⟩

/-- The three block memories (10_state.md R36, R37, R38). -/
inductive MemId where
  | tmem
  | pbuf
  | obuf
  deriving DecidableEq, Repr

/-- FREE VALUE. The sign and mantissa of a NaN that the `draw`-th completed command delivers as its `element`-th result (0
for a scalar command): "Sign and mantissa are not specified" (93_implementation_defined.md item 1; log 4). Nothing
constrains it. -/
opaque Config.freeNaN : (draw : Nat) → (element : Nat) → BitVec 32

/-- FREE VALUE. What entry `i` of a memory holds in the `epoch`-th period since power-on while nothing has written
it: "An entry holds some value that no rule determines" (70_reset_and_hazards.md R201,
93_implementation_defined.md item 2b; log 5). Nothing constrains it; a reader keeps the entry's width. -/
opaque Config.freeEntry : MemId → (epoch : Nat) → (i : Nat) → BitVec 64

end Sys2Proof
end

