-- ==== Sys2Proof/Syntax.lean ====
section
/-! DEFINITION. The commands of SYN-CORE, one constructor for each row of spec/opcode_table.json. A command has no
operand field: "Every operand is implicit in a fixed register or memory" (30_encoding.md R71). -/
namespace Sys2Proof

/-- The ten commands (30_encoding.md R72). -/
inductive Instr where
  | split
  | near
  | lin
  | herm
  | saw
  | sawd
  | pulse
  | tri
  | tria
  | bherm
  deriving DecidableEq, Repr

end Sys2Proof
end

