-- ==== Sys2Proof/WellFormed.lean ====
section
/-! DEFINITION. Which terms are well formed: every command is (it has no field to be wrong in, 30_encoding.md R71);
a command word is when its reserved field is zero and its operation code is assigned (R70, R72); a configuration is
when its parameters are legal (00_scope.md R5 to R7). -/
namespace Sys2Proof

/-- A command carries no operand, so each of the ten is well formed (30_encoding.md R71). -/
def Instr.wellFormed : Instr → Bool
  | .split | .near | .lin | .herm => true
  | .saw | .sawd | .pulse | .tri | .tria => true
  | .bherm => true

/-- The operation codes of 30_encoding.md R72. -/
def assignedOpcodes : List Nat :=
  [0x01, 0x02, 0x03, 0x04, 0x10, 0x11, 0x12, 0x13, 0x14, 0x20]

/-- The reserved field `[63:8]` "must be zero" (30_encoding.md R70). -/
def CmdWord.reservedZero (w : CmdWord) : Bool := w.toNat / 256 == 0

/-- The field OPC holds an assigned code (30_encoding.md R72). -/
def CmdWord.opcodeAssigned (w : CmdWord) : Bool := assignedOpcodes.contains (w.toNat % 256)

/-- A command word that selects an operation (30_encoding.md R72, R74). -/
def CmdWord.wellFormed (w : CmdWord) : Bool :=
  CmdWord.reservedZero w && CmdWord.opcodeAssigned w

/-- TMAX_LOG2: "Legal values are 1 to 21" (00_scope.md R6). -/
def Config.tmaxLegal (c : Config) : Bool := decide (1 ≤ c.tmaxLog2) && decide (c.tmaxLog2 ≤ 21)

/-- BMAX "must be a multiple of 16" (00_scope.md R7). -/
def Config.bmaxWhole (c : Config) : Bool := c.bmax % Config.group == 0

/-- BMAX must "lie between 16 and 2^21" (00_scope.md R7). -/
def Config.bmaxInRange (c : Config) : Bool := decide (16 ≤ c.bmax) && decide (c.bmax ≤ 2 ^ 21)

/-- A legal configuration (00_scope.md R5, R6, R7; W is legal by its type). -/
def Config.wellFormed (c : Config) : Bool := c.tmaxLegal && c.bmaxWhole && c.bmaxInRange

end Sys2Proof
end

