-- ==== Sys2Proof/Decode.lean ====
section
/-! DEFINITION. Decoding a command word (30_encoding.md R70 to R75), total, rejecting by name; the encoder, from the
same table; and the byte lanes of a slot (20_memory.md R59). -/
namespace Sys2Proof

/-- Why a command word is illegal (30_encoding.md R74). -/
inductive Reject where
  /-- `cmd[63:8] != 0`, for any OPC. -/
  | reservedBits (w : CmdWord)
  /-- the reserved field is zero and OPC is none of R72's codes. -/
  | unassignedOpcode (opc : BitVec 8)
  deriving DecidableEq, Repr

/-- OPC = `cmd[7:0]` (30_encoding.md R71). -/
def opcOf (w : CmdWord) : BitVec 8 := w.extractLsb' 0 8

/-- RSV = `cmd[63:8]` (30_encoding.md R70). -/
def rsvOf (w : CmdWord) : BitVec 56 := w.extractLsb' 8 56

/-- The opcode map of 30_encoding.md R72. -/
def decodeOpc (opc : BitVec 8) : Option Instr :=
  match opc.toNat with
  | 0x01 => some .split
  | 0x02 => some .near
  | 0x03 => some .lin
  | 0x04 => some .herm
  | 0x10 => some .saw
  | 0x11 => some .sawd
  | 0x12 => some .pulse
  | 0x13 => some .tri
  | 0x14 => some .tria
  | 0x20 => some .bherm
  | _    => none

/-- Decoding: "Every 64-bit value written to CMD either matches exactly one row of rule R72 or is illegal under rule
R74" (30_encoding.md R75). -/
def decode (w : CmdWord) : Except Reject Instr :=
  if rsvOf w = 0#56 then
    match decodeOpc (opcOf w) with
    | some i => .ok i
    | none   => .error (.unassignedOpcode (opcOf w))
  else .error (.reservedBits w)

/-- The OPC column of 30_encoding.md R72. -/
def opcode : Instr → BitVec 8
  | .split => 0x01#8
  | .near  => 0x02#8
  | .lin   => 0x03#8
  | .herm  => 0x04#8
  | .saw   => 0x10#8
  | .sawd  => 0x11#8
  | .pulse => 0x12#8
  | .tri   => 0x13#8
  | .tria  => 0x14#8
  | .bherm => 0x20#8

/-- The command word of a command: OPC in `[7:0]`, RSV zero (30_encoding.md R70, R72). -/
def encode (i : Instr) : CmdWord := (opcode i).setWidth 64

/-- The instruction the decoder reads from a table word: bit 0 the least significant of the one 64-bit word; bits at
`nbits` and above are 0; a value that does not fit the one word is no command. -/
def decodeTableWord (nbits w : Nat) : Option Instr :=
  let v := w % 2 ^ nbits
  if v < 2 ^ 64 then
    match decode (BitVec.ofNat 64 v) with
    | .ok i    => some i
    | .error _ => none
  else none

/-- A slot from the byte lanes of a platform that exposes them: byte j is bits `[8j+7:8j]` (20_memory.md R59); the
list gives byte 0 first, and anything but eight bytes is no slot. -/
def slotOfLanes (bytes : List (BitVec 8)) : Option Slot :=
  if bytes.length = 8 then
    some (BitVec.ofNat 64 (bytes.foldr (fun b n => b.toNat + 256 * n) 0))
  else none

/-- Byte lane j of a slot: bits `[8j+7:8j]` (20_memory.md R59). -/
def laneOf (v : Slot) (j : Nat) : BitVec 8 := v.extractLsb' (8 * j) 8

end Sys2Proof
end

