-- ==== Sys2Proof/Machine/Binary32.lean ====
section
/-! DEFINITION. IEEE 754 binary32 as spec 00_scope.md R11 asks: each primitive gives the exact result rounded once, to
nearest with ties to even; subnormals kept, overflow to infinity, no fusion. -/
namespace Sys2Proof.Machine

/-- A binary32 value. A finite value is `(-1)^neg * mag * 2^(-149)`: every finite binary32 is a whole number of units
of 2^(-149). A NaN carries no payload here: the spec leaves it open (93_implementation_defined.md item 1; log 15). -/
inductive F32 where
  | nan
  | inf (neg : Bool)
  | fin (neg : Bool) (mag : Nat)
  deriving DecidableEq, Repr

/-- Rounds the rational `n / d` to a whole number, ties to even. -/
def roundHalfEven (n d : Nat) : Nat :=
  let q := n / d
  let r := n % d
  if 2 * r < d then q
  else if d < 2 * r then q + 1
  else q + q % 2

/-- The exponent of the last kept place of a magnitude whose whole part is `q`: 24 bits are kept, and never less than
one unit (which is where subnormals lie). -/
def ulpExp (q : Nat) : Nat := q.log2 - 23

/-- RN32 of the magnitude `n / d` in units of 2^(-149), before the overflow check (00_scope.md R11). -/
def roundMag (n d : Nat) : Nat :=
  let k := ulpExp (n / d)
  roundHalfEven n (d * 2 ^ k) * 2 ^ k

/-- 2^128 in units of 2^(-149): a rounded magnitude this large overflows. -/
def overflowMag : Nat := 2 ^ 277

/-- RN32: the signed rational `n / d` units, rounded once; "Overflow gives infinity" (00_scope.md R11). -/
def roundF32 (neg : Bool) (n d : Nat) : F32 :=
  if overflowMag ≤ roundMag n d then .inf neg else .fin neg (roundMag n d)

/-- A finite magnitude that binary32 holds exactly: 24 bits above its last place, below 2^128. -/
def representable (mag : Nat) : Bool :=
  decide (mag < overflowMag) && (mag % 2 ^ ulpExp mag == 0)

/-- A value that some pattern denotes. -/
def F32.valid : F32 → Bool
  | .nan     => true
  | .inf _   => true
  | .fin _ m => representable m

/-- A finite value in units of 2^(-149), signed; the others have none. -/
def F32.units : F32 → Option Int
  | .nan     => none
  | .inf _   => none
  | .fin s m => some (if s then -(m : Int) else m)

def F32.isNaN : F32 → Bool
  | .nan     => true
  | .inf _   => false
  | .fin _ _ => false

def F32.isFinite : F32 → Bool
  | .nan     => false
  | .inf _   => false
  | .fin _ _ => true

/-- `f32of(b)`: the value with pattern `b` (00_scope.md R11). -/
def f32of (b : Pattern) : F32 :=
  let neg := b.getLsbD 31
  let e := (b.extractLsb' 23 8).toNat
  let man := (b.extractLsb' 0 23).toNat
  if e = 255 then (if man = 0 then .inf neg else .nan)
  else if e = 0 then .fin neg man
  else .fin neg ((2 ^ 23 + man) * 2 ^ (e - 1))

/-- The pattern bits below the sign of a finite magnitude: biased exponent and mantissa. -/
def magBits (mag : Nat) : Nat := ulpExp mag * 2 ^ 23 + mag / 2 ^ ulpExp mag

/-- Sign bit over 31 lower bits. -/
def signed (neg : Bool) (low : Nat) : Pattern :=
  BitVec.ofNat 32 ((if neg then 2 ^ 31 else 0) + low)

/-- A NaN pattern out of a free value: "exponent all ones, mantissa non-zero. Sign and mantissa are not specified"
(93_implementation_defined.md item 1). Every NaN pattern comes from some `payload`. -/
def nanPattern (payload : BitVec 32) : Pattern :=
  let man := payload.extractLsb' 0 23
  signed (payload.getLsbD 31) (0x7F800000 + (if man = 0#23 then 1 else man.toNat))

/-- `bits(x)`: the pattern of `x` (00_scope.md R11); a NaN's is the one `payload` picks. -/
def F32.bits (payload : BitVec 32) : F32 → Pattern
  | .nan     => nanPattern payload
  | .inf s   => signed s 0x7F800000
  | .fin s m => signed s (magBits m)

/-- `fneg(a)`: "a with its sign bit flipped, exact" (00_scope.md R11). -/
def fneg : F32 → F32
  | .nan     => .nan
  | .inf s   => .inf !s
  | .fin s m => .fin (!s) m

/-- The sum of two finite values: exact, then rounded; "An exact zero sum of operands of opposite sign is +0", and of
operands of one sign keeps it (00_scope.md R11). -/
def addFin (s : Bool) (m : Nat) (t : Bool) (n : Nat) : F32 :=
  if s = t then roundF32 s (m + n) 1
  else if n < m then roundF32 s (m - n) 1
  else if m < n then roundF32 t (n - m) 1
  else .fin false 0

/-- `fadd(a,b) = RN32(a+b)` (00_scope.md R11). -/
def fadd : F32 → F32 → F32
  | .nan,     _        => .nan
  | .inf _,   .nan     => .nan
  | .inf s,   .inf t   => if s = t then .inf s else .nan
  | .inf s,   .fin _ _ => .inf s
  | .fin _ _, .nan     => .nan
  | .fin _ _, .inf t   => .inf t
  | .fin s m, .fin t n => addFin s m t n

/-- `fsub(a,b) = RN32(a-b)`: bit-identical to adding the negation (00_scope.md R11, 41_table_sampler.md R116). -/
def fsub (a b : F32) : F32 := fadd a (fneg b)

/-- `fmul(a,b) = RN32(a*b)` (00_scope.md R11). -/
def fmul : F32 → F32 → F32
  | .nan,     _        => .nan
  | .inf _,   .nan     => .nan
  | .inf s,   .inf t   => .inf (s != t)
  | .inf s,   .fin t n => if n = 0 then .nan else .inf (s != t)
  | .fin _ _, .nan     => .nan
  | .fin s m, .inf t   => if m = 0 then .nan else .inf (s != t)
  | .fin s m, .fin t n => roundF32 (s != t) (m * n) (2 ^ 149)

/-- `fdiv(a,b) = RN32(a/b)`; a finite non-zero value over zero is infinite, zero over zero is NaN (00_scope.md R11). -/
def fdiv : F32 → F32 → F32
  | .nan,     _        => .nan
  | .inf _,   .nan     => .nan
  | .inf _,   .inf _   => .nan
  | .inf s,   .fin t _ => .inf (s != t)
  | .fin _ _, .nan     => .nan
  | .fin s _, .inf t   => .fin (s != t) 0
  | .fin s m, .fin t n =>
    if n = 0 then (if m = 0 then .nan else .inf (s != t))
    else roundF32 (s != t) (m * 2 ^ 149) n

/-- `cvt(n) = RN32(n)` for an unsigned integer (00_scope.md R11). -/
def cvt (n : Nat) : F32 := roundF32 false (n * 2 ^ 149) 1

/-- `P2(k)`, the constant 2^k, exact for -126 <= k <= 127 (00_scope.md R11). -/
def p2 (k : Int) : F32 := .fin false (2 ^ (k + 149).toNat)

/-- The literal 1.0. -/
def one : F32 := p2 0

/-- The literal 2.0. -/
def two : F32 := p2 1

/-- `select(M, a, b) = (bits(a) AND M) OR (bits(b) AND NOT M)`, on patterns (00_scope.md R13). -/
def select (m a b : Pattern) : Pattern := (a &&& m) ||| (b &&& ~~~m)

/-- The mask of a comparison: all ones or all zeros (42_tableless.md R136, R142). -/
def maskOf (c : Bool) : Pattern := if c then 0xFFFFFFFF#32 else 0#32

end Sys2Proof.Machine
end

