-- ==== Sys2Proof/Machine/State.lean ====
section
/-! DEFINITION. The state of one SYN-CORE as plain data: the registers and memories of spec 10_state.md, the host
accesses waiting at the port, and the reasons a step can end without a next state. -/
namespace Sys2Proof.Machine

/-- FCODE, the code of a recorded block fault; "Codes 0x05 to 0xFF are never produced" (60_exceptions.md R180). -/
inductive FaultCode where
  | none
  | illegalCmd
  | precondTsize
  | precondBlen
  | shapeRange
  deriving DecidableEq, Repr

/-- What reaches the block at its port, one event for each step (20_memory.md R55, 70_reset_and_hazards.md R200).
`bits` is how many bits the access moves: only 64 is accepted (20_memory.md R54). -/
inductive PortEvent where
  | hostWrite (addr : Addr) (bits : Nat) (data : Slot)
  | hostRead  (addr : Addr) (bits : Nat)
  | reset
  deriving DecidableEq, Repr

/-- A block memory: the written entries as (entry number, pattern), numbers strictly rising; an entry that nothing
has written since reset is not listed (20_memory.md R52; log 12). -/
abbrev Memory (width : Nat) := List (Nat × BitVec width)

/-- A step that the spec says does not exist: "A model has no step for a refused access: the host is stuck"
(20_memory.md R58). These are NOT the block's own faults, which are state (60_exceptions.md R183). All are safe: the
machine stops with its state unchanged. -/
inductive Fault where
  /-- Raised by the port for an access that does not move exactly 64 bits. Safe (log 7). -/
  | accessWidth (bits : Nat)
  /-- Raised by the port for an address that is not a multiple of 8. Safe (log 7). -/
  | misalignedAddress (addr : Addr)
  /-- Raised by the port for an address outside every window of 20_memory.md R56. Safe (log 7). -/
  | unmappedAddress (addr : Addr)
  deriving DecidableEq, Repr

/-- A step the model refuses. All are safe: nothing can be proved of what would follow. -/
inductive Refusal where
  /-- Raised by exec's arm of an instruction that has no meaning yet (none is left). Safe. -/
  | notModelled (mnemonic : String)
  /-- Raised by NEAR, LIN, HERM and BHERM on reading TMEM entry `i` that the host has not written since reset: "A
  model treats a command's read of a TMEM or PBUF entry not written since reset as refused"
  (70_reset_and_hazards.md R201). Safe (log 6). -/
  | unwrittenTmem (i : Nat)
  /-- Raised by BHERM on reading PBUF entry `i` that the host has not written since reset (70_reset_and_hazards.md
  R201). Safe (log 6). -/
  | unwrittenPbuf (i : Nat)
  deriving DecidableEq, Repr

/-- Everything the spec gives the block (10_state.md), and the port. -/
structure State where
  /-- MODEL'S OWN: how many commands have completed; each takes the next NaN payload of Config.freeNaN, needed or not
  (log 4). It stands first so that two states a command tells apart differ in their first field. -/
  draws  : Nat
  /-- CAP's contents: the build parameters, the same from reset on (10_state.md R23; log 3). -/
  cfg    : Config
  /-- TSIZE.N (10_state.md R24). -/
  tsize  : Slot
  /-- PHASE, `[W-1:0]`, the bits above 0 (10_state.md R26). -/
  phase  : Slot
  /-- SHAPE, a binary32 pattern (10_state.md R27). -/
  shape  : Pattern
  /-- RESULT, a binary32 pattern (10_state.md R29). -/
  result : Pattern
  /-- INDEX, at most 21 bits (10_state.md R30; log 9). -/
  index  : BitVec 21
  /-- FRAC, a binary32 pattern (10_state.md R31). -/
  frac   : Pattern
  /-- BLEN (10_state.md R32). -/
  blen   : BitVec 32
  /-- STATUS.FAULT (10_state.md R33). -/
  fault  : Bool
  /-- STATUS.FCODE (10_state.md R33). -/
  fcode  : FaultCode
  /-- FINFO (10_state.md R34). -/
  finfo  : Slot
  /-- TMEM, the table memory (10_state.md R36). -/
  tmem   : Memory 32
  /-- PBUF, the phase buffer: `[W-1:0]` of each entry (10_state.md R37). -/
  pbuf   : Memory 64
  /-- OBUF, the output buffer (10_state.md R38). -/
  obuf   : Memory 32
  /-- MODEL'S OWN: the accesses and resets not yet performed, in the port's order (20_memory.md R61; log 1). -/
  port   : List PortEvent
  /-- MODEL'S OWN: what the latest access returned to the host, if it was a read (20_memory.md R55; log 2). -/
  rdata  : Option Slot
  /-- MODEL'S OWN: how many resets have been taken; picks Config.freeEntry's values (log 5). -/
  epoch  : Nat
  deriving DecidableEq, Repr

/-- The block of configuration `c` right after reset: 70_reset_and_hazards.md R200's table, the memories unwritten
(R201), the model's own fields empty. -/
def State.resetWith (c : Config) : State where
  draws  := 0
  cfg    := c
  tsize  := 0#64
  phase  := 0#64
  shape  := 0x3F000000#32
  result := 0#32
  index  := 0#21
  frac   := 0#32
  blen   := 0#32
  fault  := false
  fcode  := .none
  finfo  := 0#64
  tmem   := []
  pbuf   := []
  obuf   := []
  port   := []
  rdata  := none
  epoch  := 0

/-- The machine right after reset, in the reference configuration (70_reset_and_hazards.md R200, R201; log 3). -/
def State.reset : State := State.resetWith Config.reference

end Sys2Proof.Machine
end

