-- ==== Sys2Proof/Machine/Ops.lean ====
section
/-! DEFINITION. The named operations every meaning is built from: reading and writing an entry of a block memory,
writing each register, entering the fault state (60_exceptions.md R183) and leaving it by reset
(70_reset_and_hazards.md R200). -/
namespace Sys2Proof.Machine

/-- What a meaning and a step answer. -/
abbrev Result := Host.Outcome State Fault Refusal

/-! ## Block memories (20_memory.md R50 to R53) -/

/-- The pattern of entry `i`, if it has been written since reset (20_memory.md R52). -/
def Memory.read {n : Nat} : Memory n → Nat → Option (BitVec n)
  | [], _ => none
  | (k, v) :: m, i => if i = k then some v else Memory.read m i

/-- `MEM[i] <- v`, keeping the entries in rising order (00_scope.md R13). -/
def Memory.write {n : Nat} : Memory n → Nat → BitVec n → Memory n
  | [], i, v => [(i, v)]
  | (k, u) :: m, i, v =>
    if i < k then (i, v) :: (k, u) :: m
    else if i = k then (i, v) :: m
    else (k, u) :: Memory.write m i v

/-- The canonical form: entry numbers strictly rising. -/
abbrev Memory.wf {n : Nat} (m : Memory n) : Prop := m.Pairwise (fun a b => a.1 < b.1)

/-- Every listed entry lies below the capacity. -/
abbrev Memory.within {n : Nat} (m : Memory n) (cap : Nat) : Prop := ∀ c ∈ m, c.1 < cap

/-! ## Register writes -/

/-- TSIZE <- v (10_state.md R24). -/
def State.setTsize (s : State) (v : Slot) : State := { s with tsize := v }

/-- PHASE <- `v[W-1:0]`: "When W = 32, bits `[63:32]` read 0 and ignore writes" (10_state.md R26). -/
def State.setPhase (s : State) (v : Slot) : State :=
  { s with phase := (v.setWidth s.cfg.w).setWidth 64 }

/-- SHAPE <- `v[31:0]`; "Any 32-bit pattern is stored" (10_state.md R27). -/
def State.setShape (s : State) (v : Slot) : State := { s with shape := v.setWidth 32 }

/-- BLEN <- `v[31:0]`; "Any 32-bit value is stored" (10_state.md R32). -/
def State.setBlen (s : State) (v : Slot) : State := { s with blen := v.setWidth 32 }

/-- TMEM[i] <- `v[31:0]` (20_memory.md R56). -/
def State.setTmem (s : State) (i : Nat) (v : Slot) : State :=
  { s with tmem := Memory.write s.tmem i (v.setWidth 32) }

/-- PBUF[i] <- `v[W-1:0]` (20_memory.md R56). -/
def State.setPbuf (s : State) (i : Nat) (v : Slot) : State :=
  { s with pbuf := Memory.write s.pbuf i ((v.setWidth s.cfg.w).setWidth 64) }

/-- RESULT <- a pattern, by a command that completes (10_state.md R29; log 4). -/
def State.setResult (s : State) (b : Pattern) : State := { s with result := b, draws := s.draws + 1 }

/-- The NaN payload of a command's `element`-th result (93_implementation_defined.md item 1; log 4). -/
def State.nanPayload (s : State) (element : Nat) : BitVec 32 := Config.freeNaN s.draws element

/-- RESULT <- bits(x) for an arithmetic result: a NaN takes the command's free payload (log 4). -/
def State.setSample (s : State) (x : F32) : State := s.setResult (x.bits (s.nanPayload 0))

/-- INDEX and FRAC, written together by SPLIT (40_phasemath.md R104; log 4). -/
def State.setSplit (s : State) (i : BitVec 21) (f : Pattern) : State :=
  { s with index := i, frac := f, draws := s.draws + 1 }

/-- OBUF as BHERM leaves it (43_batch_hermite.md R163; log 4). -/
def State.setObuf (s : State) (m : Memory 32) : State := { s with obuf := m, draws := s.draws + 1 }

/-! ## Faults and reset -/

/-- `raise Fault(code, info)`: FAULT <- 1, FCODE <- code, FINFO <- info; "Nothing else changes" (60_exceptions.md R183). -/
def State.raise (s : State) (code : FaultCode) (info : Slot) : State :=
  { s with fault := true, fcode := code, finfo := info }

/-- The only way out of the fault state: reset (60_exceptions.md R186). Every register takes its reset value and the
memories become unwritten (70_reset_and_hazards.md R200, R201); the configuration, the accesses still waiting and the
free values already spent stay (log 8). -/
def State.takeReset (s : State) : State :=
  { State.resetWith s.cfg with port := s.port, draws := s.draws, epoch := s.epoch + 1 }

/-- A command's frame: "A faulted block computes nothing until it is reset" (60_exceptions.md R186, R184 step 1); else
the command runs (log 11). -/
def State.command (s : State) (run : Result) : Result :=
  if s.fault then .next s else run

/-- The port takes its oldest event: it leaves the list, and nothing has been returned to the host yet (log 1). -/
def State.accept (s : State) (rest : List PortEvent) : State :=
  { s with port := rest, rdata := none }

/-- The access returns `v` to the host (20_memory.md R55). -/
def State.answer (s : State) (v : Slot) : State := { s with rdata := some v }

end Sys2Proof.Machine
end

