-- ==== Sys2Proof/Machine/Operands.lean ====
section
/-! DEFINITION. The implicit operands of the commands (30_encoding.md R73): the phase, the table and its size, the
shape, the batch. A command has no other operand form (R71). -/
namespace Sys2Proof.Machine

/-- The W-bit operand PHASE (10_state.md R26). -/
def State.phaseW (s : State) : BitVec s.cfg.w := s.phase.setWidth s.cfg.w

/-- `f32of(SHAPE[31:0])` (42_tableless.md R135, R141). -/
def State.shapeF (s : State) : F32 := f32of s.shape

/-- `N` is a table size the block accepts: a power of two, `2 <= N <= TMAX` (10_state.md R24). -/
def legalSize (c : Config) (n : Slot) : Bool :=
  (n &&& (n - 1#64)) == 0#64 && decide (2 ≤ n.toNat) && decide (n.toNat ≤ c.tmax)

/-- A command's read of TMEM[i]: "refused" where nothing has written the entry since reset (70_reset_and_hazards.md
R201; log 6). -/
def State.tmemAt (s : State) (i : Nat) : Except Refusal Pattern :=
  match Memory.read s.tmem i with
  | some v => .ok v
  | none   => .error (.unwrittenTmem i)

/-- BHERM's read of PBUF[i], W bits (20_memory.md R51); refused where unwritten (70_reset_and_hazards.md R201; log 6). -/
def State.pbufAt (s : State) (i : Nat) : Except Refusal (BitVec s.cfg.w) :=
  match Memory.read s.pbuf i with
  | some v => .ok (v.setWidth s.cfg.w)
  | none   => .error (.unwrittenPbuf i)

/-- The entry number of a neighbour: `(i +_W d) AND (N - 1)`, with d = -1 as `i -_W 1` (41_table_sampler.md R110). -/
def nbIndex {w : Nat} (n : Slot) (i : BitVec w) (d : Int) : Nat :=
  ((i + BitVec.ofInt w d) &&& (n - 1#64).setWidth w).toNat

/-- `f32of(nb(i, d))`: a neighbour as a value (41_table_sampler.md R110, R114, R117). -/
def State.nb (s : State) {w : Nat} (i : BitVec w) (d : Int) : Except Refusal F32 :=
  match s.tmemAt (nbIndex s.tsize i d) with
  | .ok v    => .ok (f32of v)
  | .error r => .error r

/-- The table precondition: `require TSIZE != 0 else raise Fault(PRECOND_TSIZE, 0)` (41_table_sampler.md R111). -/
def State.requireTable (s : State) (run : Result) : Result :=
  if s.tsize = 0#64 then .next (s.raise .precondTsize 0#64) else run

/-- BLEN is a legal batch length: a multiple of 16, at most BMAX (43_batch_hermite.md R161). -/
def legalBatch (c : Config) (blen : BitVec 32) : Bool :=
  blen.toNat % Config.group == 0 && decide (blen.toNat ≤ c.bmax)

/-- The batch precondition: `else raise Fault(PRECOND_BLEN, zext_64(BLEN))` (43_batch_hermite.md R161). -/
def State.requireBatch (s : State) (run : Result) : Result :=
  if legalBatch s.cfg s.blen then run else .next (s.raise .precondBlen (s.blen.setWidth 64))

/-- A width PULSE accepts: not NaN, `+0.0 <= w <= 1.0`; "-0.0 is legal" (42_tableless.md R135). -/
def legalWidth (x : F32) : Bool :=
  match x.units with
  | some u => decide (0 ≤ u) && decide (u ≤ 2 ^ 149)
  | none   => false

/-- A slope TRIA accepts: not NaN, `+0.0 < s < 1.0` (42_tableless.md R141). -/
def legalSlope (x : F32) : Bool :=
  match x.units with
  | some u => decide (0 < u) && decide (u < 2 ^ 149)
  | none   => false

/-- The shape precondition: `else raise Fault(SHAPE_RANGE, zext_64(SHAPE[31:0]))` (42_tableless.md R135, R141). -/
def State.requireShape (s : State) (legal : Bool) (run : Result) : Result :=
  if legal then run else .next (s.raise .shapeRange (s.shape.setWidth 64))

/-- The end of a scalar sample command whose result is arithmetic: write RESULT, or refuse (log 6). -/
def State.deliver (s : State) : Except Refusal F32 → Result
  | .ok x    => .next (s.setSample x)
  | .error r => .refused r

/-- The magnitude of a finite value in units of 2^(-149); 0 for the others, which the shape checks have refused. -/
def F32.mag : F32 → Nat
  | .nan     => 0
  | .inf _   => 0
  | .fin _ m => m

/-- `ceil(x * 2^W)` for a finite x >= 0, exact (42_tableless.md R136). -/
def ceilScaled (w : Nat) (x : F32) : Nat := (x.mag * 2 ^ w + (2 ^ 149 - 1)) / 2 ^ 149

/-- `floor(x * 2^W)` for a finite x >= 0, exact (42_tableless.md R140). -/
def floorScaled (w : Nat) (x : F32) : Nat := x.mag * 2 ^ w / 2 ^ 149

end Sys2Proof.Machine
end

