-- ==== Sys2Proof/Machine/PhaseMath.lean ====
section
/-! DEFINITION. PhaseMath: the split of a phase into table index and fraction, and SPLIT (spec 40_phasemath.md). -/
namespace Sys2Proof.Machine

/-- `IndexBits(N) = ctz(N)`, the number of trailing zero bits of N != 0 (40_phasemath.md R100). -/
def indexBits (n : Slot) : Nat := (n &&& -n).toNat.log2

/-- `FractionBits(N) = W - IndexBits(N)` (40_phasemath.md R101). -/
def fractionBits (w : Nat) (n : Slot) : Nat := w - indexBits n

/-- `index(N, p) = p >> F` (40_phasemath.md R102). -/
def phaseIndex {w : Nat} (n : Slot) (p : BitVec w) : BitVec w := p >>> fractionBits w n

/-- `mask = 2^F - 1` (40_phasemath.md R103). -/
def fractionMask (w : Nat) (n : Slot) : Nat := 2 ^ fractionBits w n - 1

/-- `fraction(N, p) = fmul(cvt(p AND mask), fdiv(1.0, cvt(mask)))` (40_phasemath.md R103). -/
def phaseFraction {w : Nat} (n : Slot) (p : BitVec w) : F32 :=
  fmul (cvt (p.toNat &&& fractionMask w n)) (fdiv one (cvt (fractionMask w n)))

/-- SPLIT: INDEX <- index(N, PHASE), FRAC <- bits(fraction(N, PHASE)) (40_phasemath.md R104). -/
def execSplit (s : State) : Result :=
  s.command <| s.requireTable <|
    .next (s.setSplit ((phaseIndex s.tsize s.phaseW).setWidth 21)
      ((phaseFraction s.tsize s.phaseW).bits (s.nanPayload 0)))

end Sys2Proof.Machine
end

