-- ==== Sys2Proof/Machine/TableSampler.lean ====
section
/-! DEFINITION. TableSampler: NEAR, LIN and HERM over the table TMEM[0..N-1] (spec 41_table_sampler.md). -/
namespace Sys2Proof.Machine

/-- NEAR: RESULT <- TMEM[index(N, PHASE)], the "32-bit pattern copied unchanged" (41_table_sampler.md R112). -/
def execNear (s : State) : Result :=
  s.command <| s.requireTable <|
    match s.tmemAt (phaseIndex s.tsize s.phaseW).toNat with
    | .ok v    => .next (s.setResult v)
    | .error r => .refused r

/-- `fadd(x0, fmul(fsub(x1, x0), f))` (41_table_sampler.md R114). -/
def lerp (x0 x1 f : F32) : F32 := fadd x0 (fmul (fsub x1 x0) f)

/-- The linear sample of the table at phase `p` (41_table_sampler.md R114). -/
def State.linAt (s : State) {w : Nat} (p : BitVec w) : Except Refusal F32 :=
  let i := phaseIndex s.tsize p
  match s.nb i 0, s.nb i 1 with
  | .ok x0, .ok x1   => .ok (lerp x0 x1 (phaseFraction s.tsize p))
  | .error r, _      => .error r
  | .ok _, .error r  => .error r

/-- LIN: 2-point linear interpolation (41_table_sampler.md R114). -/
def execLin (s : State) : Result :=
  s.command <| s.requireTable <| s.deliver (s.linAt s.phaseW)

/-- The Hermite kernel, `((a*f + b)*f + c)*f + x0` with `b = -(w + a)` (41_table_sampler.md R116, 90_conflicts.md C1). -/
def herm4 (xm1 x0 x1 x2 f : F32) : F32 :=
  let c := fdiv (fsub x1 xm1) two
  let v := fsub x0 x1
  let w := fadd c v
  let a := fadd (fadd w v) (fdiv (fsub x2 x0) two)
  let b := fneg (fadd w a)
  fadd (fmul (fadd (fmul (fadd (fmul a f) b) f) c) f) x0

/-- The Hermite sample of the table at phase `p`: the element rule both of HERM and of BHERM (41_table_sampler.md R117,
43_batch_hermite.md R162). -/
def State.hermAt (s : State) {w : Nat} (p : BitVec w) : Except Refusal F32 :=
  let i := phaseIndex s.tsize p
  match s.nb i (-1), s.nb i 0, s.nb i 1, s.nb i 2 with
  | .ok xm1, .ok x0, .ok x1, .ok x2    => .ok (herm4 xm1 x0 x1 x2 (phaseFraction s.tsize p))
  | .error r, _, _, _                  => .error r
  | .ok _, .error r, _, _              => .error r
  | .ok _, .ok _, .error r, _          => .error r
  | .ok _, .ok _, .ok _, .error r      => .error r

/-- HERM: 4-point cubic Hermite interpolation (41_table_sampler.md R117). -/
def execHerm (s : State) : Result :=
  s.command <| s.requireTable <| s.deliver (s.hermAt s.phaseW)

end Sys2Proof.Machine
end

