-- ==== Sys2Proof/Machine/BatchHermite.lean ====
section
/-! DEFINITION. BatchHermite: BHERM (spec 43_batch_hermite.md). -/
namespace Sys2Proof.Machine

/-- The element rule: the Hermite sample at PBUF[i], as a pattern; a NaN takes the payload of its own element
(43_batch_hermite.md R162; logs 4, 16). -/
def State.batchElement (s : State) (i : Nat) : Except Refusal Pattern :=
  match s.pbufAt i with
  | .error r => .error r
  | .ok p =>
    match s.hermAt p with
    | .error r => .error r
    | .ok x    => .ok (x.bits (s.nanPayload i))

/-- OBUF after elements 0 to `count - 1`: each read from the state before the command, each written to its own entry
(43_batch_hermite.md R162, R166). -/
def State.batch (s : State) : Nat → Except Refusal (Memory 32)
  | 0 => .ok s.obuf
  | k + 1 =>
    match s.batch k with
    | .error r => .error r
    | .ok m =>
      match s.batchElement k with
      | .error r => .error r
      | .ok v    => .ok (Memory.write m k v)

/-- BHERM: TSIZE is checked first, BLEN second, "Both are checked before any OBUF entry is written" (43_batch_hermite.md
R163). -/
def execBherm (s : State) : Result :=
  s.command <| s.requireTable <| s.requireBatch <|
    match s.batch s.blen.toNat with
    | .ok m    => .next (s.setObuf m)
    | .error r => .refused r

end Sys2Proof.Machine
end

