-- ==== Sys2Proof/Machine/Tableless.lean ====
section
/-! DEFINITION. TablelessOscillators: SAW, SAWD, PULSE, TRI and TRIA, functions of PHASE and SHAPE alone (spec
42_tableless.md R144). -/
namespace Sys2Proof.Machine

/-- `saw(p) = fsub(fmul(fdiv(cvt(p), P2(W)), 2.0), 1.0)` (42_tableless.md R130). -/
def saw {w : Nat} (p : BitVec w) : F32 :=
  fsub (fmul (fdiv (cvt p.toNat) (p2 w)) two) one

/-- SAW (42_tableless.md R131). -/
def execSaw (s : State) : Result :=
  s.command <| .next (s.setSample (saw s.phaseW))

/-- `fsub(1.0, fmul(cvt(p), P2(1-W)))` (42_tableless.md R133). -/
def sawd {w : Nat} (p : BitVec w) : F32 :=
  fsub one (fmul (cvt p.toNat) (p2 (1 - (w : Int))))

/-- SAWD (42_tableless.md R133). -/
def execSawd (s : State) : Result :=
  s.command <| .next (s.setSample (sawd s.phaseW))

/-- The pattern PULSE delivers: `select(M, -1.0, +1.0)` with M all ones where `p < ceil(w * 2^W)` (42_tableless.md R136). -/
def pulse {w : Nat} (p : BitVec w) (width : F32) : Pattern :=
  select (maskOf (decide (p.toNat < ceilScaled w width))) ((fneg one).bits 0#32) (one.bits 0#32)

/-- PULSE (42_tableless.md R135, R136). -/
def execPulse (s : State) : Result :=
  s.command <| s.requireShape (legalWidth s.shapeF) <|
    .next (s.setResult (pulse s.phaseW s.shapeF))

/-- The phase folded at the midpoint, then doubled: `(p XOR msk) << 1` with `msk = 0 -_W (p >> (W-1))` (42_tableless.md
R138). -/
def triFold {w : Nat} (p : BitVec w) : BitVec w :=
  (p ^^^ (0#w - (p >>> (w - 1)))) <<< 1

/-- `fsub(fmul(cvt(u), P2(1-W)), 1.0)` of the folded phase (42_tableless.md R138). -/
def tri {w : Nat} (p : BitVec w) : F32 :=
  fsub (fmul (cvt (triFold p).toNat) (p2 (1 - (w : Int)))) one

/-- TRI (42_tableless.md R138). -/
def execTri (s : State) : Result :=
  s.command <| .next (s.setSample (tri s.phaseW))

/-- `x = fmul(cvt(p), P2(-W))` (42_tableless.md R140). -/
def triaX {w : Nat} (p : BitVec w) : F32 := fmul (cvt p.toNat) (p2 (-(w : Int)))

/-- `rise = fsub(fmul(x, kr), 1.0)` with `kr = fdiv(2.0, s)` (42_tableless.md R140). -/
def triaRise {w : Nat} (p : BitVec w) (slope : F32) : F32 :=
  fsub (fmul (triaX p) (fdiv two slope)) one

/-- `fall = fsub(1.0, fmul(fsub(x, s), kf))` with `kf = fdiv(2.0, fsub(1.0, s))` (42_tableless.md R140). -/
def triaFall {w : Nat} (p : BitVec w) (slope : F32) : F32 :=
  fsub one (fmul (fsub (triaX p) slope) (fdiv two (fsub one slope)))

/-- `pivot = floor(s * 2^W)` (42_tableless.md R140). -/
def triaPivot (w : Nat) (slope : F32) : Nat := floorScaled w slope

/-- The pattern TRIA delivers: `select(M, fall, rise)` with M all ones where PHASE > pivot; the chosen pattern passes
unchanged (42_tableless.md R142). -/
def tria {w : Nat} (p : BitVec w) (slope : F32) (nan : BitVec 32) : Pattern :=
  select (maskOf (decide (triaPivot w slope < p.toNat)))
    ((triaFall p slope).bits nan) ((triaRise p slope).bits nan)

/-- TRIA (42_tableless.md R141, R142); the result may be a NaN, which takes the next free payload (log 4). -/
def execTria (s : State) : Result :=
  s.command <| s.requireShape (legalSlope s.shapeF) <|
    .next (s.setResult (tria s.phaseW s.shapeF (s.nanPayload 0)))

end Sys2Proof.Machine
end

