-- ==== Sys2Proof/Machine/Dispatch.lean ====
section
/-! DEFINITION. Which meaning each command has. -/
namespace Sys2Proof.Machine

def exec (i : Instr) (s : State) : Host.Outcome State Fault Refusal :=
  match i with
  -- PhaseMath (40_phasemath.md)
  | .split => Sys2Proof.Machine.execSplit s
  -- TableSampler (41_table_sampler.md)
  | .near => Sys2Proof.Machine.execNear s
  | .lin => Sys2Proof.Machine.execLin s
  | .herm => Sys2Proof.Machine.execHerm s
  -- TablelessOscillators (42_tableless.md)
  | .saw => Sys2Proof.Machine.execSaw s
  | .sawd => Sys2Proof.Machine.execSawd s
  | .pulse => Sys2Proof.Machine.execPulse s
  | .tri => Sys2Proof.Machine.execTri s
  | .tria => Sys2Proof.Machine.execTria s
  -- BatchHermite (43_batch_hermite.md)
  | .bherm => Sys2Proof.Machine.execBherm s

end Sys2Proof.Machine
end

