-- ==== Sys2Proof/Machine/Flags.lean ====
section
/-! DEFINITION. The block's one flag: STATUS.FAULT with its code FCODE (10_state.md R33, R39). There are no condition
codes and no floating-point flags (10_state.md R39, 41_table_sampler.md R121): no command that completes writes a
flag. -/
namespace Sys2Proof.Machine

/-- The code of a fault, STATUS `[15:8]` (60_exceptions.md R180). -/
def FaultCode.toByte : FaultCode → BitVec 8
  | .none         => 0x00#8
  | .illegalCmd   => 0x01#8
  | .precondTsize => 0x02#8
  | .precondBlen  => 0x03#8
  | .shapeRange   => 0x04#8

/-- STATUS as read: FAULT in bit 0, FCODE in `[15:8]`, the rest 0 (10_state.md R33). -/
def statusWord (fault : Bool) (code : FaultCode) : Slot :=
  (code.toByte.setWidth 64 <<< 8) ||| (if fault then 1#64 else 0#64)

end Sys2Proof.Machine
end

