-- ==== Sys2Proof/Machine/Registers.lean ====
section
/-! DEFINITION. The register window and the memory windows as the host sees them: the address map (20_memory.md R56),
what a read of each slot returns, and what a write of each slot but CMD does (10_state.md R20 to R38). -/
namespace Sys2Proof.Machine

/-- The twelve registers of 10_state.md. -/
inductive Reg where
  | cap
  | tsize
  | geom
  | phase
  | shape
  | cmd
  | result
  | index
  | frac
  | blen
  | status
  | finfo
  deriving DecidableEq, Repr

/-- What a mapped address reaches (20_memory.md R56). -/
inductive Target where
  | reg  (r : Reg)
  | tmem (i : Nat)
  | pbuf (i : Nat)
  | obuf (i : Nat)
  deriving DecidableEq, Repr

/-- The offset column of 10_state.md's register map. -/
def Reg.offset : Reg → Nat
  | .cap    => 0x000
  | .tsize  => 0x008
  | .geom   => 0x010
  | .phase  => 0x018
  | .shape  => 0x020
  | .cmd    => 0x028
  | .result => 0x030
  | .index  => 0x038
  | .frac   => 0x040
  | .blen   => 0x048
  | .status => 0x050
  | .finfo  => 0x058

/-- The register at an offset; "Offsets 0x060 to 0xFF8 of the register window hold no register" (10_state.md R35). -/
def Reg.ofOffset (n : Nat) : Option Reg :=
  match n with
  | 0x000 => some .cap
  | 0x008 => some .tsize
  | 0x010 => some .geom
  | 0x018 => some .phase
  | 0x020 => some .shape
  | 0x028 => some .cmd
  | 0x030 => some .result
  | 0x038 => some .index
  | 0x040 => some .frac
  | 0x048 => some .blen
  | 0x050 => some .status
  | 0x058 => some .finfo
  | _     => none

/-- The window bases of 20_memory.md R56. -/
def tmemBase : Nat := 0x01000000
def pbufBase : Nat := 0x02000000
def obufBase : Nat := 0x03000000

/-- The slot address of a target (20_memory.md R56). -/
def Target.addr : Target → Addr
  | .reg r  => BitVec.ofNat 32 r.offset
  | .tmem i => BitVec.ofNat 32 (tmemBase + 8 * i)
  | .pbuf i => BitVec.ofNat 32 (pbufBase + 8 * i)
  | .obuf i => BitVec.ofNat 32 (obufBase + 8 * i)

/-- The slot number of an address in a window of `cap` slots at `base`. -/
def slotIn (base cap a : Nat) : Option Nat :=
  if base ≤ a ∧ (a - base) / 8 < cap then some ((a - base) / 8) else none

/-- The address map: what the slot at an 8-byte-aligned address holds; "Everything else is unmapped" (20_memory.md R56). -/
def targetOf (c : Config) (a : Addr) : Option Target :=
  if a.toNat < tmemBase then (Reg.ofOffset a.toNat).map .reg
  else if a.toNat < pbufBase then (slotIn tmemBase c.tmax a.toNat).map .tmem
  else if a.toNat < obufBase then (slotIn pbufBase c.bmax a.toNat).map .pbuf
  else (slotIn obufBase c.bmax a.toNat).map .obuf

/-- CAP as read: W, TMAX_LOG2, LANE, GROUP in bytes 0 to 3, BMAX in `[63:32]` (10_state.md R23). -/
def capWord (c : Config) : Slot :=
  BitVec.ofNat 64
    (c.w + c.tmaxLog2 * 2 ^ 8 + Config.lane * 2 ^ 16 + Config.group * 2 ^ 24 + c.bmax * 2 ^ 32)

/-- GEOM as read: IDXBITS in `[7:0]`, FRACBITS in `[15:8]`; 0 while TSIZE = 0 (10_state.md R25). -/
def geomWord (c : Config) (n : Slot) : Slot :=
  if n = 0#64 then 0#64
  else BitVec.ofNat 64 (indexBits n + fractionBits c.w n * 2 ^ 8)

/-- What a read of a register returns, zero-extended (10_state.md R20 to R34). -/
def State.readReg (s : State) : Reg → Slot
  | .cap    => capWord s.cfg
  | .tsize  => s.tsize
  | .geom   => geomWord s.cfg s.tsize
  | .phase  => s.phase
  | .shape  => s.shape.setWidth 64
  | .cmd    => 0#64
  | .result => s.result.setWidth 64
  | .index  => s.index.setWidth 64
  | .frac   => s.frac.setWidth 64
  | .blen   => s.blen.setWidth 64
  | .status => statusWord s.fault s.fcode
  | .finfo  => s.finfo

/-- What a host read of a memory slot returns: the entry, or the free value of an unwritten one, at the entry's width,
zero-extended (20_memory.md R57, 93_implementation_defined.md item 2b; log 5). -/
def State.readEntry (s : State) {n : Nat} (id : MemId) (width : Nat) (m : Memory n) (i : Nat) : Slot :=
  match Memory.read m i with
  | some v => v.setWidth 64
  | none   => ((Config.freeEntry id s.epoch i).setWidth width).setWidth 64

/-- What a host read of a mapped slot returns (20_memory.md R57). -/
def State.readTarget (s : State) : Target → Slot
  | .reg r  => s.readReg r
  | .tmem i => s.readEntry .tmem 32 s.tmem i
  | .pbuf i => s.readEntry .pbuf s.cfg.w s.pbuf i
  | .obuf i => s.readEntry .obuf 32 s.obuf i

/-- A host write to TSIZE of an unfaulted block: a legal size is stored; else `raise Fault(PRECOND_TSIZE, v)` and
"TSIZE keeps its old value" (10_state.md R24). -/
def State.writeTsize (s : State) (v : Slot) : State :=
  if legalSize s.cfg v then s.setTsize v else s.raise .precondTsize v

end Sys2Proof.Machine
end

