-- ==== Sys2Proof/Machine/Port.lean ====
section
/-! DEFINITION. The host port: what one host access, or the platform's reset, does to the block (spec 20_memory.md R54
to R58, 60_exceptions.md R184, 70_reset_and_hazards.md R200). -/
namespace Sys2Proof.Machine

/-- A CMD write of an unfaulted block: the decode check, then the command (30_encoding.md R74, 60_exceptions.md R184
step 2). -/
def State.issue (s : State) (w : CmdWord) : Result :=
  match decode w with
  | .ok i    => exec i s
  | .error _ => .next (s.raise .illegalCmd w)

/-- A write to a register of an unfaulted block; "Writes to a register marked RO are ignored" (10_state.md R20). -/
def State.writeReg (s : State) (r : Reg) (v : Slot) : Result :=
  match r with
  | .cap    => .next s
  | .tsize  => .next (s.writeTsize v)
  | .geom   => .next s
  | .phase  => .next (s.setPhase v)
  | .shape  => .next (s.setShape v)
  | .cmd    => s.issue v
  | .result => .next s
  | .index  => .next s
  | .frac   => .next s
  | .blen   => .next (s.setBlen v)
  | .status => .next s
  | .finfo  => .next s

/-- A host write to a mapped slot. "While STATUS.FAULT = 1, every host write to any register or memory window is
ignored" (10_state.md R21); host writes to the OBUF window always are (R38). -/
def State.writeTarget (s : State) (t : Target) (v : Slot) : Result :=
  if s.fault then .next s
  else
    match t with
    | .reg r  => s.writeReg r v
    | .tmem i => .next (s.setTmem i v)
    | .pbuf i => .next (s.setPbuf i v)
    | .obuf _ => .next s

/-- The three cases in which an access is refused, else what it reaches (20_memory.md R58; log 7). -/
def checkAccess (c : Config) (a : Addr) (bits : Nat) : Except Fault Target :=
  if bits ≠ 64 then .error (.accessWidth bits)
  else if a.toNat % 8 ≠ 0 then .error (.misalignedAddress a)
  else
    match targetOf c a with
    | some t => .ok t
    | none   => .error (.unmappedAddress a)

/-- `HostWrite(addr, data64)` (20_memory.md R55). -/
def State.hostWrite (s : State) (a : Addr) (bits : Nat) (v : Slot) : Result :=
  match checkAccess s.cfg a bits with
  | .ok t    => s.writeTarget t v
  | .error f => .fault f

/-- `HostRead(addr) -> data64`; "Reading has no side effect" (20_memory.md R55, R57). -/
def State.hostRead (s : State) (a : Addr) (bits : Nat) : Result :=
  match checkAccess s.cfg a bits with
  | .ok t    => .next (s.answer (s.readTarget t))
  | .error f => .fault f

/-- One event at the port, performed whole (20_memory.md R55). -/
def State.perform (s : State) : PortEvent → Result
  | .hostWrite a bits v => s.hostWrite a bits v
  | .hostRead a bits    => s.hostRead a bits
  | .reset              => .next s.takeReset

/-- The write that issues a command word (30_encoding.md R70). -/
def commandWrite (w : CmdWord) : PortEvent := .hostWrite (Target.addr (.reg .cmd)) 64 w

/-- The block's next step: the oldest event at the port; with none, "Between accesses it is idle and its state is
retained" (60_exceptions.md R195; log 10). -/
def State.advance (s : State) : Result :=
  match s.port with
  | []        => .next s
  | e :: rest => (s.accept rest).perform e

end Sys2Proof.Machine
end

