-- ==== Sys2Proof/Machine/Step.lean ====
section
/-! DEFINITION. One step of the machine, and how an instruction word is put where the next step takes it from. -/
namespace Sys2Proof.Machine

/-- One host access, or one reset, or nothing where none waits (20_memory.md R55). -/
def step (s : State) : Host.Outcome State Fault Refusal := s.advance

/-- `s` with the CMD write of the word `w` (its low `nbits` bits) as the next access at the port: the block "fetches
no instructions", and a command "is the data of one CMD write" (20_memory.md R64; log 13). -/
def State.withFetchWord (s : State) (nbits w : Nat) : State :=
  { s with port := commandWrite (BitVec.ofNat 64 (w % 2 ^ nbits)) :: s.port }

end Sys2Proof.Machine
end

