-- ==== Sys2Proof/Machine/HostProgram.lean ====
section
/-! DEFINITION. The host program syntax of the spec (30_encoding.md R77, R78): lines WR and RD, the pseudo-instructions,
and the host accesses they stand for. -/
namespace Sys2Proof.Machine

/-- A decimal `(-1)^neg * digits / 10^scale`, as `f:<decimal>` writes it (30_encoding.md R77). -/
structure Decimal where
  neg    : Bool
  digits : Nat
  scale  : Nat
  deriving DecidableEq, Repr

/-- "the binary32 value x that the decimal denotes exactly" (30_encoding.md R77); none where it denotes none. -/
def Decimal.exact (d : Decimal) : Option F32 :=
  let units := d.digits * 2 ^ 149
  if units % 10 ^ d.scale = 0 ∧ representable (units / 10 ^ d.scale) then
    some (.fin d.neg (units / 10 ^ d.scale))
  else none

/-- A `<value>`: a 64-bit integer, or `f:<decimal>` (30_encoding.md R77). -/
inductive Value where
  | int (v : Slot)
  | dec (d : Decimal)
  deriving DecidableEq, Repr

/-- The slot a value denotes; `f:<decimal>` means `zext_64(bits(x))` (30_encoding.md R77). -/
def Value.slot : Value → Option Slot
  | .int v => some v
  | .dec d => d.exact.map (fun x => (x.bits 0#32).setWidth 64)

/-- A line of a host program: one host access (30_encoding.md R77). -/
inductive Line where
  | wr (t : Target) (v : Value)
  | rd (t : Target)
  deriving DecidableEq, Repr

/-- The access a line issues; none where its value denotes nothing (30_encoding.md R77). DESIGN CHOICE (log 21, unsafe): a
target whose index is past its window, for which 20_memory.md R56 gives no address, still issues an access, at the
address R56's formula gives modulo 2^32. -/
def Line.event : Line → Option PortEvent
  | .wr t v => v.slot.map (fun d => .hostWrite t.addr 64 d)
  | .rd t   => some (.hostRead t.addr 64)

/-- A source line: a plain line or a pseudo-instruction (30_encoding.md R78). -/
inductive SourceLine where
  | line  (l : Line)
  | cmd   (i : Instr)
  | wrf   (t : Target) (x : Decimal)
  | loadt (xs : List Decimal)
  | loadp (ps : List Slot)
  deriving DecidableEq, Repr

/-- `LOADT` from entry i on: "n lines `WR TMEM[i], f:<xi>`", in increasing i (30_encoding.md R78). -/
def expandLoadt (i : Nat) : List Decimal → List Line
  | []      => []
  | x :: xs => .wr (.tmem i) (.dec x) :: expandLoadt (i + 1) xs

/-- `LOADP` from entry i on: "n lines `WR PBUF[i], <pi>`", in increasing i (30_encoding.md R78). DESIGN CHOICE (log 22): an
element `<pi>` is a 64-bit integer only; R78 does not say whether it may be R77's `f:<decimal>`. -/
def expandLoadp (i : Nat) : List Slot → List Line
  | []      => []
  | p :: ps => .wr (.pbuf i) (.int p) :: expandLoadp (i + 1) ps

/-- The expansion of a source line (30_encoding.md R78). -/
def SourceLine.expand : SourceLine → List Line
  | .line l   => [l]
  | .cmd i    => [.wr (.reg .cmd) (.int (encode i))]
  | .wrf t x  => [.wr t (.dec x)]
  | .loadt xs => expandLoadt 0 xs
  | .loadp ps => expandLoadp 0 ps

/-- The port's events of a host program, in the order of its lines; none where some value denotes nothing. -/
def programEvents : List SourceLine → Option (List PortEvent)
  | [] => some []
  | l :: ls =>
    match l.expand.mapM Line.event, programEvents ls with
    | some es, some fs => some (es ++ fs)
    | _, _             => none

end Sys2Proof.Machine
end

