-- ==== Sys2Proof/Safety.lean ====
section
/-! DEFINITION. What claims about runs are stated in terms of: the invariant of the state, what the port may accept, and
a run that never stops. -/
namespace Sys2Proof.Machine

/-- What FINFO holds for each code (60_exceptions.md R180), as long as the fault is recorded: the operand it names can
no longer change, since every write is ignored (10_state.md R21). -/
def State.faultInfoRight (s : State) : Prop :=
  match s.fcode with
  | .none         => s.finfo = 0#64
  | .illegalCmd   => ∃ r, decode s.finfo = .error r
  | .precondTsize => legalSize s.cfg s.finfo = false
  | .precondBlen  => s.finfo = s.blen.setWidth 64 ∧ legalBatch s.cfg s.blen = false
  | .shapeRange   => s.finfo = s.shape.setWidth 64 ∧ legalSlope s.shapeF = false

/-- The invariant of the block. -/
structure State.Inv (s : State) : Prop where
  /-- The build parameters are legal (00_scope.md R5 to R7). -/
  cfgLegal    : s.cfg.wellFormed = true
  /-- "TSIZE can hold only 0 or a legal N" (41_table_sampler.md R111). -/
  tsizeLegal  : s.tsize = 0#64 ∨ legalSize s.cfg s.tsize = true
  /-- PHASE has W bits (10_state.md R26). -/
  phaseWidth  : s.phase.toNat < 2 ^ s.cfg.w
  /-- INDEX is a field of TMAX_LOG2 bits (10_state.md R30). -/
  indexWidth  : s.index.toNat < s.cfg.tmax
  /-- The memories keep the canonical form and their capacities (10_state.md R36 to R38). -/
  tmemForm    : Memory.wf s.tmem
  tmemWithin  : Memory.within s.tmem s.cfg.tmax
  pbufForm    : Memory.wf s.pbuf
  pbufWithin  : Memory.within s.pbuf s.cfg.bmax
  obufForm    : Memory.wf s.obuf
  obufWithin  : Memory.within s.obuf s.cfg.bmax
  /-- A PBUF entry has W bits (10_state.md R37). -/
  pbufWidth   : ∀ c ∈ s.pbuf, c.2.toNat < 2 ^ s.cfg.w
  /-- FCODE is 0 exactly while FAULT = 0 (10_state.md R33). -/
  faultCode   : s.fault = false ↔ s.fcode = .none
  /-- FINFO is what the recorded code says (10_state.md R34, 60_exceptions.md R180). -/
  faultInfo   : s.faultInfoRight

/-- FRAC's "value lies in [+0.0, 1.0]" (10_state.md R31). -/
def State.fracInUnit (s : State) : Prop := ∃ m, f32of s.frac = .fin false m ∧ m ≤ 2 ^ 149

/-- An address that holds a slot (20_memory.md R56), by the window bounds. -/
def mappedAddress (c : Config) (a : Nat) : Prop :=
  a ≤ 0x58 ∨ (0x01000000 ≤ a ∧ a < 0x01000000 + 8 * c.tmax) ∨
    (0x02000000 ≤ a ∧ a < 0x02000000 + 8 * c.bmax) ∨ (0x03000000 ≤ a ∧ a < 0x03000000 + 8 * c.bmax)

/-- An access the port does not refuse: 64 bits, 8-byte aligned, mapped (20_memory.md R54, R58); reset always is. -/
def acceptable (c : Config) : PortEvent → Prop
  | .hostWrite a bits _ => bits = 64 ∧ a.toNat % 8 = 0 ∧ mappedAddress c a.toNat
  | .hostRead a bits    => bits = 64 ∧ a.toNat % 8 = 0 ∧ mappedAddress c a.toNat
  | .reset              => True

/-- Every entry a command could read has been written since reset (70_reset_and_hazards.md R201). -/
def State.filled (s : State) : Prop :=
  (∀ i < s.cfg.tmax, Memory.read s.tmem i ≠ none) ∧ (∀ i < s.cfg.bmax, Memory.read s.pbuf i ≠ none)

/-- `x` is RN32 of the signed rational `n / d`, in units of 2^(-149) (00_scope.md R11): of all magnitudes that 24 bits hold,
whatever their exponent, the nearest, on a tie the one whose last kept place is even; 2^128 or more is infinity. -/
def roundsTo (neg : Bool) (n d : Nat) (x : F32) : Prop :=
  ∃ r : Nat, r % 2 ^ ulpExp r = 0 ∧
    (∀ m : Nat, m % 2 ^ ulpExp m = 0 →
      |(n : Int) - r * d| ≤ |(n : Int) - m * d| ∧
      (m ≠ r → |(n : Int) - r * d| = |(n : Int) - m * d| → r / 2 ^ ulpExp r % 2 = 0)) ∧
    x = if 2 ^ 277 ≤ r then .inf neg else .fin neg r

/-- The run from `s` never stops. -/
def State.runsForever (s : State) : Prop := ∀ k, ∃ t, Sys2Proof.core.run k s = .next t

/-- Two patterns that the spec does not tell apart: equal, or both a NaN (93_implementation_defined.md item 1: "A model must
not compare NaN results by bits"). -/
def sameSample (a b : Pattern) : Prop := a = b ∨ ((f32of a).isNaN = true ∧ (f32of b).isNaN = true)

end Sys2Proof.Machine
end

