-- ==== Sys2Proof/Certificates/Slice0/Obligations.lean ====
section
/-! DEFINITION. The statements about SYN-CORE for the provers, in the order of OBLIGATIONS.json. Each docstring names the
rules of spec/ it rests on. W is `c.w` or `s.cfg.w`; `2 ^ k` with `1 <= k <= TMAX_LOG2` is a legal table size. -/
open Sys2Proof Sys2Proof.Machine

/-! ## Command words -/

/-- R72: the ten command words. -/
def Obligations.TenCommandWordsDecode : Prop :=
  decode 0x0000000000000001#64 = .ok .split ∧ decode 0x0000000000000002#64 = .ok .near ∧
  decode 0x0000000000000003#64 = .ok .lin ∧ decode 0x0000000000000004#64 = .ok .herm ∧
  decode 0x0000000000000010#64 = .ok .saw ∧ decode 0x0000000000000011#64 = .ok .sawd ∧
  decode 0x0000000000000012#64 = .ok .pulse ∧ decode 0x0000000000000013#64 = .ok .tri ∧
  decode 0x0000000000000014#64 = .ok .tria ∧ decode 0x0000000000000020#64 = .ok .bherm

/-- R75, R72: the decoder reads a command from exactly the word the encoder gives it; so every 64-bit word is the word of exactly
one command, or illegal and the word of none. -/
def Obligations.DecodeIsInverseOfEncode : Prop :=
  (∀ (w : CmdWord) (i : Instr), decode w = .ok i ↔ encode i = w) ∧
  (∀ w : CmdWord,
    (∃ i, decode w = .ok i ∧ encode i = w ∧ ∀ j, encode j = w → j = i) ∨
    ((∃ r, decode w = .error r) ∧ ∀ j, encode j ≠ w))

/-- R74: an illegal word written to CMD raises ILLEGAL_CMD with the word in FINFO, and has no other effect. -/
def Obligations.IllegalWordFaults : Prop :=
  ∀ (s : State) (w : CmdWord) (rest : List PortEvent),
    s.port = .hostWrite 0x28#32 64 w :: rest → s.fault = false →
    (w.toNat / 2 ^ 8 ≠ 0 ∨ w.toNat = 0 ∨ (0x05 ≤ w.toNat ∧ w.toNat ≤ 0x0F) ∨
      (0x15 ≤ w.toNat ∧ w.toNat ≤ 0x1F) ∨ (0x21 ≤ w.toNat ∧ w.toNat ≤ 0xFF)) →
    step s = .next { s with port := rest, rdata := none,
                            fault := true, fcode := .illegalCmd, finfo := w }

/-- R59's little-endian lane numbering, which the spec marks as general knowledge (log 14, PRESUMED): lane j of a slot is
its j-th base-256 digit, the least first, and the eight lanes put together again are the slot. -/
def Obligations.ByteLanesCarryTheSlot : Prop :=
  (∀ (v : Slot) (j : Nat), j < 8 → (laneOf v j).toNat = v.toNat / 256 ^ j % 256) ∧
  (∀ v : Slot, slotOfLanes ((List.range 8).map (laneOf v)) = some v)

/-! ## One step -/

/-- R28, R55 (in the terms of the model's port, log 1): a CMD write of a command's word is one step, and that step is
the command, on the state with that access taken from the port. -/
def Obligations.StepRunsTheDecodedCommand : Prop :=
  ∀ (s : State) (w : CmdWord) (i : Instr) (rest : List PortEvent),
    s.port = .hostWrite 0x28#32 64 w :: rest → decode w = .ok i →
    step s = exec i { s with port := rest, rdata := none }

/-- R195 (log 10): with nothing at the port the block keeps its state. -/
def Obligations.IdleBlockKeepsItsState : Prop :=
  ∀ s : State, s.port = [] → step s = .next s

/-- R56: the address map, both ways. -/
def Obligations.AddressMapIsExact : Prop :=
  ∀ (c : Config) (a : Addr) (x : Target), c.wellFormed = true → a.toNat % 8 = 0 →
    (targetOf c a = some x ↔ x.addr = a ∧
      match x with
      | .reg _  => True
      | .tmem i => i < c.tmax
      | .pbuf i => i < c.bmax
      | .obuf i => i < c.bmax)

/-- R58: a step stops on an access exactly where the access is refused: not 64 bits, not 8-byte aligned, or unmapped. That
it stops by a named Fault is the model's choice, and that it does so in a faulted block too (where R21 and R184 step 1 say
that writes are ignored) its deduction (log 7). -/
def Obligations.RefusedAccessHasNoStep : Prop :=
  ∀ (s : State) (e : PortEvent) (rest : List PortEvent),
    s.cfg.wellFormed = true → s.port = e :: rest →
    ((∃ f, step s = .fault f) ↔ ¬ acceptable s.cfg e)

/-- R201: a step is refused only over an entry that is unwritten, and the reason names it; no command stops on a port
fault. -/
def Obligations.OnlyUnwrittenEntriesAreRefused : Prop :=
  (∀ (s : State) (r : Refusal), step s = .refused r →
    (∃ i, r = .unwrittenTmem i ∧ Memory.read s.tmem i = none) ∨
    (∃ i, r = .unwrittenPbuf i ∧ Memory.read s.pbuf i = none)) ∧
  (∀ (i : Instr) (s : State) (f : Fault), exec i s ≠ .fault f)

/-! ## Host accesses -/

/-- R23: CAP's fields, their constancy, and the reference value. -/
def Obligations.CapReportsTheConfiguration : Prop :=
  (∀ (s : State) (rest : List PortEvent), s.cfg.wellFormed = true → s.port = .hostRead 0x00#32 64 :: rest →
    ∃ v : Slot, step s = .next { s with port := rest, rdata := some v } ∧
      (v.extractLsb' 0 8).toNat = s.cfg.w ∧ (v.extractLsb' 8 8).toNat = s.cfg.tmaxLog2 ∧
      (v.extractLsb' 16 8).toNat = 8 ∧ (v.extractLsb' 24 8).toNat = 16 ∧
      (v.extractLsb' 32 32).toNat = s.cfg.bmax) ∧
  (∀ (s : State) (v : Slot) (rest : List PortEvent), s.port = .hostWrite 0x00#32 64 v :: rest →
    step s = .next { s with port := rest, rdata := none }) ∧
  (∀ s t : State, step s = .next t → t.cfg = s.cfg) ∧
  State.reset.readReg .cap = 0x0000040010081040#64

/-- R25: GEOM for a legal table size, and 0 while none is set. -/
def Obligations.GeomIsDerivedFromTsize : Prop :=
  ∀ (s : State) (rest : List PortEvent), s.cfg.wellFormed = true → s.port = .hostRead 0x10#32 64 :: rest →
    (s.tsize = 0#64 → step s = .next { s with port := rest, rdata := some 0#64 }) ∧
    (∀ k, 1 ≤ k → k ≤ s.cfg.tmaxLog2 → s.tsize.toNat = 2 ^ k →
      step s = .next { s with port := rest, rdata := some (BitVec.ofNat 64 (k + (s.cfg.w - k) * 2 ^ 8)) })

/-- R20, R24, R26 to R34: what a read of each register but CAP and GEOM returns; STATUS shows FAULT in bit 0, FCODE in bits 15
to 8, and 0 in every other bit. -/
def Obligations.RegistersReadZeroExtended : Prop :=
  ∀ (s : State) (rest : List PortEvent) (a : Addr) (n : Nat), s.port = .hostRead a 64 :: rest →
    (a, n) ∈ [(0x08#32, s.tsize.toNat), (0x18#32, s.phase.toNat), (0x20#32, s.shape.toNat), (0x28#32, 0),
      (0x30#32, s.result.toNat), (0x38#32, s.index.toNat), (0x40#32, s.frac.toNat), (0x48#32, s.blen.toNat),
      (0x50#32, (if s.fault then 1 else 0) +
        2 ^ 8 * (match s.fcode with
          | .none => 0 | .illegalCmd => 1 | .precondTsize => 2 | .precondBlen => 3 | .shapeRange => 4)),
      (0x58#32, s.finfo.toNat)] →
    ∃ v : Slot, step s = .next { s with port := rest, rdata := some v } ∧ v.toNat = n

/-- R57: "Reading has no side effect", and a second read of the slot returns the same value. -/
def Obligations.ReadsChangeNothingAndRepeat : Prop :=
  ∀ (s t : State) (a : Addr) (bits : Nat) (rest : List PortEvent),
    s.port = .hostRead a bits :: .hostRead a bits :: rest → step s = .next t →
    t = { s with port := .hostRead a bits :: rest, rdata := t.rdata } ∧ t.rdata ≠ none ∧
      step t = .next { t with port := rest }

/-- R37, R38, R52, R57, R61: a TMEM or PBUF entry the host writes is read back by the next access, at 32 or W bits,
zero-extended, and no other entry and no register has changed; a written OBUF entry is read as its 32 bits,
zero-extended, and the read changes nothing. -/
def Obligations.MemoryWritesAreReadBack : Prop :=
  ∀ (s : State) (i : Nat) (v : Slot) (rest : List PortEvent), s.cfg.wellFormed = true → s.fault = false →
    (i < s.cfg.tmax →
      s.port = .hostWrite (BitVec.ofNat 32 (0x01000000 + 8 * i)) 64 v ::
        .hostRead (BitVec.ofNat 32 (0x01000000 + 8 * i)) 64 :: rest →
      ∃ t u : State, step s = .next t ∧ step t = .next u ∧
        u.rdata = some (BitVec.ofNat 64 (v.toNat % 2 ^ 32)) ∧
        (∀ j, j ≠ i → Memory.read t.tmem j = Memory.read s.tmem j) ∧
        t = { s with port := t.port, rdata := none, tmem := t.tmem } ∧
        u = { t with port := rest, rdata := u.rdata }) ∧
    (i < s.cfg.bmax →
      s.port = .hostWrite (BitVec.ofNat 32 (0x02000000 + 8 * i)) 64 v ::
        .hostRead (BitVec.ofNat 32 (0x02000000 + 8 * i)) 64 :: rest →
      ∃ t u : State, step s = .next t ∧ step t = .next u ∧
        u.rdata = some (BitVec.ofNat 64 (v.toNat % 2 ^ s.cfg.w)) ∧
        (∀ j, j ≠ i → Memory.read t.pbuf j = Memory.read s.pbuf j) ∧
        t = { s with port := t.port, rdata := none, pbuf := t.pbuf } ∧
        u = { t with port := rest, rdata := u.rdata }) ∧
    (∀ x : Pattern, i < s.cfg.bmax → Memory.read s.obuf i = some x →
      s.port = .hostRead (BitVec.ofNat 32 (0x03000000 + 8 * i)) 64 :: rest →
      step s = .next { s with port := rest, rdata := some (BitVec.ofNat 64 x.toNat) })

/-- R20, R38: a host write to a read-only register or to the OBUF window changes nothing. -/
def Obligations.ReadOnlySlotsIgnoreWrites : Prop :=
  ∀ (s : State) (a : Addr) (v : Slot) (rest : List PortEvent), s.cfg.wellFormed = true →
    (a ∈ [0x00#32, 0x10#32, 0x30#32, 0x38#32, 0x40#32, 0x50#32, 0x58#32] ∨
      ∃ i < s.cfg.bmax, a = BitVec.ofNat 32 (0x03000000 + 8 * i)) →
    s.port = .hostWrite a 64 v :: rest →
    step s = .next { s with port := rest, rdata := none }

/-- R26, R27, R32: a write to PHASE keeps W bits, to SHAPE and to BLEN 32, with no check. -/
def Obligations.OperandRegistersStoreTheirBits : Prop :=
  ∀ (s : State) (v : Slot) (rest : List PortEvent), s.fault = false →
    (s.port = .hostWrite 0x18#32 64 v :: rest →
      step s = .next { s with port := rest, rdata := none, phase := BitVec.ofNat 64 (v.toNat % 2 ^ s.cfg.w) }) ∧
    (s.port = .hostWrite 0x20#32 64 v :: rest →
      step s = .next { s with port := rest, rdata := none, shape := BitVec.ofNat 32 v.toNat }) ∧
    (s.port = .hostWrite 0x48#32 64 v :: rest →
      step s = .next { s with port := rest, rdata := none, blen := BitVec.ofNat 32 v.toNat })

/-- R24's pseudocode: a TSIZE write of an unfaulted block stores a power of two between 2 and TMAX, and raises
PRECOND_TSIZE on any other value. -/
def Obligations.TsizeWriteIsValidated : Prop :=
  ∀ (s : State) (v : Slot) (rest : List PortEvent), s.cfg.wellFormed = true → s.fault = false →
    s.port = .hostWrite 0x08#32 64 v :: rest →
    ((∃ k, 1 ≤ k ∧ k ≤ s.cfg.tmaxLog2 ∧ v.toNat = 2 ^ k) →
      step s = .next { s with port := rest, rdata := none, tsize := v }) ∧
    ((¬ ∃ k, 1 ≤ k ∧ k ≤ s.cfg.tmaxLog2 ∧ v.toNat = 2 ^ k) →
      step s = .next { s with port := rest, rdata := none,
                              fault := true, fcode := .precondTsize, finfo := v })

/-! ## Faults and reset -/

/-- R21: while FAULT = 1 every accepted host write is ignored, and every accepted read returns the current state. -/
def Obligations.FaultedBlockIgnoresWrites : Prop :=
  ∀ (s : State) (a : Addr) (rest : List PortEvent), s.cfg.wellFormed = true → s.fault = true →
    a.toNat % 8 = 0 → mappedAddress s.cfg a.toNat →
    (∀ v, s.port = .hostWrite a 64 v :: rest → step s = .next { s with port := rest, rdata := none }) ∧
    (s.port = .hostRead a 64 :: rest → ∃ x, targetOf s.cfg a = some x ∧
      step s = .next { s with port := rest, rdata := some (s.readTarget x) })

/-- R183: a step that raises a fault changes FAULT, FCODE and FINFO, and nothing else of the block. -/
def Obligations.FaultEntryWritesThreeFields : Prop :=
  ∀ (s t : State) (e : PortEvent) (rest : List PortEvent),
    s.port = e :: rest → s.fault = false → step s = .next t → t.fault = true →
    t = { s with port := rest, rdata := none, fault := true, fcode := t.fcode, finfo := t.finfo } ∧
      t.fcode ≠ .none

/-- R186: a faulted block changes in nothing but what the port shows, until it is reset; only reset clears FAULT. The port
is the model's own (logs 1 and 2), and so is the last clause, of exec called on a faulted block (log 11). -/
def Obligations.FaultEndsOnlyByReset : Prop :=
  (∀ (s t : State) (e : PortEvent) (rest : List PortEvent),
    s.port = e :: rest → s.fault = true → e ≠ .reset → step s = .next t →
    t = { s with port := rest, rdata := t.rdata }) ∧
  (∀ s t : State, s.fault = true → step s = .next t → t.fault = false → ∃ rest, s.port = .reset :: rest) ∧
  (∀ (i : Instr) (s : State), s.fault = true → exec i s = .next s)

/-- R186, R55: a faulted block never stops on accepted accesses, and a whole run without reset leaves every register
and memory as it was. -/
def Obligations.FaultedRunLeavesTheBlockAlone : Prop :=
  ∀ s : State, s.cfg.wellFormed = true → s.fault = true →
    (∀ e ∈ s.port, e ≠ .reset ∧ acceptable s.cfg e) →
    ∀ k, ∃ t, Sys2Proof.core.run k s = .next t ∧ t = { s with port := s.port.drop k, rdata := t.rdata }

/-- R200: what each register reads after a reset, and that reset alone clears a fault. -/
def Obligations.ResetRestoresEveryRegister : Prop :=
  (∀ (s : State) (rest : List PortEvent), s.port = .reset :: rest →
    ∃ t, step s = .next t ∧
      t.readReg .cap = s.readReg .cap ∧ t.readReg .tsize = 0#64 ∧ t.readReg .geom = 0#64 ∧
      t.readReg .phase = 0#64 ∧ t.readReg .shape = 0x3F000000#64 ∧ t.readReg .cmd = 0#64 ∧
      t.readReg .result = 0#64 ∧ t.readReg .index = 0#64 ∧ t.readReg .frac = 0#64 ∧
      t.readReg .blen = 0#64 ∧ t.readReg .status = 0#64 ∧ t.readReg .finfo = 0#64) ∧
  (∀ s t : State, s.fault = true → step s = .next t → t.fault = false → ∃ rest, s.port = .reset :: rest)

/-- R201: after a reset no entry of a memory is written, so no command can read one. -/
def Obligations.ResetUnwritesTheMemories : Prop :=
  ∀ (s t : State) (rest : List PortEvent), s.port = .reset :: rest → step s = .next t →
    ∀ i, Memory.read t.tmem i = none ∧ Memory.read t.pbuf i = none ∧ Memory.read t.obuf i = none

/-- R111, R161, R184: a table command while TSIZE = 0 raises PRECOND_TSIZE with FINFO = 0, whatever BLEN is; BHERM with a table set
and a BLEN that is not a multiple of 16, or above BMAX, raises PRECOND_BLEN with FINFO = BLEN. -/
def Obligations.TableThenBatchLengthAreChecked : Prop :=
  (∀ (s : State) (i : Instr), i ∈ [Instr.split, .near, .lin, .herm, .bherm] →
    s.fault = false → s.tsize = 0#64 →
    exec i s = .next { s with fault := true, fcode := .precondTsize, finfo := 0#64 }) ∧
  (∀ s : State, s.fault = false → s.tsize ≠ 0#64 → (s.blen.toNat % 16 ≠ 0 ∨ s.cfg.bmax < s.blen.toNat) →
    exec .bherm s = .next { s with fault := true, fcode := .precondBlen, finfo := BitVec.ofNat 64 s.blen.toNat })

/-- R135, R141: PULSE faults on every pattern but those of [+0.0, 1.0] and -0.0, TRIA on every pattern but those strictly between
+0.0 and 1.0; FINFO holds the pattern. -/
def Obligations.IllegalShapesFault : Prop :=
  ∀ s : State, s.fault = false →
    (¬ (s.shape.toNat ≤ 0x3F800000 ∨ s.shape.toNat = 0x80000000) → exec .pulse s =
      .next { s with fault := true, fcode := .shapeRange, finfo := BitVec.ofNat 64 s.shape.toNat }) ∧
    (¬ (0 < s.shape.toNat ∧ s.shape.toNat < 0x3F800000) → exec .tria s =
      .next { s with fault := true, fcode := .shapeRange, finfo := BitVec.ofNat 64 s.shape.toNat })

/-! ## Invariants -/

/-- The invariant at the reset state. -/
def Obligations.InvHoldsAtReset : Prop := State.reset.Inv ∧ State.reset.fracInUnit

/-- R24, R26, R30, R33, R34, R36 to R38, R180: every step keeps the invariant. -/
def Obligations.EveryStepKeepsInv : Prop :=
  ∀ s t : State, s.Inv → step s = .next t → t.Inv

/-- R31: every step keeps FRAC in [+0.0, 1.0]. -/
def Obligations.EveryStepKeepsFracInUnit : Prop :=
  ∀ s t : State, s.Inv → s.fracInUnit → step s = .next t → t.fracInUnit

/-- R55, R58, R196, R201: with every entry written, a host whose accesses are all accepted and that takes no reset is never
stopped, whatever it writes and whatever it commands. -/
def Obligations.FilledBlockNeverStops : Prop :=
  ∀ s : State, s.Inv → s.filled → (∀ e ∈ s.port, e ≠ .reset ∧ acceptable s.cfg e) → s.runsForever

/-! ## The commands -/

/-- R73, R51: what no command changes, and what only its own row lets a command change. -/
def Obligations.CommandsWriteOnlyTheirRow : Prop :=
  ∀ (i : Instr) (s t : State), exec i s = .next t →
    (t.cfg = s.cfg ∧ t.tsize = s.tsize ∧ t.phase = s.phase ∧ t.shape = s.shape ∧ t.blen = s.blen ∧
      t.tmem = s.tmem ∧ t.pbuf = s.pbuf ∧ t.port = s.port ∧ t.rdata = s.rdata ∧ t.epoch = s.epoch) ∧
    (i ≠ .split → t.index = s.index ∧ t.frac = s.frac) ∧
    ((i = .split ∨ i = .bherm) → t.result = s.result) ∧
    (i ≠ .bherm → t.obuf = s.obuf) ∧
    (i = .bherm → ∀ j, s.blen.toNat ≤ j → Memory.read t.obuf j = Memory.read s.obuf j) ∧
    (t.fault = s.fault → t.fcode = s.fcode ∧ t.finfo = s.finfo)

/-- R102 to R104: SPLIT of a legal table size: INDEX is the phase's upper part, FRAC its lower part as the fraction of
R103, and nothing else changes. -/
def Obligations.SplitGivesIndexAndFraction : Prop :=
  ∀ (s : State) (k : Nat), s.cfg.wellFormed = true → s.fault = false →
    1 ≤ k → k ≤ s.cfg.tmaxLog2 → s.tsize.toNat = 2 ^ k →
    ∃ t, exec .split s = .next t ∧ t = { s with index := t.index, frac := t.frac, draws := s.draws + 1 } ∧
      t.index.toNat = s.phase.toNat % 2 ^ s.cfg.w / 2 ^ (s.cfg.w - k) ∧
      f32of t.frac = fmul (cvt (s.phase.toNat % 2 ^ (s.cfg.w - k)))
        (fdiv one (cvt (2 ^ (s.cfg.w - k) - 1)))

/-- R112: NEAR copies the entry at the phase's index, bit for bit. -/
def Obligations.NearCopiesTheEntry : Prop :=
  ∀ (s : State) (k : Nat) (v : Pattern), s.cfg.wellFormed = true → s.fault = false →
    1 ≤ k → k ≤ s.cfg.tmaxLog2 → s.tsize.toNat = 2 ^ k →
    Memory.read s.tmem (s.phase.toNat % 2 ^ s.cfg.w / 2 ^ (s.cfg.w - k)) = some v →
    exec .near s = .next { s with result := v, draws := s.draws + 1 }

/-- R110, R114: LIN interpolates between the entry and its successor around the table. -/
def Obligations.LinInterpolatesTwoEntries : Prop :=
  ∀ (s : State) (k : Nat) (v0 v1 : Pattern), s.cfg.wellFormed = true → s.fault = false →
    1 ≤ k → k ≤ s.cfg.tmaxLog2 → s.tsize.toNat = 2 ^ k →
    let i := s.phase.toNat % 2 ^ s.cfg.w / 2 ^ (s.cfg.w - k)
    let f := fmul (cvt (s.phase.toNat % 2 ^ (s.cfg.w - k))) (fdiv one (cvt (2 ^ (s.cfg.w - k) - 1)))
    Memory.read s.tmem i = some v0 → Memory.read s.tmem ((i + 1) % 2 ^ k) = some v1 →
    exec .lin s = .next { s with
      result := (fadd (f32of v0) (fmul (fsub (f32of v1) (f32of v0)) f)).bits (Config.freeNaN s.draws 0)
      draws  := s.draws + 1 }

/-- R110, R116, R117: HERM evaluates `((a*f + b)*f + c)*f + x0` on the four entries around the table. -/
def Obligations.HermInterpolatesFourEntries : Prop :=
  ∀ (s : State) (k : Nat) (vm v0 v1 v2 : Pattern), s.cfg.wellFormed = true → s.fault = false →
    1 ≤ k → k ≤ s.cfg.tmaxLog2 → s.tsize.toNat = 2 ^ k →
    let i := s.phase.toNat % 2 ^ s.cfg.w / 2 ^ (s.cfg.w - k)
    let f := fmul (cvt (s.phase.toNat % 2 ^ (s.cfg.w - k))) (fdiv one (cvt (2 ^ (s.cfg.w - k) - 1)))
    Memory.read s.tmem ((i + 2 ^ k - 1) % 2 ^ k) = some vm → Memory.read s.tmem i = some v0 →
    Memory.read s.tmem ((i + 1) % 2 ^ k) = some v1 → Memory.read s.tmem ((i + 2) % 2 ^ k) = some v2 →
    ∀ c v w a : F32,
      c = fdiv (fsub (f32of v1) (f32of vm)) two → v = fsub (f32of v0) (f32of v1) → w = fadd c v →
      a = fadd (fadd w v) (fdiv (fsub (f32of v2) (f32of v0)) two) →
      exec .herm s = .next { s with
        result := (fadd (fmul (fadd (fmul (fsub (fmul a f) (fadd w a)) f) c) f) (f32of v0)).bits
          (Config.freeNaN s.draws 0)
        draws  := s.draws + 1 }

/-- R201: NEAR, LIN and HERM with a legal table are refused exactly where an entry they read is unwritten; BHERM with a
legal table and a legal batch exactly where a PBUF entry below BLEN, or one of the four table entries that a written
one needs, is unwritten. -/
def Obligations.SamplersRefuseUnwrittenEntries : Prop :=
  ∀ (s : State) (k : Nat), s.cfg.wellFormed = true → s.fault = false →
    1 ≤ k → k ≤ s.cfg.tmaxLog2 → s.tsize.toNat = 2 ^ k →
    let i := s.phase.toNat % 2 ^ s.cfg.w / 2 ^ (s.cfg.w - k)
    let gone := fun j => Memory.read s.tmem (j % 2 ^ k) = none
    ((∃ r, exec .near s = .refused r) ↔ gone i) ∧
    ((∃ r, exec .lin s = .refused r) ↔ gone i ∨ gone (i + 1)) ∧
    ((∃ r, exec .herm s = .refused r) ↔ gone (i + 2 ^ k - 1) ∨ gone i ∨ gone (i + 1) ∨ gone (i + 2)) ∧
    (s.blen.toNat % 16 = 0 → s.blen.toNat ≤ s.cfg.bmax →
      ((∃ r, exec .bherm s = .refused r) ↔
        ∃ e < s.blen.toNat, Memory.read s.pbuf e = none ∨
          ∃ q, Memory.read s.pbuf e = some q ∧
            let j := q.toNat % 2 ^ s.cfg.w / 2 ^ (s.cfg.w - k)
            gone (j + 2 ^ k - 1) ∨ gone j ∨ gone (j + 1) ∨ gone (j + 2)))

/-- R130, R131, R133: SAW and SAWD, in R130's shorter form `y = fmul(cvt(p), P2(1-W))`. -/
def Obligations.SawAndSawdResults : Prop :=
  ∀ s : State, s.fault = false →
    let y := fmul (cvt (s.phase.toNat % 2 ^ s.cfg.w)) (p2 (1 - (s.cfg.w : Int)))
    exec .saw s = .next { s with
      result := (fsub y one).bits (Config.freeNaN s.draws 0), draws := s.draws + 1 } ∧
    exec .sawd s = .next { s with
      result := (fsub one y).bits (Config.freeNaN s.draws 0), draws := s.draws + 1 }

/-- R138: TRI is the sawtooth of the phase folded at the midpoint and doubled. -/
def Obligations.TriFoldsThePhase : Prop :=
  ∀ s : State, s.fault = false →
    let p := s.phase.toNat % 2 ^ s.cfg.w
    let u := if p < 2 ^ (s.cfg.w - 1) then 2 * p else 2 * (2 ^ s.cfg.w - 1 - p)
    exec .tri s = .next { s with
      result := (fsub (fmul (cvt u) (p2 (1 - (s.cfg.w : Int)))) one).bits (Config.freeNaN s.draws 0)
      draws  := s.draws + 1 }

/-- R136: PULSE gives -1.0 exactly while PHASE / 2^W < w, else +1.0; w in units of 2^(-149) is `(f32of SHAPE).mag`. -/
def Obligations.PulseComparesExactly : Prop :=
  ∀ s : State, s.fault = false → (s.shape.toNat ≤ 0x3F800000 ∨ s.shape.toNat = 0x80000000) →
    exec .pulse s = .next { s with
      result := if s.phase.toNat % 2 ^ s.cfg.w * 2 ^ 149 < (f32of s.shape).mag * 2 ^ s.cfg.w
        then 0xBF800000#32 else 0x3F800000#32
      draws  := s.draws + 1 }

/-- R140, R142, R143: TRIA gives the rising ramp exactly while PHASE / 2^W <= s, else the falling one. -/
def Obligations.TriaSelectsItsRamp : Prop :=
  ∀ s : State, s.fault = false → 0 < s.shape.toNat → s.shape.toNat < 0x3F800000 →
    let p := s.phase.toNat % 2 ^ s.cfg.w
    let x := fmul (cvt p) (p2 (-(s.cfg.w : Int)))
    let slope := f32of s.shape
    let rise := fsub (fmul x (fdiv two slope)) one
    let fall := fsub one (fmul (fsub x slope) (fdiv two (fsub one slope)))
    exec .tria s = .next { s with
      result := (if p * 2 ^ 149 ≤ slope.mag * 2 ^ s.cfg.w then rise else fall).bits (Config.freeNaN s.draws 0)
      draws  := s.draws + 1 }

/-- R161 to R163: BHERM of a legal batch completes when each phase and its four neighbours (offsets -1 to +2, here
`d - 1`) are written; it writes OBUF[0..BLEN-1], each entry from its own phase by the element rule, and nothing else. -/
def Obligations.BatchWritesEveryElement : Prop :=
  ∀ (s : State) (k : Nat), s.cfg.wellFormed = true → s.fault = false →
    1 ≤ k → k ≤ s.cfg.tmaxLog2 → s.tsize.toNat = 2 ^ k →
    s.blen.toNat % 16 = 0 → s.blen.toNat ≤ s.cfg.bmax →
    (∀ i < s.blen.toNat, ∃ q, Memory.read s.pbuf i = some q ∧ ∀ d < 4,
      Memory.read s.tmem ((q.toNat % 2 ^ s.cfg.w / 2 ^ (s.cfg.w - k) + 2 ^ k + d - 1) % 2 ^ k) ≠ none) →
    ∃ t, exec .bherm s = .next t ∧
      t = { s with obuf := t.obuf, draws := s.draws + 1 } ∧
      (∀ i, s.blen.toNat ≤ i → Memory.read t.obuf i = Memory.read s.obuf i) ∧
      (∀ i < s.blen.toNat, ∀ q vm v0 v1 v2, Memory.read s.pbuf i = some q →
        let p := q.toNat % 2 ^ s.cfg.w
        let j := p / 2 ^ (s.cfg.w - k)
        Memory.read s.tmem ((j + 2 ^ k - 1) % 2 ^ k) = some vm → Memory.read s.tmem j = some v0 →
        Memory.read s.tmem ((j + 1) % 2 ^ k) = some v1 → Memory.read s.tmem ((j + 2) % 2 ^ k) = some v2 →
        Memory.read t.obuf i = some ((herm4 (f32of vm) (f32of v0) (f32of v1) (f32of v2)
          (fmul (cvt (p % 2 ^ (s.cfg.w - k))) (fdiv one (cvt (2 ^ (s.cfg.w - k) - 1))))).bits
            (Config.freeNaN s.draws i)))

/-- R164: every entry a batch writes is the RESULT that HERM writes for the same phase, table and size, up to a NaN's
payload. -/
def Obligations.BatchEqualsScalarHerm : Prop :=
  ∀ (s t : State) (i : Nat) (q : BitVec 64), s.fault = false → exec .bherm s = .next t → t.fault = false →
    i < s.blen.toNat → Memory.read s.pbuf i = some q →
    ∃ u v, exec .herm { s with phase := q } = .next u ∧ u.fault = false ∧
      Memory.read t.obuf i = some v ∧ sameSample v u.result

/-- R167: equal phases give equal outputs (up to a NaN's payload), and every element below BLEN is written. -/
def Obligations.EqualPhasesGiveEqualOutputs : Prop :=
  ∀ (s t : State) (i j : Nat), s.fault = false → exec .bherm s = .next t → t.fault = false →
    i < s.blen.toNat → j < s.blen.toNat → Memory.read s.pbuf i = Memory.read s.pbuf j →
    ∃ a b, Memory.read t.obuf i = some a ∧ Memory.read t.obuf j = some b ∧ sameSample a b

/-- R113, R120: NEAR, LIN and HERM depend on TSIZE, PHASE and the table entries alone: two blocks that agree on those
give the same sample, whatever else they hold: the same bits for NEAR, and up to a NaN's payload for LIN and HERM. -/
def Obligations.SamplersArePure : Prop :=
  ∀ (i : Instr) (s t s' : State), i ∈ [Instr.near, .lin, .herm] →
    s.fault = false → t.fault = false → s.tsize ≠ 0#64 →
    t.cfg = s.cfg → t.tsize = s.tsize → t.phase = s.phase →
    (∀ j < s.tsize.toNat, Memory.read t.tmem j = Memory.read s.tmem j) →
    legalSize s.cfg s.tsize = true → s.cfg.wellFormed = true → exec i s = .next s' →
    ∃ t', exec i t = .next t' ∧ sameSample s'.result t'.result ∧ (i = .near → t'.result = s'.result)

/-- R144: the tableless commands depend on PHASE and SHAPE alone: no table, and no TSIZE. -/
def Obligations.TablelessCommandsArePure : Prop :=
  ∀ (i : Instr) (s t s' : State), i ∈ [Instr.saw, .sawd, .pulse, .tri, .tria] →
    s.fault = false → t.fault = false →
    t.cfg = s.cfg → t.phase = s.phase → t.shape = s.shape → exec i s = .next s' →
    ∃ t', exec i t = .next t' ∧ t'.fault = s'.fault ∧
      (s'.fault = false → sameSample s'.result t'.result)

/-! ## Binary32 and the kernels -/

/-- R11: rounding gives the nearest of all magnitudes that 24 bits hold, and on a tie the one whose last place is even. -/
def Obligations.RoundingIsNearestEven : Prop :=
  ∀ n d : Nat, 0 < d →
    roundMag n d % 2 ^ ulpExp (roundMag n d) = 0 ∧
    (∀ m : Nat, m % 2 ^ ulpExp m = 0 →
      |(n : Int) - roundMag n d * d| ≤ |(n : Int) - m * d| ∧
      (m ≠ roundMag n d → |(n : Int) - roundMag n d * d| = |(n : Int) - m * d| →
        roundMag n d / 2 ^ ulpExp (roundMag n d) % 2 = 0))

/-- R11: the sum of two finite values is their exact sum rounded once; an exact zero sum is +0 unless both are negative. -/
def Obligations.AdditionRoundsTheExactSum : Prop :=
  ∀ (a b : Bool) (m n : Nat),
    let sum : Int := (if a then -(m : Int) else m) + (if b then -(n : Int) else n)
    (sum ≠ 0 → fadd (.fin a m) (.fin b n) = roundF32 (decide (sum < 0)) sum.natAbs 1) ∧
    (sum = 0 → fadd (.fin a m) (.fin b n) = .fin (a && b) 0)

/-- R11: patterns and values correspond: every non-NaN pattern is the pattern of its value, every value in the format is
the value of its pattern, and the NaN patterns are exactly those some payload gives (93_implementation_defined.md item 1). -/
def Obligations.PatternsAndValuesCorrespond : Prop :=
  (∀ (b : Pattern) (payload : BitVec 32), (f32of b).isNaN = false → (f32of b).bits payload = b) ∧
  (∀ (x : F32) (payload : BitVec 32), x.valid = true → f32of (x.bits payload) = x) ∧
  (∀ b : Pattern, f32of b = .nan ↔ ∃ payload, nanPattern payload = b)

/-- R110: neighbour addresses wrap around the table and stay below N. -/
def Obligations.NeighboursWrapAroundTheTable : Prop :=
  ∀ (c : Config) (k : Nat) (n : Slot) (i : BitVec c.w), c.wellFormed = true →
    1 ≤ k → k ≤ c.tmaxLog2 → n.toNat = 2 ^ k →
    nbIndex n i (-1) = (i.toNat + 2 ^ k - 1) % 2 ^ k ∧ nbIndex n i 0 = i.toNat % 2 ^ k ∧
    nbIndex n i 1 = (i.toNat + 1) % 2 ^ k ∧ nbIndex n i 2 = (i.toNat + 2) % 2 ^ k

/-- R105: the index of a legal table size is below N, 0 at phase 0 and N-1 at maxPhase. -/
def Obligations.IndexStaysInTheTable : Prop :=
  ∀ (c : Config) (k : Nat) (n : Slot) (p : BitVec c.w), c.wellFormed = true →
    1 ≤ k → k ≤ c.tmaxLog2 → n.toNat = 2 ^ k →
    (phaseIndex n p).toNat ≤ 2 ^ k - 1 ∧ (p.toNat = 0 → (phaseIndex n p).toNat = 0) ∧
    (p.toNat = 2 ^ c.w - 1 → (phaseIndex n p).toNat = 2 ^ k - 1)

/-- R106: the fraction lies in [+0.0, 1.0], is +0.0 exactly at m = 0, 1.0 at m = mask, and does not decrease with m. -/
def Obligations.FractionStaysInUnit : Prop :=
  ∀ (c : Config) (k : Nat) (n : Slot), c.wellFormed = true →
    1 ≤ k → k ≤ c.tmaxLog2 → n.toNat = 2 ^ k →
    (∀ p : BitVec c.w, ∃ x, phaseFraction n p = .fin false x ∧ x ≤ 2 ^ 149 ∧
      (x = 0 ↔ p.toNat % 2 ^ (c.w - k) = 0) ∧
      (p.toNat % 2 ^ (c.w - k) = 2 ^ (c.w - k) - 1 → x = 2 ^ 149)) ∧
    (∀ p q : BitVec c.w, p.toNat % 2 ^ (c.w - k) ≤ q.toNat % 2 ^ (c.w - k) →
      (phaseFraction n p).mag ≤ (phaseFraction n q).mag)

/-- R132: saw does not decrease, from -1.0 at phase 0 to 1.0 at maxPhase; it is not strictly increasing. -/
def Obligations.SawDoesNotDecrease : Prop :=
  ∀ (c : Config) (p q : BitVec c.w),
    (p.toNat ≤ q.toNat → ∃ x y, (saw p).units = some x ∧ (saw q).units = some y ∧ x ≤ y) ∧
    (p.toNat = 0 → saw p = fneg one) ∧ (p.toNat = 2 ^ c.w - 1 → saw p = one) ∧
    (p.toNat = 0 → q.toNat = 1 → saw p = saw q)

/-- R134: saw and sawd cancel to +0.0 exactly, for every phase. -/
def Obligations.SawPairCancels : Prop :=
  ∀ (c : Config) (p : BitVec c.w), fadd (saw p) (sawd p) = .fin false 0

/-- R137: with width 0.5, PULSE is -1.0 below the midpoint and +1.0 from it on. -/
def Obligations.PulseMidpoint : Prop :=
  ∀ s : State, s.fault = false → s.shape = 0x3F000000#32 →
    (s.phase.toNat % 2 ^ s.cfg.w ≤ 2 ^ (s.cfg.w - 1) - 1 →
      ∃ t, exec .pulse s = .next t ∧ t.result = 0xBF800000#32) ∧
    (2 ^ (s.cfg.w - 1) ≤ s.phase.toNat % 2 ^ s.cfg.w →
      ∃ t, exec .pulse s = .next t ∧ t.result = 0x3F800000#32)

/-- R139: the triangle is symmetric bit for bit, rises to the midpoint and falls from it, and is -1.0 at both ends. -/
def Obligations.TriangleIsSymmetric : Prop :=
  ∀ (c : Config) (p q : BitVec c.w),
    (p.toNat + q.toNat = 2 ^ c.w - 1 → tri p = tri q) ∧
    (p.toNat ≤ q.toNat → q.toNat ≤ 2 ^ (c.w - 1) - 1 →
      ∃ x y, (tri p).units = some x ∧ (tri q).units = some y ∧ x ≤ y) ∧
    (2 ^ (c.w - 1) ≤ p.toNat → p.toNat ≤ q.toNat →
      ∃ x y, (tri p).units = some x ∧ (tri q).units = some y ∧ y ≤ x) ∧
    (p.toNat = 0 ∨ p.toNat = 2 ^ c.w - 1 → tri p = fneg one)

/-- R115 read literally, with finite entries as its only hypothesis. EXPECTED TO FAIL: the difference x1 - x0 of two finite
entries can overflow to infinity (R11), and then `inf * 0` is NaN (R114's own corner case); log 20. -/
def Obligations.LinMeetsNearForAllFiniteEntries : Prop :=
  ∀ v0 v1 : Pattern, (f32of v0).isFinite = true → (f32of v1).isFinite = true →
    (lerp (f32of v0) (f32of v1) (.fin false 0)).units = (f32of v0).units ∧
    (v0 ≠ 0x80000000#32 → (lerp (f32of v0) (f32of v1) (.fin false 0)).bits 0#32 = v0)

/-- R115 with the difference finite, as its derivation asks (log 20): at a sample boundary LIN of finite entries is NEAR's value, and its bits unless x0 is -0.0. -/
def Obligations.LinMeetsNearAtBoundaries : Prop :=
  ∀ (v0 v1 : Pattern) (payload : BitVec 32), (f32of v0).isFinite = true → (f32of v1).isFinite = true →
    (fsub (f32of v1) (f32of v0)).isFinite = true →
    (lerp (f32of v0) (f32of v1) (.fin false 0)).units = (f32of v0).units ∧
    (v0 ≠ 0x80000000#32 → (lerp (f32of v0) (f32of v1) (.fin false 0)).bits payload = v0)

/-- R118: at a sample boundary HERM with finite a, b, c and x0 is NEAR's value, and its bits unless x0 is -0.0. -/
def Obligations.HermMeetsNearAtBoundaries : Prop :=
  ∀ (vm v0 v1 v2 : Pattern) (payload : BitVec 32) (c w a : F32),
    c = fdiv (fsub (f32of v1) (f32of vm)) two → w = fadd c (fsub (f32of v0) (f32of v1)) →
    a = fadd (fadd w (fsub (f32of v0) (f32of v1))) (fdiv (fsub (f32of v2) (f32of v0)) two) →
    c.isFinite = true → a.isFinite = true → (fneg (fadd w a)).isFinite = true → (f32of v0).isFinite = true →
    (herm4 (f32of vm) (f32of v0) (f32of v1) (f32of v2) (.fin false 0)).units = (f32of v0).units ∧
    (v0 ≠ 0x80000000#32 →
      (herm4 (f32of vm) (f32of v0) (f32of v1) (f32of v2) (.fin false 0)).bits payload = v0)

/-- R142, R143: at PHASE = 0 TRIA's rising ramp is -1.0 for every normal slope, and at maxPhase the falling ramp is selected
and lies within 2^(-22) of -1.0. -/
def Obligations.TriaClosesTheCycle : Prop :=
  ∀ (c : Config) (p : BitVec c.w) (m : Nat), representable m = true → 0 < m → m < 2 ^ 149 →
    (p.toNat = 0 → 2 ^ 23 ≤ m → triaRise p (.fin false m) = fneg one) ∧
    (p.toNat = 2 ^ c.w - 1 → triaPivot c.w (.fin false m) < p.toNat ∧
      ∃ u, (triaFall p (.fin false m)).units = some u ∧ |u + 2 ^ 149| ≤ 2 ^ 127)

/-! ## Host programs -/

/-- R77, R78: a mnemonic's line is the CMD write of its word, and LOADT and LOADP write their values to the entries from 0
on, in order. (That entries past the window get an access too, and that
LOADP's elements are 64-bit integers, are the model's choices, logs 21 and 22.) -/
def Obligations.PseudoInstructionsExpand : Prop :=
  (∀ i : Instr, programEvents [.cmd i] = some [.hostWrite 0x28#32 64 (encode i)]) ∧
  (∀ (ps : List Slot), programEvents [.loadp ps] =
    some (ps.mapIdx (fun i p => .hostWrite (BitVec.ofNat 32 (0x02000000 + 8 * i)) 64 p))) ∧
  (∀ (xs : List Decimal) (ys : List F32), xs.map Decimal.exact = ys.map some →
    programEvents [.loadt xs] = some (ys.mapIdx (fun i y =>
      .hostWrite (BitVec.ofNat 32 (0x01000000 + 8 * i)) 64 ((y.bits 0#32).setWidth 64))))

/-! ## Binary32: the other primitives -/

/-- R11: a product, a quotient and a converted integer are the exact result rounded once, 2^128 or more to infinity; P2(k) is the
power of two; fsub adds the negation; and zero, infinite and NaN operands follow IEEE 754 (log 15). A finite operand is
`mag * 2^(-149)`, so an exact product is `m * n / 2^149` units and an exact quotient `m * 2^149 / n` units. -/
def Obligations.ArithmeticRoundsTheExactResult : Prop :=
  (∀ (neg : Bool) (n d : Nat), 0 < d → roundsTo neg n d (roundF32 neg n d)) ∧
  (∀ (a b : Bool) (m n : Nat), roundsTo (a != b) (m * n) (2 ^ 149) (fmul (.fin a m) (.fin b n))) ∧
  (∀ (a b : Bool) (m n : Nat), 0 < n → roundsTo (a != b) (m * 2 ^ 149) n (fdiv (.fin a m) (.fin b n))) ∧
  (∀ n : Nat, roundsTo false (n * 2 ^ 149) 1 (cvt n)) ∧
  (∀ k : Nat, k ≤ 127 → p2 k = cvt (2 ^ k) ∧ (k ≤ 126 → p2 (-(k : Int)) = fdiv (cvt 1) (cvt (2 ^ k)))) ∧
  (∀ x y : F32, fsub x y = fadd x (fneg y)) ∧
  (∀ (a b : Bool) (m n : Nat),
    fneg (.fin a m) = .fin (!a) m ∧ fneg (.inf a) = .inf (!a) ∧
    fdiv (.fin a m) (.fin b 0) = (if m = 0 then .nan else .inf (a != b)) ∧
    fadd (.inf a) (.fin b n) = .inf a ∧ fadd (.fin b n) (.inf a) = .inf a ∧
    fadd (.inf a) (.inf b) = (if a = b then .inf a else .nan) ∧
    fmul (.inf a) (.fin b n) = (if n = 0 then .nan else .inf (a != b)) ∧
    fmul (.fin b n) (.inf a) = (if n = 0 then .nan else .inf (b != a)) ∧
    fmul (.inf a) (.inf b) = .inf (a != b) ∧
    fdiv (.inf a) (.fin b n) = .inf (a != b) ∧ fdiv (.fin b n) (.inf a) = .fin (b != a) 0 ∧
    fdiv (.inf a) (.inf b) = .nan) ∧
  (∀ x : F32, fneg .nan = .nan ∧ fadd .nan x = .nan ∧ fadd x .nan = .nan ∧ fmul .nan x = .nan ∧ fmul x .nan = .nan ∧
    fdiv .nan x = .nan ∧ fdiv x .nan = .nan)
end

