-- ==== Sys2Proof/Laws/Binary32.lean ====
section
/-! SUPPORT. The laws of rounding: how far it moves a value, that it keeps what binary32 holds exactly, that what it gives
binary32 holds, and that it keeps order (spec 00_scope.md R11). -/
namespace Sys2Proof.Machine

/-! ## Rounding to a whole number -/

theorem roundHalfEven_cases (n d : Nat) :
    (2 * n < 2 * d * (n / d) + d ∧ roundHalfEven n d = n / d) ∨
    (2 * d * (n / d) + d < 2 * n ∧ roundHalfEven n d = n / d + 1) ∨
    (2 * n = 2 * d * (n / d) + d ∧ roundHalfEven n d = n / d + n / d % 2) := by
  have h : d * (n / d) + n % d = n := Nat.div_add_mod n d
  have h2 : 2 * d * (n / d) = 2 * (d * (n / d)) := by ring
  unfold roundHalfEven
  simp only
  split
  · exact .inl ⟨by omega, rfl⟩
  · split
    · exact .inr (.inl ⟨by omega, rfl⟩)
    · exact .inr (.inr ⟨by omega, rfl⟩)

/-- Rounding moves a value by half a place at most. -/
theorem roundHalfEven_near {n d : Nat} (hd : 0 < d) :
    2 * n ≤ 2 * d * roundHalfEven n d + d ∧ 2 * d * roundHalfEven n d ≤ 2 * n + d := by
  have h : d * (n / d) + n % d = n := Nat.div_add_mod n d
  have h3 : n % d < d := Nat.mod_lt n hd
  have h2 : 2 * d * (n / d) = 2 * (d * (n / d)) := by ring
  rcases roundHalfEven_cases n d with ⟨h1, hr⟩ | ⟨h1, hr⟩ | ⟨h1, hr⟩
  · rw [hr]; omega
  · have : 2 * d * (n / d + 1) = 2 * (d * (n / d)) + 2 * d := by ring
    rw [hr, this]; omega
  · rcases Nat.mod_two_eq_zero_or_one (n / d) with he | he <;> rw [hr, he]
    · rw [Nat.add_zero]; omega
    · have : 2 * d * (n / d + 1) = 2 * (d * (n / d)) + 2 * d := by ring
      rw [this]; omega

/-- A tie rounds to an even number. -/
theorem roundHalfEven_tie {n d q : Nat} (hd : 0 < d) (h : 2 * n = 2 * d * q + d) :
    roundHalfEven n d % 2 = 0 := by
  have hq : n / d = q := by
    apply Nat.div_eq_of_lt_le
    · nlinarith
    · nlinarith
  rcases roundHalfEven_cases n d with ⟨h1, _⟩ | ⟨h1, _⟩ | ⟨_, hr⟩
  · rw [hq] at h1; omega
  · rw [hq] at h1; omega
  · rw [hr]; omega

/-- A whole number stays as it is. -/
@[simp] theorem roundHalfEven_mul {m d : Nat} (hd : 0 < d) : roundHalfEven (m * d) d = m := by
  unfold roundHalfEven
  simp [Nat.mul_div_cancel m hd, hd]

/-- Rounding keeps order, whatever the denominators. -/
theorem roundHalfEven_mono {n d n' d' : Nat} (hd : 0 < d) (hd' : 0 < d') (h : n * d' ≤ n' * d) :
    roundHalfEven n d ≤ roundHalfEven n' d' := by
  by_contra hlt
  push Not at hlt
  obtain ⟨-, h1⟩ := roundHalfEven_near (n := n) hd
  obtain ⟨h2, -⟩ := roundHalfEven_near (n := n') hd'
  set r := roundHalfEven n d with hr
  set r' := roundHalfEven n' d' with hr'
  -- both values are the same tie, between r' and r = r' + 1
  have e1 : 2 * d * d' * r ≤ 2 * n * d' + d * d' := by nlinarith
  have e2 : 2 * n' * d ≤ 2 * d * d' * r' + d * d' := by nlinarith
  have hdd : 0 < d * d' := Nat.mul_pos hd hd'
  have hrr : r = r' + 1 := by
    by_contra hne
    have : r' + 2 ≤ r := by omega
    have : 2 * d * d' * (r' + 2) ≤ 2 * d * d' * r := Nat.mul_le_mul_left _ this
    nlinarith
  have t1 : 2 * n * d' = (2 * d * r' + d) * d' := by
    rw [hrr] at e1
    nlinarith
  have t2 : 2 * n' * d = (2 * d' * r' + d') * d := by
    rw [hrr] at e1
    nlinarith
  have t1' : 2 * n = 2 * d * r' + d := Nat.eq_of_mul_eq_mul_right hd' t1
  have t2' : 2 * n' = 2 * d' * r' + d' := Nat.eq_of_mul_eq_mul_right hd t2
  have p1 := roundHalfEven_tie hd t1'
  have p2 := roundHalfEven_tie hd' t2'
  rw [← hr] at p1
  rw [← hr'] at p2
  omega

/-! ## The last kept place -/

theorem lt_two_pow_ulpExp (q : Nat) : q < 2 ^ (24 + ulpExp q) := by
  refine Nat.lt_of_lt_of_le Nat.lt_log2_self (Nat.pow_le_pow_right (by norm_num) ?_)
  unfold ulpExp; omega

theorem two_pow_ulpExp_le {q : Nat} (h : ulpExp q ≠ 0) : 2 ^ (23 + ulpExp q) ≤ q := by
  have hl : 23 + ulpExp q = q.log2 := by unfold ulpExp at *; omega
  have hq : q ≠ 0 := by
    rintro rfl
    simp [ulpExp] at h
  rw [hl]
  exact Nat.log2_self_le hq

theorem ulpExp_small {q : Nat} (h : q < 2 ^ 24) : ulpExp q = 0 := by
  by_contra hne
  have := two_pow_ulpExp_le hne
  have h2 : 2 ^ 24 ≤ 2 ^ (23 + ulpExp q) := Nat.pow_le_pow_right (by norm_num) (by omega)
  omega

theorem ulpExp_eq {q k : Nat} (h1 : 2 ^ (23 + k) ≤ q) (h2 : q < 2 ^ (24 + k)) : ulpExp q = k := by
  have hq : q ≠ 0 := by
    rintro rfl
    have := Nat.two_pow_pos (23 + k)
    omega
  have : q.log2 = 23 + k := by
    rw [Nat.log2_eq_iff hq]
    exact ⟨h1, by rwa [show 23 + k + 1 = 24 + k by omega]⟩
  unfold ulpExp; omega

theorem ulpExp_mono {p q : Nat} (h : p ≤ q) : ulpExp p ≤ ulpExp q := by
  by_contra hlt
  push Not at hlt
  have h1 := two_pow_ulpExp_le (q := p) (by omega)
  have h2 := lt_two_pow_ulpExp q
  have h3 : 2 ^ (24 + ulpExp q) ≤ 2 ^ (23 + ulpExp p) := Nat.pow_le_pow_right (by norm_num) (by omega)
  omega

/-! ## Rounding to 24 bits -/

/-- The kept 24 bits lie in `[2^23, 2^24]`, or below it in the lowest binade. -/
theorem roundMag_kept {n d : Nat} (hd : 0 < d) :
    roundHalfEven n (d * 2 ^ ulpExp (n / d)) ≤ 2 ^ 24 ∧
      (ulpExp (n / d) ≠ 0 → 2 ^ 23 ≤ roundHalfEven n (d * 2 ^ ulpExp (n / d))) := by
  set k := ulpExp (n / d) with hk
  have hp : 0 < d * 2 ^ k := Nat.mul_pos hd (Nat.two_pow_pos k)
  have hlt : n < d * 2 ^ (24 + k) := by
    have := lt_two_pow_ulpExp (n / d)
    rw [← hk, Nat.div_lt_iff_lt_mul hd] at this
    rwa [Nat.mul_comm]
  constructor
  · have h := roundHalfEven_mono hp hp (n := n) (n' := 2 ^ 24 * (d * 2 ^ k)) (by
      have : 2 ^ 24 * (d * 2 ^ k) = d * 2 ^ (24 + k) := by rw [Nat.pow_add]; ring
      rw [this]; exact Nat.mul_le_mul_right _ hlt.le)
    rwa [roundHalfEven_mul hp] at h
  · intro hne
    have hge := two_pow_ulpExp_le (hk ▸ hne)
    rw [← hk, Nat.le_div_iff_mul_le hd] at hge
    have h := roundHalfEven_mono hp hp (n := 2 ^ 23 * (d * 2 ^ k)) (n' := n) (by
      have : 2 ^ 23 * (d * 2 ^ k) = 2 ^ (23 + k) * d := by rw [Nat.pow_add]; ring
      rw [this]; exact Nat.mul_le_mul_right _ hge)
    rwa [roundHalfEven_mul hp] at h

/-- Rounding to 24 bits keeps order, whatever the denominators. -/
theorem roundMag_mono {n d n' d' : Nat} (hd : 0 < d) (hd' : 0 < d') (h : n * d' ≤ n' * d) :
    roundMag n d ≤ roundMag n' d' := by
  have hq : n / d ≤ n' / d' := by
    rw [Nat.le_div_iff_mul_le hd']
    have h1 : n / d * d ≤ n := Nat.div_mul_le_self n d
    refine Nat.le_of_mul_le_mul_right ?_ hd
    calc n / d * d' * d = n / d * d * d' := by ring
      _ ≤ n * d' := Nat.mul_le_mul_right _ h1
      _ ≤ n' * d := h
  have hk := ulpExp_mono hq
  unfold roundMag
  simp only
  rcases Nat.lt_or_eq_of_le hk with hlt | heq
  · have h1 := (roundMag_kept (n := n) hd).1
    have h2 := (roundMag_kept (n := n') hd').2 (by omega)
    calc _ ≤ 2 ^ 24 * 2 ^ ulpExp (n / d) := Nat.mul_le_mul_right _ h1
      _ = 2 ^ (24 + ulpExp (n / d)) := by rw [Nat.pow_add]
      _ ≤ 2 ^ (23 + ulpExp (n' / d')) := Nat.pow_le_pow_right (by norm_num) (by omega)
      _ = 2 ^ 23 * 2 ^ ulpExp (n' / d') := by rw [Nat.pow_add]
      _ ≤ _ := Nat.mul_le_mul_right _ h2
  · rw [heq]
    refine Nat.mul_le_mul_right _ (roundHalfEven_mono ?_ ?_ ?_)
    · exact Nat.mul_pos hd (Nat.two_pow_pos _)
    · exact Nat.mul_pos hd' (Nat.two_pow_pos _)
    · nlinarith [Nat.mul_le_mul_right (2 ^ ulpExp (n' / d')) h]

/-- What 24 bits hold stays as it is. -/
theorem roundMag_exact {m d : Nat} (hd : 0 < d) (h : m % 2 ^ ulpExp m = 0) : roundMag (m * d) d = m := by
  obtain ⟨j, hj⟩ := Nat.dvd_of_mod_eq_zero h
  unfold roundMag
  simp only [Nat.mul_div_cancel m hd]
  have e : m * d = j * (d * 2 ^ ulpExp m) := by
    conv_lhs => rw [hj]
    ring
  rw [e, roundHalfEven_mul (Nat.mul_pos hd (Nat.two_pow_pos _)), Nat.mul_comm]
  exact hj.symm

/-- What rounding gives, 24 bits hold. -/
theorem roundMag_grid {n d : Nat} (hd : 0 < d) : roundMag n d % 2 ^ ulpExp (roundMag n d) = 0 := by
  obtain ⟨h1, h2⟩ := roundMag_kept (n := n) hd
  unfold roundMag
  simp only
  set k := ulpExp (n / d) with hk
  set r := roundHalfEven n (d * 2 ^ k) with hr
  rcases Nat.lt_or_eq_of_le h1 with hlt | heq
  · by_cases hk0 : k = 0
    · rw [hk0, Nat.pow_zero, Nat.mul_one, ulpExp_small hlt, Nat.pow_zero, Nat.mod_one]
    · have : ulpExp (r * 2 ^ k) = k := by
        refine ulpExp_eq ?_ ?_
        · rw [Nat.pow_add]; exact Nat.mul_le_mul_right _ (h2 hk0)
        · rw [Nat.pow_add]; exact Nat.mul_lt_mul_of_pos_right hlt (Nat.two_pow_pos k)
      rw [this, Nat.mul_mod_left]
  · have : ulpExp (r * 2 ^ k) = k + 1 := by
      rw [heq]
      refine ulpExp_eq ?_ ?_
      · rw [← Nat.pow_add]; exact Nat.pow_le_pow_right (by norm_num) (by omega)
      · rw [← Nat.pow_add]; exact Nat.pow_lt_pow_right (by norm_num) (by omega)
    rw [this, heq, ← Nat.pow_add, show 24 + k = 23 + (k + 1) by omega, Nat.pow_add, Nat.mul_mod_left]

/-- A power of two is held exactly. -/
theorem grid_two_pow (j : Nat) : 2 ^ j % 2 ^ ulpExp (2 ^ j) = 0 := by
  have h : ulpExp (2 ^ j) ≤ j := by unfold ulpExp; rw [Nat.log2_two_pow]; omega
  exact Nat.mod_eq_zero_of_dvd (Nat.pow_dvd_pow 2 h)

/-- Scaling by a power of two upward keeps a value exact. -/
theorem grid_mul_two_pow {m : Nat} (h : m % 2 ^ ulpExp m = 0) (j : Nat) :
    m * 2 ^ j % 2 ^ ulpExp (m * 2 ^ j) = 0 := by
  by_cases hm : m = 0
  · simp [hm]
  · have hl : (m * 2 ^ j).log2 = m.log2 + j := by
      rw [Nat.log2_eq_iff (by positivity)]
      have h1 := Nat.log2_self_le hm
      have h2 : m < 2 ^ (m.log2 + 1) := Nat.lt_log2_self
      refine ⟨?_, ?_⟩
      · rw [Nat.pow_add]; exact Nat.mul_le_mul_right _ h1
      · rw [show m.log2 + j + 1 = m.log2 + 1 + j by omega, Nat.pow_add]
        exact Nat.mul_lt_mul_of_pos_right h2 (Nat.two_pow_pos j)
    have hu : ulpExp (m * 2 ^ j) ≤ ulpExp m + j := by unfold ulpExp; rw [hl]; omega
    refine Nat.mod_eq_zero_of_dvd (Nat.dvd_trans (Nat.pow_dvd_pow 2 hu) ?_)
    rw [Nat.pow_add]
    exact Nat.mul_dvd_mul_right (Nat.dvd_of_mod_eq_zero h) _

/-! ## Values -/

theorem representable_iff {m : Nat} : representable m = true ↔ m < overflowMag ∧ m % 2 ^ ulpExp m = 0 := by
  simp [representable]

@[simp] theorem representable_zero : representable 0 = true :=
  representable_iff.mpr ⟨Nat.two_pow_pos 277, Nat.zero_mod _⟩

/-- Rounding gives a value that some pattern denotes. -/
theorem roundF32_valid {neg : Bool} {n d : Nat} (hd : 0 < d) : (roundF32 neg n d).valid = true := by
  unfold roundF32
  split
  · rfl
  · exact representable_iff.mpr ⟨by omega, roundMag_grid hd⟩

/-- A value binary32 holds rounds to itself. -/
theorem roundF32_exact {neg : Bool} {m d : Nat} (hd : 0 < d) (h : representable m = true) :
    roundF32 neg (m * d) d = .fin neg m := by
  obtain ⟨h1, h2⟩ := representable_iff.mp h
  unfold roundF32
  rw [roundMag_exact hd h2, if_neg (by omega)]

/-- Rounding negates with its sign. -/
theorem fneg_roundF32 {neg : Bool} {n d : Nat} : fneg (roundF32 neg n d) = roundF32 (!neg) n d := by
  unfold roundF32
  split <;> rfl

@[simp] theorem fneg_fneg (x : F32) : fneg (fneg x) = x := by
  cases x <;> simp [fneg]

theorem fneg_valid {x : F32} (h : x.valid = true) : (fneg x).valid = true := by
  cases x <;> exact h

theorem addFin_valid {s t : Bool} {m n : Nat} : (addFin s m t n).valid = true := by
  unfold addFin
  split
  · exact roundF32_valid Nat.one_pos
  · split
    · exact roundF32_valid Nat.one_pos
    · split
      · exact roundF32_valid Nat.one_pos
      · exact representable_zero

theorem fadd_valid {x y : F32} : (fadd x y).valid = true := by
  cases x <;> cases y <;> simp only [fadd]
  case inf.inf => split <;> rfl
  case fin.fin => exact addFin_valid
  all_goals rfl

theorem fsub_valid {x y : F32} : (fsub x y).valid = true := fadd_valid

theorem fmul_valid {x y : F32} : (fmul x y).valid = true := by
  cases x <;> cases y <;> simp only [fmul]
  case inf.fin => split <;> rfl
  case fin.inf => split <;> rfl
  case fin.fin => exact roundF32_valid (Nat.two_pow_pos 149)
  all_goals rfl

theorem fdiv_valid {x y : F32} : (fdiv x y).valid = true := by
  cases x <;> cases y <;> simp only [fdiv]
  case fin.inf => exact representable_zero
  case fin.fin =>
    split
    · split <;> rfl
    · exact roundF32_valid (Nat.pos_of_ne_zero ‹_›)
  all_goals rfl

theorem cvt_valid {n : Nat} : (cvt n).valid = true := roundF32_valid Nat.one_pos

/-! ## The primitives on finite operands, each as one rounding -/

theorem roundF32_eq (neg : Bool) (n d : Nat) :
    roundF32 neg n d = if overflowMag ≤ roundMag n d then .inf neg else .fin neg (roundMag n d) := by
  simp only [roundF32]

theorem fadd_fin (a b : Bool) (m n : Nat) : fadd (.fin a m) (.fin b n) = addFin a m b n := by simp only [fadd]

theorem fmul_fin (a b : Bool) (m n : Nat) :
    fmul (.fin a m) (.fin b n) = roundF32 (a != b) (m * n) (2 ^ 149) := by simp only [fmul]

theorem fdiv_fin (a b : Bool) (m : Nat) {n : Nat} (h : n ≠ 0) :
    fdiv (.fin a m) (.fin b n) = roundF32 (a != b) (m * 2 ^ 149) n := by simp only [fdiv, if_neg h]

theorem cvt_eq (n : Nat) : cvt n = roundF32 false (n * 2 ^ 149) 1 := by simp only [cvt]

end Sys2Proof.Machine
end

