-- ==== Sys2Proof/Laws/Memory.lean ====
section
/-! SUPPORT. The laws of a block memory: reading after writing, the canonical form, the capacity, and that equal contents
are equal data. -/
namespace Sys2Proof.Machine

variable {n : Nat}

@[simp] theorem Memory.read_nil (i : Nat) : Memory.read ([] : Memory n) i = none := rfl

theorem Memory.read_cons (k : Nat) (u : BitVec n) (m : Memory n) (i : Nat) :
    Memory.read ((k, u) :: m) i = if i = k then some u else Memory.read m i := rfl

/-- A read after a write to the same entry gives the value written. -/
@[simp] theorem Memory.read_write_same (m : Memory n) (i : Nat) (v : BitVec n) :
    Memory.read (Memory.write m i v) i = some v := by
  induction m with
  | nil => simp [Memory.write, Memory.read_cons]
  | cons c m ih =>
    obtain ⟨k, u⟩ := c
    simp only [Memory.write]
    split
    · simp [Memory.read_cons]
    · split
      · simp [Memory.read_cons]
      · rename_i h
        simp [Memory.read_cons, h, ih]

/-- A write leaves every other entry alone. -/
theorem Memory.read_write_other (m : Memory n) (i j : Nat) (v : BitVec n) (h : j ≠ i) :
    Memory.read (Memory.write m i v) j = Memory.read m j := by
  induction m with
  | nil => simp [Memory.write, Memory.read_cons, h]
  | cons c m ih =>
    obtain ⟨k, u⟩ := c
    simp only [Memory.write]
    split
    · simp [Memory.read_cons, h]
    · split
      · rename_i hik
        subst hik
        simp [Memory.read_cons, h]
      · simp [Memory.read_cons, ih]

/-- Reading any entry after a write. -/
theorem Memory.read_write (m : Memory n) (i j : Nat) (v : BitVec n) :
    Memory.read (Memory.write m i v) j = if j = i then some v else Memory.read m j := by
  split
  · subst j; simp
  · exact Memory.read_write_other m i j v ‹_›

/-- The entries a write leaves listed are old ones or the one written. -/
theorem Memory.mem_write {m : Memory n} {i : Nat} {v : BitVec n} {c : Nat × BitVec n}
    (h : c ∈ Memory.write m i v) : c = (i, v) ∨ c ∈ m := by
  induction m with
  | nil => simpa [Memory.write] using h
  | cons d m ih =>
    obtain ⟨k, u⟩ := d
    simp only [Memory.write] at h
    split at h
    · simpa using h
    · split at h
      · rcases List.mem_cons.mp h with h | h
        · exact .inl h
        · exact .inr (List.mem_cons_of_mem _ h)
      · rcases List.mem_cons.mp h with h | h
        · exact .inr (h ▸ List.mem_cons_self)
        · rcases ih h with h | h
          · exact .inl h
          · exact .inr (List.mem_cons_of_mem _ h)

/-- A write keeps the canonical form. -/
theorem Memory.write_wf {m : Memory n} (h : Memory.wf m) (i : Nat) (v : BitVec n) :
    Memory.wf (Memory.write m i v) := by
  induction m with
  | nil => simp [Memory.write, Memory.wf]
  | cons c m ih =>
    obtain ⟨k, u⟩ := c
    obtain ⟨hk, hm⟩ := List.pairwise_cons.mp h
    simp only [Memory.write]
    split
    · rename_i hik
      refine List.pairwise_cons.mpr ⟨fun d hd => ?_, h⟩
      rcases List.mem_cons.mp hd with rfl | hd
      · exact hik
      · exact Nat.lt_trans hik (hk d hd)
    · split
      · rename_i hik
        exact List.pairwise_cons.mpr ⟨fun d hd => by simpa [hik] using hk d hd, hm⟩
      · refine List.pairwise_cons.mpr ⟨fun d hd => ?_, ih hm⟩
        rcases Memory.mem_write hd with rfl | hd
        · simp only; omega
        · exact hk d hd

/-- A write below the capacity keeps the entries below it. -/
theorem Memory.write_within {m : Memory n} {cap i : Nat} (h : Memory.within m cap) (hi : i < cap)
    (v : BitVec n) : Memory.within (Memory.write m i v) cap := by
  intro c hc
  rcases Memory.mem_write hc with rfl | hc
  · exact hi
  · exact h c hc

/-- What a read finds is listed. -/
theorem Memory.mem_of_read {m : Memory n} {i : Nat} {v : BitVec n} (h : Memory.read m i = some v) :
    (i, v) ∈ m := by
  induction m with
  | nil => simp at h
  | cons c m ih =>
    obtain ⟨k, u⟩ := c
    rw [Memory.read_cons] at h
    split at h
    · rename_i hik
      subst hik
      obtain rfl := Option.some.inj h
      exact List.mem_cons_self
    · exact List.mem_cons_of_mem _ (ih h)

/-- In the canonical form a listed entry is what a read finds. -/
theorem Memory.read_of_mem {m : Memory n} (hm : Memory.wf m) {i : Nat} {v : BitVec n}
    (h : (i, v) ∈ m) : Memory.read m i = some v := by
  induction m with
  | nil => simp at h
  | cons c m ih =>
    obtain ⟨k, u⟩ := c
    obtain ⟨hk, hm⟩ := List.pairwise_cons.mp hm
    rw [Memory.read_cons]
    rcases List.mem_cons.mp h with h | h
    · obtain ⟨rfl, rfl⟩ := Prod.mk.inj h
      simp
    · have := hk _ h
      simp only at this
      rw [if_neg (by omega), ih hm h]

/-- Equal contents are equal data: two canonical memories that read alike are the same list. -/
theorem Memory.ext_of_read {m k : Memory n} (hm : Memory.wf m) (hk : Memory.wf k)
    (h : ∀ i, Memory.read m i = Memory.read k i) : m = k := by
  have lt_irrefl : ∀ {l : Memory n}, Memory.wf l → l.Nodup := fun hl =>
    hl.imp (fun {a b} hab he => by simp [he] at hab)
  have perm : m.Perm k := by
    refine (List.perm_ext_iff_of_nodup (lt_irrefl hm) (lt_irrefl hk)).mpr fun ⟨i, v⟩ => ⟨fun hmem => ?_, fun hmem => ?_⟩
    · exact Memory.mem_of_read ((h i).symm.trans (Memory.read_of_mem hm hmem))
    · exact Memory.mem_of_read ((h i).trans (Memory.read_of_mem hk hmem))
  exact perm.eq_of_pairwise (fun a b _ _ hab hba => absurd (Nat.lt_trans hab hba) (Nat.lt_irrefl _)) hm hk

end Sys2Proof.Machine
end

