-- ==== Sys2Proof/Laws/State.lean ====
section
/-! SUPPORT. What each named update of the state leaves in each field: one lemma for each field of each update, so that no
later proof unfolds a record update. A field of an updated state whose update holds a computed sample is read with these
lemmas (simp), not by rfl: a failed comparison of whole states would make the kernel compute the sample. -/
namespace Sys2Proof.Machine

variable (s : State)

section
variable (v : Slot)

@[simp] theorem State.setTsize_draws : (s.setTsize v).draws = s.draws := rfl
@[simp] theorem State.setTsize_cfg : (s.setTsize v).cfg = s.cfg := rfl
@[simp] theorem State.setTsize_tsize : (s.setTsize v).tsize = v := rfl
@[simp] theorem State.setTsize_phase : (s.setTsize v).phase = s.phase := rfl
@[simp] theorem State.setTsize_shape : (s.setTsize v).shape = s.shape := rfl
@[simp] theorem State.setTsize_result : (s.setTsize v).result = s.result := rfl
@[simp] theorem State.setTsize_index : (s.setTsize v).index = s.index := rfl
@[simp] theorem State.setTsize_frac : (s.setTsize v).frac = s.frac := rfl
@[simp] theorem State.setTsize_blen : (s.setTsize v).blen = s.blen := rfl
@[simp] theorem State.setTsize_fault : (s.setTsize v).fault = s.fault := rfl
@[simp] theorem State.setTsize_fcode : (s.setTsize v).fcode = s.fcode := rfl
@[simp] theorem State.setTsize_finfo : (s.setTsize v).finfo = s.finfo := rfl
@[simp] theorem State.setTsize_tmem : (s.setTsize v).tmem = s.tmem := rfl
@[simp] theorem State.setTsize_pbuf : (s.setTsize v).pbuf = s.pbuf := rfl
@[simp] theorem State.setTsize_obuf : (s.setTsize v).obuf = s.obuf := rfl
@[simp] theorem State.setTsize_port : (s.setTsize v).port = s.port := rfl
@[simp] theorem State.setTsize_rdata : (s.setTsize v).rdata = s.rdata := rfl
@[simp] theorem State.setTsize_epoch : (s.setTsize v).epoch = s.epoch := rfl

end

section
variable (v : Slot)

@[simp] theorem State.setPhase_draws : (s.setPhase v).draws = s.draws := rfl
@[simp] theorem State.setPhase_cfg : (s.setPhase v).cfg = s.cfg := rfl
@[simp] theorem State.setPhase_tsize : (s.setPhase v).tsize = s.tsize := rfl
@[simp] theorem State.setPhase_phase : (s.setPhase v).phase = (v.setWidth s.cfg.w).setWidth 64 := rfl
@[simp] theorem State.setPhase_shape : (s.setPhase v).shape = s.shape := rfl
@[simp] theorem State.setPhase_result : (s.setPhase v).result = s.result := rfl
@[simp] theorem State.setPhase_index : (s.setPhase v).index = s.index := rfl
@[simp] theorem State.setPhase_frac : (s.setPhase v).frac = s.frac := rfl
@[simp] theorem State.setPhase_blen : (s.setPhase v).blen = s.blen := rfl
@[simp] theorem State.setPhase_fault : (s.setPhase v).fault = s.fault := rfl
@[simp] theorem State.setPhase_fcode : (s.setPhase v).fcode = s.fcode := rfl
@[simp] theorem State.setPhase_finfo : (s.setPhase v).finfo = s.finfo := rfl
@[simp] theorem State.setPhase_tmem : (s.setPhase v).tmem = s.tmem := rfl
@[simp] theorem State.setPhase_pbuf : (s.setPhase v).pbuf = s.pbuf := rfl
@[simp] theorem State.setPhase_obuf : (s.setPhase v).obuf = s.obuf := rfl
@[simp] theorem State.setPhase_port : (s.setPhase v).port = s.port := rfl
@[simp] theorem State.setPhase_rdata : (s.setPhase v).rdata = s.rdata := rfl
@[simp] theorem State.setPhase_epoch : (s.setPhase v).epoch = s.epoch := rfl

end

section
variable (v : Slot)

@[simp] theorem State.setShape_draws : (s.setShape v).draws = s.draws := rfl
@[simp] theorem State.setShape_cfg : (s.setShape v).cfg = s.cfg := rfl
@[simp] theorem State.setShape_tsize : (s.setShape v).tsize = s.tsize := rfl
@[simp] theorem State.setShape_phase : (s.setShape v).phase = s.phase := rfl
@[simp] theorem State.setShape_shape : (s.setShape v).shape = v.setWidth 32 := rfl
@[simp] theorem State.setShape_result : (s.setShape v).result = s.result := rfl
@[simp] theorem State.setShape_index : (s.setShape v).index = s.index := rfl
@[simp] theorem State.setShape_frac : (s.setShape v).frac = s.frac := rfl
@[simp] theorem State.setShape_blen : (s.setShape v).blen = s.blen := rfl
@[simp] theorem State.setShape_fault : (s.setShape v).fault = s.fault := rfl
@[simp] theorem State.setShape_fcode : (s.setShape v).fcode = s.fcode := rfl
@[simp] theorem State.setShape_finfo : (s.setShape v).finfo = s.finfo := rfl
@[simp] theorem State.setShape_tmem : (s.setShape v).tmem = s.tmem := rfl
@[simp] theorem State.setShape_pbuf : (s.setShape v).pbuf = s.pbuf := rfl
@[simp] theorem State.setShape_obuf : (s.setShape v).obuf = s.obuf := rfl
@[simp] theorem State.setShape_port : (s.setShape v).port = s.port := rfl
@[simp] theorem State.setShape_rdata : (s.setShape v).rdata = s.rdata := rfl
@[simp] theorem State.setShape_epoch : (s.setShape v).epoch = s.epoch := rfl

end

section
variable (v : Slot)

@[simp] theorem State.setBlen_draws : (s.setBlen v).draws = s.draws := rfl
@[simp] theorem State.setBlen_cfg : (s.setBlen v).cfg = s.cfg := rfl
@[simp] theorem State.setBlen_tsize : (s.setBlen v).tsize = s.tsize := rfl
@[simp] theorem State.setBlen_phase : (s.setBlen v).phase = s.phase := rfl
@[simp] theorem State.setBlen_shape : (s.setBlen v).shape = s.shape := rfl
@[simp] theorem State.setBlen_result : (s.setBlen v).result = s.result := rfl
@[simp] theorem State.setBlen_index : (s.setBlen v).index = s.index := rfl
@[simp] theorem State.setBlen_frac : (s.setBlen v).frac = s.frac := rfl
@[simp] theorem State.setBlen_blen : (s.setBlen v).blen = v.setWidth 32 := rfl
@[simp] theorem State.setBlen_fault : (s.setBlen v).fault = s.fault := rfl
@[simp] theorem State.setBlen_fcode : (s.setBlen v).fcode = s.fcode := rfl
@[simp] theorem State.setBlen_finfo : (s.setBlen v).finfo = s.finfo := rfl
@[simp] theorem State.setBlen_tmem : (s.setBlen v).tmem = s.tmem := rfl
@[simp] theorem State.setBlen_pbuf : (s.setBlen v).pbuf = s.pbuf := rfl
@[simp] theorem State.setBlen_obuf : (s.setBlen v).obuf = s.obuf := rfl
@[simp] theorem State.setBlen_port : (s.setBlen v).port = s.port := rfl
@[simp] theorem State.setBlen_rdata : (s.setBlen v).rdata = s.rdata := rfl
@[simp] theorem State.setBlen_epoch : (s.setBlen v).epoch = s.epoch := rfl

end

section
variable (i : Nat) (v : Slot)

@[simp] theorem State.setTmem_draws : (s.setTmem i v).draws = s.draws := rfl
@[simp] theorem State.setTmem_cfg : (s.setTmem i v).cfg = s.cfg := rfl
@[simp] theorem State.setTmem_tsize : (s.setTmem i v).tsize = s.tsize := rfl
@[simp] theorem State.setTmem_phase : (s.setTmem i v).phase = s.phase := rfl
@[simp] theorem State.setTmem_shape : (s.setTmem i v).shape = s.shape := rfl
@[simp] theorem State.setTmem_result : (s.setTmem i v).result = s.result := rfl
@[simp] theorem State.setTmem_index : (s.setTmem i v).index = s.index := rfl
@[simp] theorem State.setTmem_frac : (s.setTmem i v).frac = s.frac := rfl
@[simp] theorem State.setTmem_blen : (s.setTmem i v).blen = s.blen := rfl
@[simp] theorem State.setTmem_fault : (s.setTmem i v).fault = s.fault := rfl
@[simp] theorem State.setTmem_fcode : (s.setTmem i v).fcode = s.fcode := rfl
@[simp] theorem State.setTmem_finfo : (s.setTmem i v).finfo = s.finfo := rfl
@[simp] theorem State.setTmem_tmem : (s.setTmem i v).tmem = Memory.write s.tmem i (v.setWidth 32) := rfl
@[simp] theorem State.setTmem_pbuf : (s.setTmem i v).pbuf = s.pbuf := rfl
@[simp] theorem State.setTmem_obuf : (s.setTmem i v).obuf = s.obuf := rfl
@[simp] theorem State.setTmem_port : (s.setTmem i v).port = s.port := rfl
@[simp] theorem State.setTmem_rdata : (s.setTmem i v).rdata = s.rdata := rfl
@[simp] theorem State.setTmem_epoch : (s.setTmem i v).epoch = s.epoch := rfl

end

section
variable (i : Nat) (v : Slot)

@[simp] theorem State.setPbuf_draws : (s.setPbuf i v).draws = s.draws := rfl
@[simp] theorem State.setPbuf_cfg : (s.setPbuf i v).cfg = s.cfg := rfl
@[simp] theorem State.setPbuf_tsize : (s.setPbuf i v).tsize = s.tsize := rfl
@[simp] theorem State.setPbuf_phase : (s.setPbuf i v).phase = s.phase := rfl
@[simp] theorem State.setPbuf_shape : (s.setPbuf i v).shape = s.shape := rfl
@[simp] theorem State.setPbuf_result : (s.setPbuf i v).result = s.result := rfl
@[simp] theorem State.setPbuf_index : (s.setPbuf i v).index = s.index := rfl
@[simp] theorem State.setPbuf_frac : (s.setPbuf i v).frac = s.frac := rfl
@[simp] theorem State.setPbuf_blen : (s.setPbuf i v).blen = s.blen := rfl
@[simp] theorem State.setPbuf_fault : (s.setPbuf i v).fault = s.fault := rfl
@[simp] theorem State.setPbuf_fcode : (s.setPbuf i v).fcode = s.fcode := rfl
@[simp] theorem State.setPbuf_finfo : (s.setPbuf i v).finfo = s.finfo := rfl
@[simp] theorem State.setPbuf_tmem : (s.setPbuf i v).tmem = s.tmem := rfl
@[simp] theorem State.setPbuf_pbuf : (s.setPbuf i v).pbuf = Memory.write s.pbuf i ((v.setWidth s.cfg.w).setWidth 64) := rfl
@[simp] theorem State.setPbuf_obuf : (s.setPbuf i v).obuf = s.obuf := rfl
@[simp] theorem State.setPbuf_port : (s.setPbuf i v).port = s.port := rfl
@[simp] theorem State.setPbuf_rdata : (s.setPbuf i v).rdata = s.rdata := rfl
@[simp] theorem State.setPbuf_epoch : (s.setPbuf i v).epoch = s.epoch := rfl

end

section
variable (b : Pattern)

@[simp] theorem State.setResult_draws : (s.setResult b).draws = s.draws + 1 := rfl
@[simp] theorem State.setResult_cfg : (s.setResult b).cfg = s.cfg := rfl
@[simp] theorem State.setResult_tsize : (s.setResult b).tsize = s.tsize := rfl
@[simp] theorem State.setResult_phase : (s.setResult b).phase = s.phase := rfl
@[simp] theorem State.setResult_shape : (s.setResult b).shape = s.shape := rfl
@[simp] theorem State.setResult_result : (s.setResult b).result = b := rfl
@[simp] theorem State.setResult_index : (s.setResult b).index = s.index := rfl
@[simp] theorem State.setResult_frac : (s.setResult b).frac = s.frac := rfl
@[simp] theorem State.setResult_blen : (s.setResult b).blen = s.blen := rfl
@[simp] theorem State.setResult_fault : (s.setResult b).fault = s.fault := rfl
@[simp] theorem State.setResult_fcode : (s.setResult b).fcode = s.fcode := rfl
@[simp] theorem State.setResult_finfo : (s.setResult b).finfo = s.finfo := rfl
@[simp] theorem State.setResult_tmem : (s.setResult b).tmem = s.tmem := rfl
@[simp] theorem State.setResult_pbuf : (s.setResult b).pbuf = s.pbuf := rfl
@[simp] theorem State.setResult_obuf : (s.setResult b).obuf = s.obuf := rfl
@[simp] theorem State.setResult_port : (s.setResult b).port = s.port := rfl
@[simp] theorem State.setResult_rdata : (s.setResult b).rdata = s.rdata := rfl
@[simp] theorem State.setResult_epoch : (s.setResult b).epoch = s.epoch := rfl

end

section
variable (x : F32)

@[simp] theorem State.setSample_draws : (s.setSample x).draws = s.draws + 1 := rfl
@[simp] theorem State.setSample_cfg : (s.setSample x).cfg = s.cfg := rfl
@[simp] theorem State.setSample_tsize : (s.setSample x).tsize = s.tsize := rfl
@[simp] theorem State.setSample_phase : (s.setSample x).phase = s.phase := rfl
@[simp] theorem State.setSample_shape : (s.setSample x).shape = s.shape := rfl
@[simp] theorem State.setSample_result : (s.setSample x).result = x.bits (s.nanPayload 0) := rfl
@[simp] theorem State.setSample_index : (s.setSample x).index = s.index := rfl
@[simp] theorem State.setSample_frac : (s.setSample x).frac = s.frac := rfl
@[simp] theorem State.setSample_blen : (s.setSample x).blen = s.blen := rfl
@[simp] theorem State.setSample_fault : (s.setSample x).fault = s.fault := rfl
@[simp] theorem State.setSample_fcode : (s.setSample x).fcode = s.fcode := rfl
@[simp] theorem State.setSample_finfo : (s.setSample x).finfo = s.finfo := rfl
@[simp] theorem State.setSample_tmem : (s.setSample x).tmem = s.tmem := rfl
@[simp] theorem State.setSample_pbuf : (s.setSample x).pbuf = s.pbuf := rfl
@[simp] theorem State.setSample_obuf : (s.setSample x).obuf = s.obuf := rfl
@[simp] theorem State.setSample_port : (s.setSample x).port = s.port := rfl
@[simp] theorem State.setSample_rdata : (s.setSample x).rdata = s.rdata := rfl
@[simp] theorem State.setSample_epoch : (s.setSample x).epoch = s.epoch := rfl

end

section
variable (i : BitVec 21) (f : Pattern)

@[simp] theorem State.setSplit_draws : (s.setSplit i f).draws = s.draws + 1 := rfl
@[simp] theorem State.setSplit_cfg : (s.setSplit i f).cfg = s.cfg := rfl
@[simp] theorem State.setSplit_tsize : (s.setSplit i f).tsize = s.tsize := rfl
@[simp] theorem State.setSplit_phase : (s.setSplit i f).phase = s.phase := rfl
@[simp] theorem State.setSplit_shape : (s.setSplit i f).shape = s.shape := rfl
@[simp] theorem State.setSplit_result : (s.setSplit i f).result = s.result := rfl
@[simp] theorem State.setSplit_index : (s.setSplit i f).index = i := rfl
@[simp] theorem State.setSplit_frac : (s.setSplit i f).frac = f := rfl
@[simp] theorem State.setSplit_blen : (s.setSplit i f).blen = s.blen := rfl
@[simp] theorem State.setSplit_fault : (s.setSplit i f).fault = s.fault := rfl
@[simp] theorem State.setSplit_fcode : (s.setSplit i f).fcode = s.fcode := rfl
@[simp] theorem State.setSplit_finfo : (s.setSplit i f).finfo = s.finfo := rfl
@[simp] theorem State.setSplit_tmem : (s.setSplit i f).tmem = s.tmem := rfl
@[simp] theorem State.setSplit_pbuf : (s.setSplit i f).pbuf = s.pbuf := rfl
@[simp] theorem State.setSplit_obuf : (s.setSplit i f).obuf = s.obuf := rfl
@[simp] theorem State.setSplit_port : (s.setSplit i f).port = s.port := rfl
@[simp] theorem State.setSplit_rdata : (s.setSplit i f).rdata = s.rdata := rfl
@[simp] theorem State.setSplit_epoch : (s.setSplit i f).epoch = s.epoch := rfl

end

section
variable (m : Memory 32)

@[simp] theorem State.setObuf_draws : (s.setObuf m).draws = s.draws + 1 := rfl
@[simp] theorem State.setObuf_cfg : (s.setObuf m).cfg = s.cfg := rfl
@[simp] theorem State.setObuf_tsize : (s.setObuf m).tsize = s.tsize := rfl
@[simp] theorem State.setObuf_phase : (s.setObuf m).phase = s.phase := rfl
@[simp] theorem State.setObuf_shape : (s.setObuf m).shape = s.shape := rfl
@[simp] theorem State.setObuf_result : (s.setObuf m).result = s.result := rfl
@[simp] theorem State.setObuf_index : (s.setObuf m).index = s.index := rfl
@[simp] theorem State.setObuf_frac : (s.setObuf m).frac = s.frac := rfl
@[simp] theorem State.setObuf_blen : (s.setObuf m).blen = s.blen := rfl
@[simp] theorem State.setObuf_fault : (s.setObuf m).fault = s.fault := rfl
@[simp] theorem State.setObuf_fcode : (s.setObuf m).fcode = s.fcode := rfl
@[simp] theorem State.setObuf_finfo : (s.setObuf m).finfo = s.finfo := rfl
@[simp] theorem State.setObuf_tmem : (s.setObuf m).tmem = s.tmem := rfl
@[simp] theorem State.setObuf_pbuf : (s.setObuf m).pbuf = s.pbuf := rfl
@[simp] theorem State.setObuf_obuf : (s.setObuf m).obuf = m := rfl
@[simp] theorem State.setObuf_port : (s.setObuf m).port = s.port := rfl
@[simp] theorem State.setObuf_rdata : (s.setObuf m).rdata = s.rdata := rfl
@[simp] theorem State.setObuf_epoch : (s.setObuf m).epoch = s.epoch := rfl

end

section
variable (c : FaultCode) (v : Slot)

@[simp] theorem State.raise_draws : (s.raise c v).draws = s.draws := rfl
@[simp] theorem State.raise_cfg : (s.raise c v).cfg = s.cfg := rfl
@[simp] theorem State.raise_tsize : (s.raise c v).tsize = s.tsize := rfl
@[simp] theorem State.raise_phase : (s.raise c v).phase = s.phase := rfl
@[simp] theorem State.raise_shape : (s.raise c v).shape = s.shape := rfl
@[simp] theorem State.raise_result : (s.raise c v).result = s.result := rfl
@[simp] theorem State.raise_index : (s.raise c v).index = s.index := rfl
@[simp] theorem State.raise_frac : (s.raise c v).frac = s.frac := rfl
@[simp] theorem State.raise_blen : (s.raise c v).blen = s.blen := rfl
@[simp] theorem State.raise_fault : (s.raise c v).fault = true := rfl
@[simp] theorem State.raise_fcode : (s.raise c v).fcode = c := rfl
@[simp] theorem State.raise_finfo : (s.raise c v).finfo = v := rfl
@[simp] theorem State.raise_tmem : (s.raise c v).tmem = s.tmem := rfl
@[simp] theorem State.raise_pbuf : (s.raise c v).pbuf = s.pbuf := rfl
@[simp] theorem State.raise_obuf : (s.raise c v).obuf = s.obuf := rfl
@[simp] theorem State.raise_port : (s.raise c v).port = s.port := rfl
@[simp] theorem State.raise_rdata : (s.raise c v).rdata = s.rdata := rfl
@[simp] theorem State.raise_epoch : (s.raise c v).epoch = s.epoch := rfl

end

section
variable (r : List PortEvent)

@[simp] theorem State.accept_draws : (s.accept r).draws = s.draws := rfl
@[simp] theorem State.accept_cfg : (s.accept r).cfg = s.cfg := rfl
@[simp] theorem State.accept_tsize : (s.accept r).tsize = s.tsize := rfl
@[simp] theorem State.accept_phase : (s.accept r).phase = s.phase := rfl
@[simp] theorem State.accept_shape : (s.accept r).shape = s.shape := rfl
@[simp] theorem State.accept_result : (s.accept r).result = s.result := rfl
@[simp] theorem State.accept_index : (s.accept r).index = s.index := rfl
@[simp] theorem State.accept_frac : (s.accept r).frac = s.frac := rfl
@[simp] theorem State.accept_blen : (s.accept r).blen = s.blen := rfl
@[simp] theorem State.accept_fault : (s.accept r).fault = s.fault := rfl
@[simp] theorem State.accept_fcode : (s.accept r).fcode = s.fcode := rfl
@[simp] theorem State.accept_finfo : (s.accept r).finfo = s.finfo := rfl
@[simp] theorem State.accept_tmem : (s.accept r).tmem = s.tmem := rfl
@[simp] theorem State.accept_pbuf : (s.accept r).pbuf = s.pbuf := rfl
@[simp] theorem State.accept_obuf : (s.accept r).obuf = s.obuf := rfl
@[simp] theorem State.accept_port : (s.accept r).port = r := rfl
@[simp] theorem State.accept_rdata : (s.accept r).rdata = none := rfl
@[simp] theorem State.accept_epoch : (s.accept r).epoch = s.epoch := rfl

end

section
variable (v : Slot)

@[simp] theorem State.answer_draws : (s.answer v).draws = s.draws := rfl
@[simp] theorem State.answer_cfg : (s.answer v).cfg = s.cfg := rfl
@[simp] theorem State.answer_tsize : (s.answer v).tsize = s.tsize := rfl
@[simp] theorem State.answer_phase : (s.answer v).phase = s.phase := rfl
@[simp] theorem State.answer_shape : (s.answer v).shape = s.shape := rfl
@[simp] theorem State.answer_result : (s.answer v).result = s.result := rfl
@[simp] theorem State.answer_index : (s.answer v).index = s.index := rfl
@[simp] theorem State.answer_frac : (s.answer v).frac = s.frac := rfl
@[simp] theorem State.answer_blen : (s.answer v).blen = s.blen := rfl
@[simp] theorem State.answer_fault : (s.answer v).fault = s.fault := rfl
@[simp] theorem State.answer_fcode : (s.answer v).fcode = s.fcode := rfl
@[simp] theorem State.answer_finfo : (s.answer v).finfo = s.finfo := rfl
@[simp] theorem State.answer_tmem : (s.answer v).tmem = s.tmem := rfl
@[simp] theorem State.answer_pbuf : (s.answer v).pbuf = s.pbuf := rfl
@[simp] theorem State.answer_obuf : (s.answer v).obuf = s.obuf := rfl
@[simp] theorem State.answer_port : (s.answer v).port = s.port := rfl
@[simp] theorem State.answer_rdata : (s.answer v).rdata = some v := rfl
@[simp] theorem State.answer_epoch : (s.answer v).epoch = s.epoch := rfl

end

@[simp] theorem State.takeReset_draws : s.takeReset.draws = s.draws := rfl
@[simp] theorem State.takeReset_cfg : s.takeReset.cfg = s.cfg := rfl
@[simp] theorem State.takeReset_tsize : s.takeReset.tsize = 0#64 := rfl
@[simp] theorem State.takeReset_phase : s.takeReset.phase = 0#64 := rfl
@[simp] theorem State.takeReset_shape : s.takeReset.shape = 0x3F000000#32 := rfl
@[simp] theorem State.takeReset_result : s.takeReset.result = 0#32 := rfl
@[simp] theorem State.takeReset_index : s.takeReset.index = 0#21 := rfl
@[simp] theorem State.takeReset_frac : s.takeReset.frac = 0#32 := rfl
@[simp] theorem State.takeReset_blen : s.takeReset.blen = 0#32 := rfl
@[simp] theorem State.takeReset_fault : s.takeReset.fault = false := rfl
@[simp] theorem State.takeReset_fcode : s.takeReset.fcode = .none := rfl
@[simp] theorem State.takeReset_finfo : s.takeReset.finfo = 0#64 := rfl
@[simp] theorem State.takeReset_tmem : s.takeReset.tmem = [] := rfl
@[simp] theorem State.takeReset_pbuf : s.takeReset.pbuf = [] := rfl
@[simp] theorem State.takeReset_obuf : s.takeReset.obuf = [] := rfl
@[simp] theorem State.takeReset_port : s.takeReset.port = s.port := rfl
@[simp] theorem State.takeReset_rdata : s.takeReset.rdata = none := rfl
@[simp] theorem State.takeReset_epoch : s.takeReset.epoch = s.epoch + 1 := rfl

end Sys2Proof.Machine
end

