-- ==== Sys2Proof/Laws/Ops.lean ====
section
/-! SUPPORT. What each shared operation can answer, each command, and a step: the lemmas later proofs cite instead of
unfolding the machine. -/
namespace Sys2Proof.Machine

variable {s t : State}

/-! ## The frames of a command -/

/-- In a faulted block a command does nothing (60_exceptions.md R186). -/
@[simp] theorem State.command_faulted {run : Result} (h : s.fault = true) : s.command run = .next s := by
  simp [State.command, h]

/-- In an unfaulted block a command runs. -/
@[simp] theorem State.command_running {run : Result} (h : s.fault = false) : s.command run = run := by
  simp [State.command, h]

theorem State.command_next {run : Result} (h : s.command run = .next t) :
    (s.fault = true ∧ t = s) ∨ (s.fault = false ∧ run = .next t) := by
  unfold State.command at h
  split at h
  · exact .inl ⟨‹_›, by simpa using h.symm⟩
  · exact .inr ⟨eq_false_of_ne_true ‹¬_›, h⟩

@[simp] theorem State.requireTable_none {run : Result} (h : s.tsize = 0#64) :
    s.requireTable run = .next (s.raise .precondTsize 0#64) := by
  simp [State.requireTable, h]

@[simp] theorem State.requireTable_some {run : Result} (h : s.tsize ≠ 0#64) : s.requireTable run = run := by
  simp [State.requireTable, h]

theorem State.requireTable_next {run : Result} (h : s.requireTable run = .next t) :
    (s.tsize = 0#64 ∧ t = s.raise .precondTsize 0#64) ∨ (s.tsize ≠ 0#64 ∧ run = .next t) := by
  unfold State.requireTable at h
  split at h
  · exact .inl ⟨‹_›, by simpa using h.symm⟩
  · exact .inr ⟨‹_›, h⟩

theorem State.requireBatch_next {run : Result} (h : s.requireBatch run = .next t) :
    (legalBatch s.cfg s.blen = false ∧ t = s.raise .precondBlen (s.blen.setWidth 64)) ∨
      (legalBatch s.cfg s.blen = true ∧ run = .next t) := by
  unfold State.requireBatch at h
  split at h
  · exact .inr ⟨‹_›, h⟩
  · exact .inl ⟨eq_false_of_ne_true ‹¬_›, by simpa using h.symm⟩

theorem State.requireShape_next {legal : Bool} {run : Result} (h : s.requireShape legal run = .next t) :
    (legal = false ∧ t = s.raise .shapeRange (s.shape.setWidth 64)) ∨ (legal = true ∧ run = .next t) := by
  unfold State.requireShape at h
  split at h
  · exact .inr ⟨‹_›, h⟩
  · exact .inl ⟨eq_false_of_ne_true ‹¬_›, by simpa using h.symm⟩

theorem State.deliver_next {e : Except Refusal F32} (h : s.deliver e = .next t) :
    ∃ x, e = .ok x ∧ t = s.setSample x := by
  cases e with
  | ok x => exact ⟨x, rfl, by simpa [State.deliver] using h.symm⟩
  | error r => simp [State.deliver] at h

/-! ## Reading operands -/

@[simp] theorem State.tmemAt_some {i : Nat} {v : Pattern} (h : Memory.read s.tmem i = some v) :
    s.tmemAt i = .ok v := by
  simp [State.tmemAt, h]

@[simp] theorem State.tmemAt_none {i : Nat} (h : Memory.read s.tmem i = none) :
    s.tmemAt i = .error (.unwrittenTmem i) := by
  simp [State.tmemAt, h]

theorem State.tmemAt_error {i : Nat} {r : Refusal} (h : s.tmemAt i = .error r) :
    r = .unwrittenTmem i ∧ Memory.read s.tmem i = none := by
  unfold State.tmemAt at h
  split at h
  · cases h
  · exact ⟨by simpa using h.symm, ‹_›⟩

@[simp] theorem State.pbufAt_some {i : Nat} {v : BitVec 64} (h : Memory.read s.pbuf i = some v) :
    s.pbufAt i = .ok (v.setWidth s.cfg.w) := by
  simp [State.pbufAt, h]

theorem State.pbufAt_error {i : Nat} {r : Refusal} (h : s.pbufAt i = .error r) :
    r = .unwrittenPbuf i ∧ Memory.read s.pbuf i = none := by
  unfold State.pbufAt at h
  split at h
  · cases h
  · exact ⟨by simpa using h.symm, ‹_›⟩

theorem State.nb_some {w : Nat} {i : BitVec w} {d : Int} {v : Pattern}
    (h : Memory.read s.tmem (nbIndex s.tsize i d) = some v) : s.nb i d = .ok (f32of v) := by
  simp [State.nb, h]

theorem State.nb_error {w : Nat} {i : BitVec w} {d : Int} {r : Refusal} (h : s.nb i d = .error r) :
    ∃ j, r = .unwrittenTmem j ∧ Memory.read s.tmem j = none := by
  unfold State.nb at h
  split at h
  · cases h
  · rename_i r' hr
    obtain rfl : r' = r := by simpa using h
    exact ⟨_, State.tmemAt_error hr⟩

/-- A neighbour can be read exactly where its entry is written. -/
theorem State.nb_ok_iff {w : Nat} {i : BitVec w} {d : Int} :
    (∃ x, s.nb i d = .ok x) ↔ Memory.read s.tmem (nbIndex s.tsize i d) ≠ none := by
  unfold State.nb State.tmemAt
  cases Memory.read s.tmem (nbIndex s.tsize i d) <;> simp

theorem State.linAt_error {w : Nat} {p : BitVec w} {r : Refusal} (h : s.linAt p = .error r) :
    ∃ j, r = .unwrittenTmem j ∧ Memory.read s.tmem j = none := by
  simp only [State.linAt] at h
  split at h
  · cases h
  all_goals
    obtain rfl := Except.error.inj h
    exact State.nb_error ‹_›

theorem State.hermAt_error {w : Nat} {p : BitVec w} {r : Refusal} (h : s.hermAt p = .error r) :
    ∃ j, r = .unwrittenTmem j ∧ Memory.read s.tmem j = none := by
  simp only [State.hermAt] at h
  split at h
  · cases h
  all_goals
    obtain rfl := Except.error.inj h
    exact State.nb_error ‹_›

/-- A Hermite sample can be taken exactly where its four entries are written. -/
theorem State.hermAt_ok_iff {w : Nat} {p : BitVec w} :
    (∃ x, s.hermAt p = .ok x) ↔ ∀ d ∈ [(-1 : Int), 0, 1, 2],
      Memory.read s.tmem (nbIndex s.tsize (phaseIndex s.tsize p) d) ≠ none := by
  simp only [List.forall_mem_cons, ← State.nb_ok_iff, State.hermAt]
  cases s.nb (phaseIndex s.tsize p) (-1) <;> cases s.nb (phaseIndex s.tsize p) 0 <;>
    cases s.nb (phaseIndex s.tsize p) 1 <;> cases s.nb (phaseIndex s.tsize p) 2 <;> simp

theorem State.batchElement_error {i : Nat} {r : Refusal} (h : s.batchElement i = .error r) :
    (∃ j, r = .unwrittenTmem j ∧ Memory.read s.tmem j = none) ∨
      ∃ j, r = .unwrittenPbuf j ∧ Memory.read s.pbuf j = none := by
  unfold State.batchElement at h
  split at h
  · rename_i r' hr
    obtain rfl : r' = r := by simpa using h
    exact .inr ⟨_, State.pbufAt_error hr⟩
  · split at h
    · rename_i r' hr
      obtain rfl : r' = r := by simpa using h
      exact .inl (State.hermAt_error hr)
    · cases h

/-! ## The batch engine -/

theorem State.batch_succ_ok {k : Nat} {m : Memory 32} (h : s.batch (k + 1) = .ok m) :
    ∃ m' v, s.batch k = .ok m' ∧ s.batchElement k = .ok v ∧ m = Memory.write m' k v := by
  simp only [State.batch] at h
  split at h
  · cases h
  · split at h
    · cases h
    · exact ⟨_, _, ‹_›, ‹_›, by simpa using h.symm⟩

/-- What a batch of `k` elements leaves in OBUF: element i of the batch for i < k, and the rest as it was
(43_batch_hermite.md R162, R163). -/
theorem State.batch_read {k : Nat} {m : Memory 32} (h : s.batch k = .ok m) (i : Nat) :
    if i < k then ∃ v, s.batchElement i = .ok v ∧ Memory.read m i = some v
    else Memory.read m i = Memory.read s.obuf i := by
  induction k generalizing m with
  | zero =>
    obtain rfl : s.obuf = m := by simpa [State.batch] using h
    simp
  | succ k ih =>
    obtain ⟨m', v, hm', hv, rfl⟩ := State.batch_succ_ok h
    have := ih hm'
    rw [Memory.read_write]
    by_cases hik : i = k
    · subst hik
      simp [hv]
    · simp only [hik, if_false]
      by_cases hlt : i < k
      · rw [if_pos (by omega)]
        rwa [if_pos hlt] at this
      · rw [if_neg (by omega)]
        rwa [if_neg hlt] at this

theorem State.batch_wf {k : Nat} {m : Memory 32} (h : s.batch k = .ok m) (hw : Memory.wf s.obuf) :
    Memory.wf m := by
  induction k generalizing m with
  | zero =>
    obtain rfl : s.obuf = m := by simpa [State.batch] using h
    exact hw
  | succ k ih =>
    obtain ⟨m', v, hm', _, rfl⟩ := State.batch_succ_ok h
    exact Memory.write_wf (ih hm') k v

theorem State.batch_within {k cap : Nat} {m : Memory 32} (h : s.batch k = .ok m) (hk : k ≤ cap)
    (hw : Memory.within s.obuf cap) : Memory.within m cap := by
  induction k generalizing m with
  | zero =>
    obtain rfl : s.obuf = m := by simpa [State.batch] using h
    exact hw
  | succ k ih =>
    obtain ⟨m', v, hm', _, rfl⟩ := State.batch_succ_ok h
    exact Memory.write_within (ih hm' (by omega)) (by omega) v

theorem State.batch_error {k : Nat} {r : Refusal} (h : s.batch k = .error r) :
    (∃ j, r = .unwrittenTmem j ∧ Memory.read s.tmem j = none) ∨
      ∃ j, r = .unwrittenPbuf j ∧ Memory.read s.pbuf j = none := by
  induction k with
  | zero => simp [State.batch] at h
  | succ k ih =>
    simp only [State.batch] at h
    split at h
    · rename_i r' hr
      obtain rfl : r' = r := by simpa using h
      exact ih hr
    · split at h
      · rename_i r' hr
        obtain rfl : r' = r := by simpa using h
        exact State.batchElement_error hr
      · cases h

/-- A batch whose elements can all be read runs. -/
theorem State.batch_ok {k : Nat} (h : ∀ i < k, ∃ v, s.batchElement i = .ok v) : ∃ m, s.batch k = .ok m := by
  induction k with
  | zero => exact ⟨s.obuf, rfl⟩
  | succ k ih =>
    obtain ⟨m, hm⟩ := ih fun i hi => h i (by omega)
    obtain ⟨v, hv⟩ := h k (by omega)
    exact ⟨Memory.write m k v, by simp [State.batch, hm, hv]⟩

/-- A batch runs exactly where each of its elements can be computed. -/
theorem State.batch_ok_iff {k : Nat} : (∃ m, s.batch k = .ok m) ↔ ∀ i < k, ∃ v, s.batchElement i = .ok v := by
  refine ⟨fun ⟨m, hm⟩ i hi => ?_, State.batch_ok⟩
  have := State.batch_read hm i
  rw [if_pos hi] at this
  exact this.imp fun _ h => h.1

/-! ## What a command can answer -/

/-- Every next state of a command in an unfaulted block: what it writes, or the fault it enters (30_encoding.md R73,
60_exceptions.md R183, R184). -/
inductive Written (s : State) : Instr → State → Prop
  | split (h : s.tsize ≠ 0#64) :
      Written s .split (s.setSplit ((phaseIndex s.tsize s.phaseW).setWidth 21)
        ((phaseFraction s.tsize s.phaseW).bits (s.nanPayload 0)))
  | near (h : s.tsize ≠ 0#64) {v : Pattern} (hv : s.tmemAt (phaseIndex s.tsize s.phaseW).toNat = .ok v) :
      Written s .near (s.setResult v)
  | lin (h : s.tsize ≠ 0#64) {x : F32} (hx : s.linAt s.phaseW = .ok x) : Written s .lin (s.setSample x)
  | herm (h : s.tsize ≠ 0#64) {x : F32} (hx : s.hermAt s.phaseW = .ok x) : Written s .herm (s.setSample x)
  | saw : Written s .saw (s.setSample (saw s.phaseW))
  | sawd : Written s .sawd (s.setSample (sawd s.phaseW))
  | pulse (h : legalWidth s.shapeF = true) : Written s .pulse (s.setResult (pulse s.phaseW s.shapeF))
  | tri : Written s .tri (s.setSample (tri s.phaseW))
  | tria (h : legalSlope s.shapeF = true) :
      Written s .tria (s.setResult (tria s.phaseW s.shapeF (s.nanPayload 0)))
  | bherm (h : s.tsize ≠ 0#64) (hb : legalBatch s.cfg s.blen = true) {m : Memory 32}
      (hm : s.batch s.blen.toNat = .ok m) : Written s .bherm (s.setObuf m)
  | noTable {i : Instr} (hi : i = .split ∨ i = .near ∨ i = .lin ∨ i = .herm ∨ i = .bherm) (h : s.tsize = 0#64) :
      Written s i (s.raise .precondTsize 0#64)
  | badBatch (h : s.tsize ≠ 0#64) (hb : legalBatch s.cfg s.blen = false) :
      Written s .bherm (s.raise .precondBlen (s.blen.setWidth 64))
  | badWidth (h : legalWidth s.shapeF = false) : Written s .pulse (s.raise .shapeRange (s.shape.setWidth 64))
  | badSlope (h : legalSlope s.shapeF = false) : Written s .tria (s.raise .shapeRange (s.shape.setWidth 64))

/-- A command that answers a next state did nothing in a faulted block, or wrote what Written says. -/
theorem exec_next {i : Instr} (h : exec i s = .next t) :
    (s.fault = true ∧ t = s) ∨ (s.fault = false ∧ Written s i t) := by
  cases i
  case split =>
    rcases State.command_next h with h | ⟨hf, h⟩
    · exact .inl h
    · rcases State.requireTable_next h with ⟨h0, rfl⟩ | ⟨h0, h⟩
      · exact .inr ⟨hf, .noTable (by simp) h0⟩
      · obtain rfl := by simpa using h
        exact .inr ⟨hf, .split h0⟩
  case near =>
    rcases State.command_next h with h | ⟨hf, h⟩
    · exact .inl h
    · rcases State.requireTable_next h with ⟨h0, rfl⟩ | ⟨h0, h⟩
      · exact .inr ⟨hf, .noTable (by simp) h0⟩
      · split at h
        · obtain rfl := by simpa using h
          exact .inr ⟨hf, .near h0 ‹_›⟩
        · simp at h
  case lin =>
    rcases State.command_next h with h | ⟨hf, h⟩
    · exact .inl h
    · rcases State.requireTable_next h with ⟨h0, rfl⟩ | ⟨h0, h⟩
      · exact .inr ⟨hf, .noTable (by simp) h0⟩
      · obtain ⟨x, hx, rfl⟩ := State.deliver_next h
        exact .inr ⟨hf, .lin h0 hx⟩
  case herm =>
    rcases State.command_next h with h | ⟨hf, h⟩
    · exact .inl h
    · rcases State.requireTable_next h with ⟨h0, rfl⟩ | ⟨h0, h⟩
      · exact .inr ⟨hf, .noTable (by simp) h0⟩
      · obtain ⟨x, hx, rfl⟩ := State.deliver_next h
        exact .inr ⟨hf, .herm h0 hx⟩
  case saw =>
    rcases State.command_next h with h | ⟨hf, h⟩
    · exact .inl h
    · obtain rfl := by simpa using h
      exact .inr ⟨hf, .saw⟩
  case sawd =>
    rcases State.command_next h with h | ⟨hf, h⟩
    · exact .inl h
    · obtain rfl := by simpa using h
      exact .inr ⟨hf, .sawd⟩
  case pulse =>
    rcases State.command_next h with h | ⟨hf, h⟩
    · exact .inl h
    · rcases State.requireShape_next h with ⟨h0, rfl⟩ | ⟨h0, h⟩
      · exact .inr ⟨hf, .badWidth h0⟩
      · obtain rfl := by simpa using h
        exact .inr ⟨hf, .pulse h0⟩
  case tri =>
    rcases State.command_next h with h | ⟨hf, h⟩
    · exact .inl h
    · obtain rfl := by simpa using h
      exact .inr ⟨hf, .tri⟩
  case tria =>
    rcases State.command_next h with h | ⟨hf, h⟩
    · exact .inl h
    · rcases State.requireShape_next h with ⟨h0, rfl⟩ | ⟨h0, h⟩
      · exact .inr ⟨hf, .badSlope h0⟩
      · obtain rfl := by simpa using h
        exact .inr ⟨hf, .tria h0⟩
  case bherm =>
    rcases State.command_next h with h | ⟨hf, h⟩
    · exact .inl h
    · rcases State.requireTable_next h with ⟨h0, rfl⟩ | ⟨h0, h⟩
      · exact .inr ⟨hf, .noTable (by simp) h0⟩
      · rcases State.requireBatch_next h with ⟨hb, rfl⟩ | ⟨hb, h⟩
        · exact .inr ⟨hf, .badBatch h0 hb⟩
        · split at h
          · obtain rfl := by simpa using h
            exact .inr ⟨hf, .bherm h0 hb ‹_›⟩
          · simp at h

/-! ## The port -/

theorem checkAccess_ok {c : Config} {a : Addr} {bits : Nat} {x : Target} (h : checkAccess c a bits = .ok x) :
    bits = 64 ∧ a.toNat % 8 = 0 ∧ targetOf c a = some x := by
  unfold checkAccess at h
  split at h
  · cases h
  · split at h
    · cases h
    · rename_i h64 h8
      split at h
      · rename_i hx
        exact ⟨by simpa using h64, by simpa using h8, by simpa [hx] using h⟩
      · cases h

theorem checkAccess_of {c : Config} {a : Addr} {x : Target} (h8 : a.toNat % 8 = 0) (h : targetOf c a = some x) :
    checkAccess c a 64 = .ok x := by
  simp [checkAccess, h8, h]

/-- Every next state of a host write to a mapped slot of an unfaulted block (10_state.md R20 to R38). -/
inductive Stored (s : State) : Target → Slot → State → Prop
  | tsize (v : Slot) (h : legalSize s.cfg v = true) : Stored s (.reg .tsize) v (s.setTsize v)
  | badTsize (v : Slot) (h : legalSize s.cfg v = false) : Stored s (.reg .tsize) v (s.raise .precondTsize v)
  | phase (v : Slot) : Stored s (.reg .phase) v (s.setPhase v)
  | shape (v : Slot) : Stored s (.reg .shape) v (s.setShape v)
  | blen (v : Slot) : Stored s (.reg .blen) v (s.setBlen v)
  | command {v : Slot} {i : Instr} {t : State} (hd : decode v = .ok i) (h : Written s i t) :
      Stored s (.reg .cmd) v t
  | illegal {v : Slot} {r : Reject} (hd : decode v = .error r) : Stored s (.reg .cmd) v (s.raise .illegalCmd v)
  | readOnly {r : Reg} (v : Slot) (h : r ∉ [.tsize, .phase, .shape, .cmd, .blen]) : Stored s (.reg r) v s
  | tmem (i : Nat) (v : Slot) : Stored s (.tmem i) v (s.setTmem i v)
  | pbuf (i : Nat) (v : Slot) : Stored s (.pbuf i) v (s.setPbuf i v)
  | obuf (i : Nat) (v : Slot) : Stored s (.obuf i) v s

theorem State.writeTarget_next {x : Target} {v : Slot} (h : s.writeTarget x v = .next t) :
    (s.fault = true ∧ t = s) ∨ (s.fault = false ∧ Stored s x v t) := by
  unfold State.writeTarget at h
  split at h
  · exact .inl ⟨‹_›, by simpa using h.symm⟩
  · have hf : s.fault = false := eq_false_of_ne_true ‹¬_›
    refine .inr ⟨hf, ?_⟩
    split at h
    · rename_i r
      cases r <;> simp only [State.writeReg] at h
      case cmd =>
        unfold State.issue at h
        split at h
        · rcases exec_next h with ⟨hf', _⟩ | ⟨_, hw⟩
          · simp [hf] at hf'
          · exact .command ‹_› hw
        · obtain rfl := by simpa using h
          exact .illegal ‹_›
      case tsize =>
        obtain rfl := by simpa using h
        unfold State.writeTsize
        split
        · exact .tsize v ‹_›
        · exact .badTsize v (eq_false_of_ne_true ‹¬_›)
      case phase => obtain rfl := (by simpa using h); exact .phase v
      case shape => obtain rfl := (by simpa using h); exact .shape v
      case blen => obtain rfl := (by simpa using h); exact .blen v
      all_goals
        obtain rfl := by simpa using h
        exact .readOnly v (by decide)
    · obtain rfl := (by simpa using h); exact .tmem _ v
    · obtain rfl := (by simpa using h); exact .pbuf _ v
    · obtain rfl := (by simpa using h); exact .obuf _ v

/-- Every next state of one event at the port. -/
inductive Performed (s : State) : PortEvent → State → Prop
  | ignored {a : Addr} {v : Slot} {x : Target} (hx : checkAccess s.cfg a 64 = .ok x) (hf : s.fault = true) :
      Performed s (.hostWrite a 64 v) s
  | stored {a : Addr} {v : Slot} {x : Target} {t : State} (hx : checkAccess s.cfg a 64 = .ok x)
      (hf : s.fault = false) (h : Stored s x v t) : Performed s (.hostWrite a 64 v) t
  | returned {a : Addr} {x : Target} (hx : checkAccess s.cfg a 64 = .ok x) :
      Performed s (.hostRead a 64) (s.answer (s.readTarget x))
  | reset : Performed s .reset s.takeReset

theorem State.perform_next {e : PortEvent} (h : s.perform e = .next t) : Performed s e t := by
  cases e with
  | hostWrite a bits v =>
    simp only [State.perform, State.hostWrite] at h
    split at h
    · rename_i x hx
      obtain rfl := (checkAccess_ok hx).1
      rcases State.writeTarget_next h with ⟨hf, rfl⟩ | ⟨hf, hst⟩
      · exact .ignored hx hf
      · exact .stored hx hf hst
    · cases h
  | hostRead a bits =>
    simp only [State.perform, State.hostRead] at h
    split at h
    · rename_i x hx
      obtain rfl := (checkAccess_ok hx).1
      obtain rfl := by simpa using h
      exact .returned hx
    · cases h
  | reset =>
    obtain rfl := by simpa [State.perform] using h
    exact .reset

/-- What a step can do: nothing with nothing at the port, else the oldest event (20_memory.md R55). -/
theorem step_next (h : step s = .next t) :
    (s.port = [] ∧ t = s) ∨ ∃ e rest, s.port = e :: rest ∧ Performed (s.accept rest) e t := by
  unfold step State.advance at h
  split at h
  · exact .inl ⟨‹_›, by simpa using h.symm⟩
  · exact .inr ⟨_, _, ‹_›, State.perform_next h⟩

/-- A step with an event at the port is that event performed. -/
theorem step_of_port {e : PortEvent} {rest : List PortEvent} (h : s.port = e :: rest) :
    step s = (s.accept rest).perform e := by
  simp [step, State.advance, h]

end Sys2Proof.Machine
end

