-- ==== Sys2Proof/Laws/Pattern.lean ====
section
/-! SUPPORT. The fields of a binary32 pattern: how a pattern splits into sign, exponent and mantissa, and what the
pattern of a representable magnitude is made of. -/
namespace Sys2Proof.Machine

theorem pattern_fields (b : Pattern) :
    b.toNat = (if b.getLsbD 31 then 2 ^ 31 else 0) + (b.extractLsb' 23 8).toNat * 2 ^ 23 +
      (b.extractLsb' 0 23).toNat := by
  have h1 : (b.extractLsb' 23 8).toNat = b.toNat / 2 ^ 23 % 2 ^ 8 := by
    rw [BitVec.extractLsb'_toNat, Nat.shiftRight_eq_div_pow]
  have h2 : (b.extractLsb' 0 23).toNat = b.toNat % 2 ^ 23 := by
    rw [BitVec.extractLsb'_toNat, Nat.shiftRight_eq_div_pow, Nat.pow_zero, Nat.div_one]
  have h3 : b.getLsbD 31 = decide (b.toNat / 2 ^ 31 % 2 = 1) := by
    rw [BitVec.getLsbD, Nat.testBit_eq_decide_div_mod_eq]
  have := b.isLt
  rw [h1, h2, h3]
  by_cases h : b.toNat / 2 ^ 31 % 2 = 1
  · simp only [h, decide_true, if_true]; omega
  · simp only [h, decide_false, Bool.false_eq_true, if_false]; omega

/-- The value of a pattern given by its three fields. -/
theorem f32of_fields (s : Bool) (e m : Nat) (he : e < 256) (hm : m < 2 ^ 23) (b : Pattern)
    (hb : b.toNat = (if s then 2 ^ 31 else 0) + e * 2 ^ 23 + m) :
    f32of b = if e = 255 then (if m = 0 then .inf s else .nan)
      else if e = 0 then .fin s m else .fin s ((2 ^ 23 + m) * 2 ^ (e - 1)) := by
  have h := pattern_fields b
  have h1 : (b.extractLsb' 23 8).toNat < 2 ^ 8 := (b.extractLsb' 23 8).isLt
  have h2 : (b.extractLsb' 0 23).toNat < 2 ^ 23 := (b.extractLsb' 0 23).isLt
  have hs : b.getLsbD 31 = s := by
    cases hb' : b.getLsbD 31 <;> cases s <;>
      simp only [hb', Bool.false_eq_true, if_false, if_true, reduceCtorEq] at h hb ⊢ <;> omega
  rw [hs, hb] at h
  have he' : (b.extractLsb' 23 8).toNat = e := by omega
  have hm' : (b.extractLsb' 0 23).toNat = m := by omega
  unfold f32of
  simp only [hs, he', hm']

theorem signed_toNat {s : Bool} {l : Nat} (h : l < 2 ^ 31) :
    (signed s l).toNat = (if s then 2 ^ 31 else 0) + l := by
  unfold signed
  rw [BitVec.toNat_ofNat, Nat.mod_eq_of_lt]
  split <;> omega

/-- The lower 31 bits of a representable magnitude's pattern: an exponent below 255 and a mantissa that give it back. -/
theorem magBits_fields {m : Nat} (h : representable m = true) :
    ∃ e f, magBits m = e * 2 ^ 23 + f ∧ f < 2 ^ 23 ∧ e < 255 ∧
      m = if e = 0 then f else (2 ^ 23 + f) * 2 ^ (e - 1) := by
  obtain ⟨h1, h2⟩ := representable_iff.mp h
  have hk : ulpExp m ≤ 253 := by
    by_contra hlt
    have h3 := two_pow_ulpExp_le (q := m) (by omega)
    have : 2 ^ 277 ≤ 2 ^ (23 + ulpExp m) := Nat.pow_le_pow_right (by norm_num) (by omega)
    unfold overflowMag at h1
    omega
  have hlt := lt_two_pow_ulpExp m
  obtain ⟨j, hj⟩ := Nat.dvd_of_mod_eq_zero h2
  have hdiv : m / 2 ^ ulpExp m = j := Nat.div_eq_of_eq_mul_right (Nat.two_pow_pos _) hj
  have hjlt : j < 2 ^ 24 := by
    rw [Nat.pow_add] at hlt
    have : 2 ^ ulpExp m * j < 2 ^ ulpExp m * 2 ^ 24 := by rw [← hj]; linarith
    exact Nat.lt_of_mul_lt_mul_left this
  unfold magBits
  rw [hdiv]
  by_cases hk0 : ulpExp m = 0
  · rw [hk0] at hj ⊢
    by_cases hj23 : j < 2 ^ 23
    · exact ⟨0, j, by omega, hj23, by omega, by simpa using hj⟩
    · refine ⟨1, j - 2 ^ 23, by omega, by omega, by omega, ?_⟩
      simp at hj ⊢; omega
  · have hge : 2 ^ 23 ≤ j := by
      have := two_pow_ulpExp_le hk0
      rw [Nat.pow_add] at this
      have : 2 ^ ulpExp m * 2 ^ 23 ≤ 2 ^ ulpExp m * j := by rw [← hj]; linarith
      exact Nat.le_of_mul_le_mul_left this (Nat.two_pow_pos _)
    refine ⟨ulpExp m + 1, j - 2 ^ 23, by omega, by omega, by omega, ?_⟩
    rw [if_neg (by omega), Nat.add_sub_cancel, show 2 ^ 23 + (j - 2 ^ 23) = j by omega, Nat.mul_comm]
    exact hj

end Sys2Proof.Machine
end

