-- ==== Sys2Proof/Laws/PerInstr.lean ====
section
/-! SUPPORT. The per-instruction family Encoding: every command is well formed, and its word has a zero reserved field, its own
operation code, and is a well-formed command word (spec 30_encoding.md R70, R72). -/
namespace Sys2Proof.Laws.Encoding

/-- What holds of each command as syntax. -/
def Statement (i : Instr) : Prop :=
  i.wellFormed = true ∧ rsvOf (encode i) = 0#56 ∧ opcOf (encode i) = opcode i ∧
    CmdWord.wellFormed (encode i) = true

theorem split : Statement .split := ⟨rfl, by decide, by decide, by decide⟩
theorem near : Statement .near := ⟨rfl, by decide, by decide, by decide⟩
theorem lin : Statement .lin := ⟨rfl, by decide, by decide, by decide⟩
theorem herm : Statement .herm := ⟨rfl, by decide, by decide, by decide⟩
theorem saw : Statement .saw := ⟨rfl, by decide, by decide, by decide⟩
theorem sawd : Statement .sawd := ⟨rfl, by decide, by decide, by decide⟩
theorem pulse : Statement .pulse := ⟨rfl, by decide, by decide, by decide⟩
theorem tri : Statement .tri := ⟨rfl, by decide, by decide, by decide⟩
theorem tria : Statement .tria := ⟨rfl, by decide, by decide, by decide⟩
theorem bherm : Statement .bherm := ⟨rfl, by decide, by decide, by decide⟩

end Sys2Proof.Laws.Encoding
end

