-- ==== Sys2Proof/Laws/Port.lean ====
section
/-! SUPPORT. Small facts about the port, the address map, the register images and the legal sizes, for the provers to
cite. -/
namespace Sys2Proof.Machine

/-- What a legal configuration bounds. -/
theorem wf_bounds {c : Config} (h : c.wellFormed = true) :
    1 ≤ c.tmaxLog2 ∧ c.tmaxLog2 ≤ 21 ∧ c.bmax % 16 = 0 ∧ 16 ≤ c.bmax ∧ c.bmax ≤ 2 ^ 21 ∧ c.tmax ≤ 2 ^ 21 := by
  simp only [Config.wellFormed, Config.tmaxLegal, Config.bmaxWhole, Config.bmaxInRange, Config.group,
    Bool.and_eq_true, decide_eq_true_eq, beq_iff_eq] at h
  exact ⟨h.1.1.1, h.1.1.2, h.1.2, h.2.1, h.2.2, Nat.pow_le_pow_right (by norm_num) h.1.1.2⟩

theorem w_cases (c : Config) : c.w = 32 ∨ c.w = 64 := by
  unfold Config.w PhaseWidth.bits; split <;> simp

theorem w_le (c : Config) : c.w ≤ 64 := by rcases w_cases c with h | h <;> omega

theorem ofOffset_some {n : Nat} {r : Reg} : Reg.ofOffset n = some r ↔ r.offset = n := by
  constructor
  · intro h
    unfold Reg.ofOffset at h
    split at h <;> simp only [Option.some.injEq, reduceCtorEq] at h
    all_goals subst h; rfl
  · rintro rfl; cases r <;> rfl

theorem offset_le (r : Reg) : r.offset ≤ 0x58 := by cases r <;> decide

theorem slotIn_some {base cap a i : Nat} :
    slotIn base cap a = some i ↔ base ≤ a ∧ (a - base) / 8 = i ∧ i < cap := by
  unfold slotIn
  split
  · rename_i h
    simp only [Option.some.injEq]
    exact ⟨fun e => e ▸ ⟨h.1, rfl, h.2⟩, fun e => e.2.1⟩
  · rename_i h
    simp only [reduceCtorEq, false_iff]
    rintro ⟨h1, rfl, h3⟩
    exact h ⟨h1, h3⟩

theorem cmd_target (c : Config) : checkAccess c 0x28#32 64 = .ok (.reg .cmd) := rfl

@[simp] theorem readTarget_accept (s : State) (rest : List PortEvent) (x : Target) :
    (s.accept rest).readTarget x = s.readTarget x := by
  cases x with
  | reg r  => cases r <;> rfl
  | tmem i => rfl
  | pbuf i => rfl
  | obuf i => rfl

/-- A step that reads a mapped slot. -/
theorem read_step {s : State} {a : Addr} {rest : List PortEvent} {x : Target}
    (hp : s.port = .hostRead a 64 :: rest) (h : checkAccess s.cfg a 64 = .ok x) :
    step s = .next { s with port := rest, rdata := some (s.readTarget x) } := by
  rw [step_of_port hp]
  simp only [State.perform, State.hostRead, State.accept_cfg, h, readTarget_accept]
  rfl

/-- A step that writes a mapped slot. -/
theorem write_step {s : State} {a : Addr} {v : Slot} {rest : List PortEvent} {x : Target}
    (hp : s.port = .hostWrite a 64 v :: rest) (h : checkAccess s.cfg a 64 = .ok x) :
    step s = (s.accept rest).writeTarget x v := by
  rw [step_of_port hp]
  simp only [State.perform, State.hostWrite, State.accept_cfg, h]

theorem capWord_toNat (c : Config) :
    (capWord c).toNat = (c.w + c.tmaxLog2 * 2 ^ 8 + 8 * 2 ^ 16 + 16 * 2 ^ 24 + c.bmax * 2 ^ 32) % 2 ^ 64 :=
  BitVec.toNat_ofNat _ _

/-- `ctz` of a power of two. -/
theorem indexBits_pow {n : Slot} {k : Nat} (h : n.toNat = 2 ^ k) : indexBits n = k := by
  have hk : k < 64 := by
    have := n.isLt
    rw [h] at this
    exact (Nat.pow_lt_pow_iff_right (by norm_num)).mp this
  obtain rfl : n = BitVec.ofNat 64 (2 ^ k) := by
    apply BitVec.eq_of_toNat_eq
    rw [h, BitVec.toNat_ofNat, Nat.mod_eq_of_lt (Nat.pow_lt_pow_right (by norm_num) hk)]
  clear h
  revert hk
  revert k
  decide

/-- The legal table sizes are the powers of two from 2 to TMAX. -/
theorem legalSize_iff {c : Config} (hc : c.wellFormed = true) {v : Slot} :
    legalSize c v = true ↔ ∃ k, 1 ≤ k ∧ k ≤ c.tmaxLog2 ∧ v.toNat = 2 ^ k := by
  obtain ⟨h1, h2, -⟩ := wf_bounds hc
  have hs : 2 ≤ v.toNat → (v - 1#64).toNat = v.toNat - 1 := by
    intro h
    have := v.isLt
    rw [BitVec.toNat_sub]; simp; omega
  unfold legalSize Config.tmax
  rw [Bool.and_eq_true, Bool.and_eq_true, beq_iff_eq, decide_eq_true_iff, decide_eq_true_iff]
  constructor
  · rintro ⟨⟨ha, hb⟩, hcc⟩
    have : v.toNat &&& (v.toNat - 1) = 0 := by
      rw [← hs hb, ← BitVec.toNat_and, ha]; rfl
    rw [Nat.and_sub_one_eq_zero_iff_isPowerOfTwo (by omega)] at this
    obtain ⟨k, hk⟩ := this
    refine ⟨k, ?_, ?_, hk⟩
    · by_contra hlt
      obtain rfl : k = 0 := by omega
      simp at hk; omega
    · rw [hk] at hcc
      exact (Nat.pow_le_pow_iff_right (by norm_num)).mp hcc
  · rintro ⟨k, hk1, hk2, hk⟩
    have h3 : v.toNat ≤ 2 ^ c.tmaxLog2 := hk ▸ Nat.pow_le_pow_right (by norm_num) hk2
    have h4 : 2 ≤ v.toNat := by
      rw [hk]
      calc 2 = 2 ^ 1 := rfl
        _ ≤ 2 ^ k := Nat.pow_le_pow_right (by norm_num) hk1
    refine ⟨⟨?_, h4⟩, h3⟩
    apply BitVec.eq_of_toNat_eq
    rw [BitVec.toNat_and, hs h4]
    exact (Nat.and_sub_one_eq_zero_iff_isPowerOfTwo (by omega)).mpr ⟨k, hk⟩

/-- `N - 1` as a mask, for a legal table size of a legal configuration. -/
theorem legal_pow_lt {c : Config} (hc : c.wellFormed = true) {k : Nat} (hk : k ≤ c.tmaxLog2) : k < c.w := by
  obtain ⟨-, h, -⟩ := wf_bounds hc
  rcases w_cases c with hw | hw <;> omega

end Sys2Proof.Machine
end

