-- ==== Sys2Proof/Laws/Phase.lean ====
section
/-! SUPPORT. The phase split in numbers: what the index, the fraction and the table mask of a table size 2^k are. -/
namespace Sys2Proof.Machine

theorem phaseW_toNat (s : State) : s.phaseW.toNat = s.phase.toNat % 2 ^ s.cfg.w := by
  rw [State.phaseW, BitVec.toNat_setWidth]

theorem tsize_ne_zero {n : Slot} {k : Nat} (h : n.toNat = 2 ^ k) : n ≠ 0#64 := by
  rintro rfl
  have := Nat.two_pow_pos k
  simp at h
  omega

/-- `index(N, p)` as a quotient (40_phasemath.md R102). -/
theorem phaseIndex_toNat {w k : Nat} {n : Slot} (h : n.toNat = 2 ^ k) (p : BitVec w) :
    (phaseIndex n p).toNat = p.toNat / 2 ^ (w - k) := by
  rw [phaseIndex, fractionBits, indexBits_pow h, BitVec.toNat_ushiftRight, Nat.shiftRight_eq_div_pow]

/-- `fraction(N, p)` by a remainder (40_phasemath.md R103). -/
theorem phaseFraction_eq {w k : Nat} {n : Slot} (h : n.toNat = 2 ^ k) (p : BitVec w) :
    phaseFraction n p = fmul (cvt (p.toNat % 2 ^ (w - k))) (fdiv one (cvt (2 ^ (w - k) - 1))) := by
  rw [phaseFraction, fractionMask, fractionBits, indexBits_pow h, Nat.and_two_pow_sub_one_eq_mod]

/-- `N - 1` as a W-bit mask. -/
theorem tableMask_toNat {c : Config} {k : Nat} {n : Slot} (hc : c.wellFormed = true) (hk : k ≤ c.tmaxLog2)
    (h : n.toNat = 2 ^ k) : ((n - 1#64).setWidth c.w).toNat = 2 ^ k - 1 := by
  have hp : 2 ^ k < 2 ^ c.w := Nat.pow_lt_pow_right (by norm_num) (legal_pow_lt hc hk)
  have hp2 : 2 ^ c.w ≤ 2 ^ 64 := Nat.pow_le_pow_right (by norm_num) (w_le c)
  have hpos := Nat.two_pow_pos k
  have : (n - 1#64).toNat = 2 ^ k - 1 := by
    rw [BitVec.toNat_sub, h]; simp; omega
  rw [BitVec.toNat_setWidth, this, Nat.mod_eq_of_lt (by omega)]

end Sys2Proof.Machine
end

