-- ==== Sys2Proof/Tests/Slice0.lean ====
section
/-! SUPPORT. Tests. Expected values are those of spec 95_test_vectors.md or of the rule each test names. After them, for
each obligation with hypotheses, a witness that meets them all. -/
namespace Sys2Proof.Tests
open Sys2Proof Sys2Proof.Machine

-- One theorem after the other: as many at once as there are here would each hold a thread.
set_option Elab.async false

/-! ## Small states -/

/-- T8 of 95_test_vectors.md section 3.1. -/
def t8 : Memory 32 :=
  [(0, 0#32), (1, 0x3F000000#32), (2, 0x3F800000#32), (3, 0x3F000000#32),
   (4, 0#32), (5, 0xBF000000#32), (6, 0xBF800000#32), (7, 0xBF000000#32)]

/-- PBUF of 95_test_vectors.md section 5. -/
def p16 : Memory 64 :=
  [(0, 0#64), (1, 0x1000000000000000#64), (2, 0x2000000000000000#64), (3, 0x3000000000000000#64),
   (4, 0x4800000000000000#64), (5, 0x7FFFFFFFFFFFFFFF#64), (6, 0x8000000000000000#64), (7, 0xE000000000000000#64),
   (8, 0xF000000000000000#64), (9, 0xFFFFFFFFFFFFFFFF#64), (10, 0xD800000000000000#64), (11, 0x123456789ABCDEF0#64),
   (12, 0xFEDCBA9876543210#64), (13, 1#64), (14, 0x1FFFFFFFFFFFFFFF#64), (15, 0xA400000000000000#64)]

/-- The reference block with the table T8 set and a phase. -/
def sampled (phase : Slot) : State := { State.reset with tsize := 8#64, tmem := t8, phase := phase }

/-- The same, with a batch of sixteen phases. -/
def batched : State := { sampled 0#64 with pbuf := p16, blen := 16#32 }

/-- The reference block with a shape and a phase. -/
def shaped (shape : Pattern) (phase : Slot) : State := { State.reset with shape := shape, phase := phase }

/-- The reset block with events at its port. -/
def atPort (es : List PortEvent) : State := { State.reset with port := es }

/-- The smallest configuration with W = 32. -/
def small : Config := ⟨.w32, 1, 16⟩

/-- A block of the smallest configuration with every entry written. -/
def smallFilled (es : List PortEvent) : State :=
  { State.resetWith small with
    tsize := 2#64
    tmem  := [(0, 0x3F800000#32), (1, 0xBF800000#32)]
    pbuf  := (List.range 16).map (fun i => (i, BitVec.ofNat 64 i))
    port  := es }

/-- Some next state, and `p` of it. -/
def nextIs (r : Result) (p : State → Bool) : Bool :=
  match r with
  | .next t    => p t
  | .fault _   => false
  | .refused _ => false

theorem next_of {r : Result} {p : State → Bool} (h : nextIs r p = true) : ∃ t, r = .next t ∧ p t = true := by
  unfold nextIs at h
  split at h
  · exact ⟨_, rfl, h⟩
  · cases h
  · cases h

/-- A next state. -/
theorem runs {r : Result} (h : nextIs r (fun _ => true) = true) : ∃ t, r = .next t :=
  (next_of h).imp fun _ h => h.1

/-- A decidable fact about every element of a list of cases. -/
theorem on_list {α : Type} {p : α → Prop} [DecidablePred p] {l : List α} (h : l.all (fun x => decide (p x)) = true) :
    ∀ x ∈ l, p x := fun x hx => of_decide_eq_true (List.all_eq_true.mp h x hx)

theorem reference_wf : Config.reference.wellFormed = true := by decide

/-! ## Well-formedness: one ill-formed term for each check -/

theorem test_wf_word : CmdWord.wellFormed 0x04#64 = true ∧ CmdWord.wellFormed 0x20#64 = true := by decide
theorem test_wf_reserved_field : CmdWord.reservedZero 0x104#64 = false ∧ CmdWord.wellFormed 0x104#64 = false := by decide
theorem test_wf_opcode : CmdWord.opcodeAssigned 0x05#64 = false ∧ CmdWord.wellFormed 0x05#64 = false := by decide
theorem test_wf_config : Config.wellFormed Config.reference = true ∧ Config.wellFormed small = true := by decide
theorem test_wf_tmax_low : Config.tmaxLegal ⟨.w64, 0, 16⟩ = false ∧ Config.wellFormed ⟨.w64, 0, 16⟩ = false := by decide
theorem test_wf_tmax_high : Config.tmaxLegal ⟨.w64, 22, 16⟩ = false ∧ Config.wellFormed ⟨.w64, 22, 16⟩ = false := by decide
theorem test_wf_bmax_whole : Config.bmaxWhole ⟨.w64, 16, 24⟩ = false ∧ Config.wellFormed ⟨.w64, 16, 24⟩ = false := by decide
theorem test_wf_bmax_low : Config.bmaxInRange ⟨.w64, 16, 0⟩ = false ∧ Config.wellFormed ⟨.w64, 16, 0⟩ = false := by decide
theorem test_wf_bmax_high : Config.bmaxInRange ⟨.w64, 16, 2097168⟩ = false ∧
    Config.wellFormed ⟨.w64, 16, 2097168⟩ = false := by decide
theorem test_wf_every_command : ∀ i : Instr, i.wellFormed = true := fun i => by cases i <;> rfl

/-! ## Decoding: each command's word, RSV (56 zeros) above OPC in binary, from R70 and R72's table -/

theorem test_decode_split : decode (0#56 ++ 0b00000001#8) = .ok .split := by decide
theorem test_decode_near : decode (0#56 ++ 0b00000010#8) = .ok .near := by decide
theorem test_decode_lin : decode (0#56 ++ 0b00000011#8) = .ok .lin := by decide
theorem test_decode_herm : decode (0#56 ++ 0b00000100#8) = .ok .herm := by decide
theorem test_decode_saw : decode (0#56 ++ 0b00010000#8) = .ok .saw := by decide
theorem test_decode_sawd : decode (0#56 ++ 0b00010001#8) = .ok .sawd := by decide
theorem test_decode_pulse : decode (0#56 ++ 0b00010010#8) = .ok .pulse := by decide
theorem test_decode_tri : decode (0#56 ++ 0b00010011#8) = .ok .tri := by decide
theorem test_decode_tria : decode (0#56 ++ 0b00010100#8) = .ok .tria := by decide
theorem test_decode_bherm : decode (0#56 ++ 0b00100000#8) = .ok .bherm := by decide
/-- 95 section 6.1. -/
theorem test_decode_illegal : decode 0x104#64 = .error (.reservedBits 0x104#64) ∧
    decode 0x8000000000000010#64 = .error (.reservedBits 0x8000000000000010#64) ∧
    decode 0x00#64 = .error (.unassignedOpcode 0x00#8) ∧ decode 0xFF#64 = .error (.unassignedOpcode 0xFF#8) := by decide
theorem test_decode_table_word : decodeTableWord 64 0x20 = some .bherm ∧ decodeTableWord 64 0x21 = none := by decide

/-! ## One step of each command -/

/-- The step that issues a command. -/
def issued (s : State) (nbits w : Nat) : Result := step (s.withFetchWord nbits w)

/-- 95 section 2.2, TSIZE = 8. -/
theorem test_split : nextIs (issued (sampled 0x3000000000000000#64) 64 0x01)
    (fun t => t.index == 1#21 && t.frac == 0x3F000000#32 && t.result == 0#32) = true := by decide +kernel
/-- 95 section 2.2, W = 32 and TSIZE = 65536. -/
theorem test_split_w32 : nextIs (exec .split { State.resetWith ⟨.w32, 16, 1024⟩ with tsize := 65536#64, phase := 0x12345678#64 })
    (fun t => t.index == 4660#21 && t.frac == 0x3EACF0AD#32) = true := by decide +kernel
/-- 95 section 3.1: the phase's fraction is 1.0, the entry below it is delivered. -/
theorem test_near : nextIs (issued (sampled 0x7FFFFFFFFFFFFFFF#64) 64 0x02)
    (fun t => t.result == 0x3F000000#32) = true := by decide +kernel
/-- R112: a stored NaN keeps its payload. -/
theorem test_near_nan : nextIs (exec .near { State.reset with tsize := 2#64, tmem := [(0, 0x7F812345#32)] })
    (fun t => t.result == 0x7F812345#32) = true := by decide +kernel
/-- 95 section 3.1: the second neighbour wraps to TMEM[0]. -/
theorem test_lin : nextIs (issued (sampled 0xF000000000000000#64) 64 0x03)
    (fun t => t.result == 0xBE800000#32) = true := by decide +kernel
/-- 95 section 3.2, table Z4: LIN of -0.0 at a boundary is +0.0. -/
theorem test_lin_negative_zero : nextIs (exec .lin
      { State.reset with tsize := 4#64, tmem := [(0, 0x80000000#32), (1, 0x3F800000#32)] })
    (fun t => t.result == 0#32) = true := by decide +kernel
/-- 95 section 3.1. -/
theorem test_herm : nextIs (issued (sampled 0xD800000000000000#64) 64 0x04)
    (fun t => t.result == 0xBF260000#32) = true := by decide +kernel
/-- 95 section 3.2, table CR8: value x1 at f = 1 (90_conflicts.md C1). -/
theorem test_herm_interpolates : nextIs (exec .herm
      { State.reset with
        tsize := 8#64, tmem := [(0, 0#32), (1, 0#32), (2, 0x3F800000#32), (3, 0#32)], phase := 0x3FFFFFFFFFFFFFFF#64 })
    (fun t => t.result == 0x3F800000#32) = true := by decide +kernel
/-- 95 section 4.1. -/
theorem test_saw : nextIs (issued (shaped 0#32 0x0000004000008000#64) 64 0x10)
    (fun t => t.result == 0xBF7FFFFF#32) = true := by decide +kernel
theorem test_sawd : nextIs (issued (shaped 0#32 0xC000000000000000#64) 64 0x11)
    (fun t => t.result == 0xBF000000#32) = true := by decide +kernel
/-- 95 section 4.3. -/
theorem test_pulse_below : nextIs (issued (shaped 0x3EAAAAAB#32 0x5555557FFFFFFFFF#64) 64 0x12)
    (fun t => t.result == 0xBF800000#32) = true := by decide +kernel
theorem test_pulse_at : nextIs (issued (shaped 0x3EAAAAAB#32 0x5555558000000000#64) 64 0x12)
    (fun t => t.result == 0x3F800000#32) = true := by decide +kernel
/-- 95 section 4.1. -/
theorem test_tri : nextIs (issued (shaped 0#32 0x0000004000000001#64) 64 0x13)
    (fun t => t.result == 0xBF7FFFFF#32) = true := by decide +kernel
theorem test_tri_top : nextIs (issued (shaped 0#32 0x8000000000000000#64) 64 0x13)
    (fun t => t.result == 0x3F800000#32) = true := by decide +kernel
/-- 95 section 4.4 and section 1.2, scenario 4. -/
theorem test_tria_fall : nextIs (issued (shaped 0x3E800000#32 0x5555555555555555#64) 64 0x14)
    (fun t => t.result == 0x3F471C71#32) = true := by decide +kernel
theorem test_tria_rise : nextIs (issued (shaped 0x3F400000#32 0x2000000000000000#64) 64 0x14)
    (fun t => t.result == 0xBF2AAAAA#32) = true := by decide +kernel
/-- 95 section 5. -/
theorem test_bherm : nextIs (issued batched 64 0x20)
    (fun t => t.obuf == [(0, 0#32), (1, 0x3E800000#32), (2, 0x3F000000#32), (3, 0x3F500000#32), (4, 0x3F720000#32),
      (5, 0#32), (6, 0#32), (7, 0xBF000000#32), (8, 0xBE800000#32), (9, 0#32), (10, 0xBF260000#32),
      (11, 0x3E91A2B4#32), (12, 0xBC91A2B0#32), (13, 0x20800000#32), (14, 0x3F000000#32), (15, 0xBF11C000#32)]) = true := by
  decide +kernel
/-- 95 section 5, length vectors. -/
theorem test_bherm_bad_length : nextIs (issued { batched with blen := 8#32 } 64 0x20)
    (fun t => t.fault && t.fcode == .precondBlen && t.finfo == 8#64 && t.obuf == []) = true := by decide +kernel

/-! ## The port and the faults -/

/-- 95 section 6.2: HERM right after reset. -/
theorem test_fault_table : nextIs (issued State.reset 64 0x04)
    (fun t => t.readReg .status == 0x0201#64 && t.finfo == 0#64 && t.result == 0#32) = true := by decide +kernel
theorem test_fault_word : nextIs (issued State.reset 64 0x105)
    (fun t => t.readReg .status == 0x0101#64 && t.finfo == 0x105#64) = true := by decide +kernel
theorem test_fault_shape : nextIs (issued (shaped 0x3FC00000#32 0#64) 64 0x12)
    (fun t => t.readReg .status == 0x0401#64 && t.finfo == 0x3FC00000#64) = true := by decide +kernel
theorem test_fault_slope : nextIs (issued (shaped 0x3F800000#32 0#64) 64 0x14)
    (fun t => t.readReg .status == 0x0401#64 && t.finfo == 0x3F800000#64) = true := by decide +kernel
theorem test_tsize_12 : nextIs (step (atPort [.hostWrite 0x08#32 64 12#64]))
    (fun t => t.readReg .status == 0x0201#64 && t.finfo == 12#64 && t.tsize == 0#64) = true := by decide +kernel
theorem test_tsize_65536 : nextIs (step (atPort [.hostWrite 0x08#32 64 0x10000#64]))
    (fun t => t.readReg .status == 0#64 && t.readReg .geom == 0x3010#64) = true := by decide +kernel
/-- 95 section 7.1, line 2. -/
theorem test_geom : nextIs (step { sampled 0#64 with port := [.hostRead 0x10#32 64] })
    (fun t => t.rdata == some 0x3D03#64) = true := by decide +kernel
/-- 95 section 7.3, line 29, on the entry itself. -/
theorem test_read_obuf : nextIs (step { State.reset with obuf := [(11, 0x3E91A2B4#32)], port := [.hostRead 0x03000058#32 64] })
    (fun t => t.rdata == some 0x3E91A2B4#64) = true := by decide +kernel
/-- 20_memory.md R56, R58: a TMEM slot's last address, the first beyond it, an unmapped register offset (95 section
7.5), an unaligned one, and a narrow access. -/
theorem test_map : checkAccess Config.reference 0x0107FFF8#32 64 = .ok (.tmem 65535) ∧
    checkAccess Config.reference 0x01080000#32 64 = .error (.unmappedAddress 0x01080000#32) ∧
    checkAccess Config.reference 0x60#32 64 = .error (.unmappedAddress 0x60#32) ∧
    checkAccess Config.reference 0x0C#32 64 = .error (.misalignedAddress 0x0C#32) ∧
    checkAccess Config.reference 0x08#32 32 = .error (.accessWidth 32) := ⟨rfl, rfl, rfl, rfl, rfl⟩
/-- A command that reads an entry nothing has written (70_reset_and_hazards.md R201). -/
theorem test_unwritten : exec .near { State.reset with tsize := 8#64 } = .refused (.unwrittenTmem 0) := rfl
/-- 30_encoding.md R77, R78: the accesses of 95 section 7.1, lines 4 and 6 as an expansion. -/
theorem test_loadt : programEvents [.loadt [⟨false, 0, 0⟩, ⟨false, 5, 1⟩, ⟨true, 1, 0⟩]] =
    some [.hostWrite 0x01000000#32 64 0#64, .hostWrite 0x01000008#32 64 0x3F000000#64,
      .hostWrite 0x01000010#32 64 0xBF800000#64] := by decide +kernel


/-! ## Witnesses: for each obligation with hypotheses, a state and operands that meet them, each clause at its boundaries -/

theorem smallFilled_inv (es : List PortEvent) : (smallFilled es).Inv where
  cfgLegal   := by show small.wellFormed = true; decide
  tsizeLegal := .inr (by show legalSize small 2#64 = true; decide)
  phaseWidth := by show 0 < 2 ^ 32; decide
  indexWidth := by show 0 < 2 ^ 1; decide
  tmemForm   := by show Memory.wf [(0, 0x3F800000#32), (1, 0xBF800000#32)]; decide
  tmemWithin := by show ∀ c ∈ [(0, 0x3F800000#32), (1, 0xBF800000#32)], c.1 < 2 ^ 1; decide
  pbufForm   := by show Memory.wf ((List.range 16).map (fun i => (i, BitVec.ofNat 64 i))); decide +kernel
  pbufWithin := by show ∀ c ∈ (List.range 16).map (fun i => (i, BitVec.ofNat 64 i)), c.1 < 16; decide +kernel
  obufForm   := List.Pairwise.nil
  obufWithin := by intro c hc; cases hc
  pbufWidth  := by show ∀ c ∈ (List.range 16).map (fun i => (i, BitVec.ofNat 64 i)), c.2.toNat < 2 ^ 32; decide +kernel
  faultCode  := by show false = false ↔ FaultCode.none = FaultCode.none; decide
  faultInfo  := rfl

theorem smallFilled_filled (es : List PortEvent) : (smallFilled es).filled := by
  constructor
  · show ∀ i < 2 ^ 1, Memory.read [(0, 0x3F800000#32), (1, 0xBF800000#32)] i ≠ none; decide
  · show ∀ i < 16, Memory.read ((List.range 16).map (fun i => (i, BitVec.ofNat 64 i))) i ≠ none; decide +kernel

/-- R74's clauses, each at both ends. -/
theorem witness_IllegalWordFaults : ∀ w ∈ [0x104#64, 0xFFFFFFFFFFFFFFFF#64, 0#64, 0x05#64, 0x0F#64, 0x15#64, 0x1F#64, 0x21#64, 0xFF#64],
    ∃ (s : State) (rest : List PortEvent), s.port = .hostWrite 0x28#32 64 w :: rest ∧ s.fault = false ∧
      (w.toNat / 2 ^ 8 ≠ 0 ∨ w.toNat = 0 ∨ (0x05 ≤ w.toNat ∧ w.toNat ≤ 0x0F) ∨
        (0x15 ≤ w.toNat ∧ w.toNat ≤ 0x1F) ∨ (0x21 ≤ w.toNat ∧ w.toNat ≤ 0xFF)) := by
  intro w hw
  refine ⟨atPort [.hostWrite 0x28#32 64 w], [], rfl, rfl, ?_⟩
  revert w
  exact on_list (by decide +kernel)

theorem witness_ByteLanesCarryTheSlot : ∃ j : Nat, j < 8 ∧ j + 1 = 8 := ⟨7, by decide⟩

theorem witness_StepRunsTheDecodedCommand : ∃ (s : State) (w : CmdWord) (i : Instr) (rest : List PortEvent),
    s.port = .hostWrite 0x28#32 64 w :: rest ∧ decode w = .ok i :=
  ⟨atPort [.hostWrite 0x28#32 64 0x10#64], 0x10#64, .saw, [], rfl, by decide⟩

theorem witness_IdleBlockKeepsItsState : ∃ s : State, s.port = [] := ⟨State.reset, rfl⟩

/-- The first and the last entry of each window, at the largest and the smallest configuration, and a register. -/
theorem witness_AddressMapIsExact : ∀ p ∈ [((⟨.w64, 21, 2097152⟩ : Config), 0x01FFFFF8#32, Target.tmem 2097151),
      (⟨.w64, 21, 2097152⟩, 0x02FFFFF8#32, .pbuf 2097151), (⟨.w64, 21, 2097152⟩, 0x03FFFFF8#32, .obuf 2097151),
      (small, 0x01000008#32, .tmem 1), (small, 0x02000000#32, .pbuf 0), (small, 0x03000078#32, .obuf 15),
      (small, 0x58#32, .reg .finfo)],
    p.1.wellFormed = true ∧ p.2.1.toNat % 8 = 0 ∧ targetOf p.1 p.2.1 = some p.2.2 := on_list (by decide +kernel)

theorem witness_RefusedAccessHasNoStep : (∃ (s : State) (e : PortEvent) (rest : List PortEvent),
      s.cfg.wellFormed = true ∧ s.port = e :: rest ∧ acceptable s.cfg e) ∧
    (∃ (s : State) (e : PortEvent) (rest : List PortEvent),
      s.cfg.wellFormed = true ∧ s.port = e :: rest ∧ ¬ acceptable s.cfg e) :=
  ⟨⟨atPort [.hostRead 0x58#32 64], _, [], rfl, rfl, rfl, by decide, .inl (by decide)⟩,
   ⟨atPort [.hostRead 0x60#32 64], _, [], rfl, rfl, by
      rintro ⟨-, -, h⟩
      revert h
      show ¬ (0x60 ≤ 0x58 ∨ (0x01000000 ≤ 0x60 ∧ 0x60 < 0x01000000 + 8 * 2 ^ 16) ∨
        (0x02000000 ≤ 0x60 ∧ 0x60 < 0x02000000 + 8 * 1024) ∨ (0x03000000 ≤ 0x60 ∧ 0x60 < 0x03000000 + 8 * 1024))
      decide⟩⟩

theorem witness_OnlyUnwrittenEntriesAreRefused : (∃ (s : State), step s = .refused (.unwrittenTmem 0)) ∧
    (∃ (s : State), step s = .refused (.unwrittenPbuf 0)) :=
  ⟨⟨{ State.reset with tsize := 8#64, port := [.hostWrite 0x28#32 64 0x02#64] }, rfl⟩,
   ⟨{ State.reset with tsize := 8#64, tmem := t8, blen := 16#32, port := [.hostWrite 0x28#32 64 0x20#64] }, rfl⟩⟩

theorem witness_CapReportsTheConfiguration :
    (∃ (s : State) (rest : List PortEvent), s.cfg.wellFormed = true ∧ s.port = .hostRead 0x00#32 64 :: rest) ∧
    (∃ (s : State) (v : Slot) (rest : List PortEvent), s.port = .hostWrite 0x00#32 64 v :: rest) ∧
    (∃ s t : State, step s = .next t) :=
  ⟨⟨smallFilled [.hostRead 0x00#32 64], [], rfl, rfl⟩, ⟨atPort [.hostWrite 0x00#32 64 1#64], 1#64, [], rfl⟩,
   State.reset, _, rfl⟩

/-- TSIZE = 0, and both ends of the legal sizes. -/
theorem witness_GeomIsDerivedFromTsize : ∀ p ∈ [(0#64, 0), (2#64, 1), (65536#64, 16)],
    ∃ (s : State) (rest : List PortEvent), s.cfg.wellFormed = true ∧ s.port = .hostRead 0x10#32 64 :: rest ∧
      s.tsize = p.1 ∧ (p.2 ≠ 0 → 1 ≤ p.2 ∧ p.2 ≤ s.cfg.tmaxLog2 ∧ s.tsize.toNat = 2 ^ p.2) := by
  intro p hp
  refine ⟨{ State.reset with tsize := p.1, port := [.hostRead 0x10#32 64] }, [], reference_wf, rfl, rfl, ?_⟩
  revert p
  exact on_list (by decide +kernel)

theorem witness_RegistersReadZeroExtended : ∀ a ∈ [0x08#32, 0x18#32, 0x20#32, 0x28#32, 0x30#32, 0x38#32, 0x40#32,
    0x48#32, 0x50#32, 0x58#32], ∃ (s : State) (rest : List PortEvent), s.port = .hostRead a 64 :: rest :=
  fun a _ => ⟨atPort [.hostRead a 64], [], rfl⟩

theorem witness_ReadsChangeNothingAndRepeat : ∃ (s t : State) (a : Addr) (bits : Nat) (rest : List PortEvent),
    s.port = .hostRead a bits :: .hostRead a bits :: rest ∧ step s = .next t :=
  ⟨atPort [.hostRead 0x01000000#32 64, .hostRead 0x01000000#32 64], _, 0x01000000#32, 64, [], rfl, rfl⟩

/-- The last TMEM, the last PBUF and the last OBUF entry. -/
theorem witness_MemoryWritesAreReadBack :
    (∃ (s : State) (i : Nat) (v : Slot) (rest : List PortEvent), s.cfg.wellFormed = true ∧ s.fault = false ∧
      i < s.cfg.tmax ∧ i + 1 = s.cfg.tmax ∧
      s.port = .hostWrite (BitVec.ofNat 32 (0x01000000 + 8 * i)) 64 v ::
        .hostRead (BitVec.ofNat 32 (0x01000000 + 8 * i)) 64 :: rest) ∧
    (∃ (s : State) (i : Nat) (v : Slot) (rest : List PortEvent), s.cfg.wellFormed = true ∧ s.fault = false ∧
      i < s.cfg.bmax ∧ i + 1 = s.cfg.bmax ∧
      s.port = .hostWrite (BitVec.ofNat 32 (0x02000000 + 8 * i)) 64 v ::
        .hostRead (BitVec.ofNat 32 (0x02000000 + 8 * i)) 64 :: rest) ∧
    (∃ (s : State) (i : Nat) (x : Pattern) (rest : List PortEvent), s.cfg.wellFormed = true ∧ s.fault = false ∧
      i < s.cfg.bmax ∧ i + 1 = s.cfg.bmax ∧ Memory.read s.obuf i = some x ∧
      s.port = .hostRead (BitVec.ofNat 32 (0x03000000 + 8 * i)) 64 :: rest) :=
  ⟨⟨atPort [.hostWrite 0x0107FFF8#32 64 5#64, .hostRead 0x0107FFF8#32 64], 65535, 5#64, [], rfl, rfl,
     by show 65535 < 2 ^ 16; decide, rfl, rfl⟩,
   ⟨atPort [.hostWrite 0x02001FF8#32 64 5#64, .hostRead 0x02001FF8#32 64], 1023, 5#64, [], rfl, rfl,
     by show 1023 < 1024; decide, rfl, rfl⟩,
   ⟨{ atPort [.hostRead 0x03001FF8#32 64] with obuf := [(1023, 0xFFFFFFFF#32)] }, 1023, 0xFFFFFFFF#32, [], rfl, rfl,
     by show 1023 < 1024; decide, rfl, rfl, rfl⟩⟩

theorem witness_ReadOnlySlotsIgnoreWrites : (∀ a ∈ [0x00#32, 0x10#32, 0x30#32, 0x38#32, 0x40#32, 0x50#32, 0x58#32],
      ∃ (s : State) (v : Slot) (rest : List PortEvent), s.cfg.wellFormed = true ∧ s.port = .hostWrite a 64 v :: rest) ∧
    (∃ (s : State) (v : Slot) (rest : List PortEvent) (i : Nat), s.cfg.wellFormed = true ∧ i < s.cfg.bmax ∧
      s.port = .hostWrite (BitVec.ofNat 32 (0x03000000 + 8 * i)) 64 v :: rest) :=
  ⟨fun a _ => ⟨atPort [.hostWrite a 64 1#64], 1#64, [], reference_wf, rfl⟩,
   smallFilled [.hostWrite 0x03000078#32 64 1#64], 1#64, [], 15, rfl, by show 15 < 16; decide, rfl⟩

theorem witness_OperandRegistersStoreTheirBits : ∀ a ∈ [0x18#32, 0x20#32, 0x48#32],
    ∃ (s : State) (v : Slot) (rest : List PortEvent), s.fault = false ∧ s.port = .hostWrite a 64 v :: rest :=
  fun a _ => ⟨smallFilled [.hostWrite a 64 0xFFFFFFFFFFFFFFFF#64], _, [], rfl, rfl⟩

/-- Both ends of the legal sizes, and the values next to them. -/
theorem witness_TsizeWriteIsValidated :
    (∀ v ∈ [2#64, 65536#64], ∃ (s : State) (rest : List PortEvent), s.cfg.wellFormed = true ∧ s.fault = false ∧
      s.port = .hostWrite 0x08#32 64 v :: rest ∧ ∃ k, 1 ≤ k ∧ k ≤ s.cfg.tmaxLog2 ∧ v.toNat = 2 ^ k) ∧
    (∀ v ∈ [0#64, 1#64, 3#64, 131072#64, 0xFFFFFFFFFFFFFFFF#64], ∃ (s : State) (rest : List PortEvent),
      s.cfg.wellFormed = true ∧ s.fault = false ∧
      s.port = .hostWrite 0x08#32 64 v :: rest ∧ ¬ ∃ k, 1 ≤ k ∧ k ≤ s.cfg.tmaxLog2 ∧ v.toNat = 2 ^ k) := by
  constructor
  · intro v hv
    refine ⟨atPort [.hostWrite 0x08#32 64 v], [], reference_wf, rfl, rfl, ?_⟩
    simp only [List.mem_cons, List.not_mem_nil, or_false] at hv
    rcases hv with rfl | rfl
    · exact ⟨1, by decide, by decide, rfl⟩
    · exact ⟨16, by decide, by decide, rfl⟩
  · intro v hv
    refine ⟨atPort [.hostWrite 0x08#32 64 v], [], reference_wf, rfl, rfl, ?_⟩
    have key : ∀ v ∈ [0#64, 1#64, 3#64, 131072#64, 0xFFFFFFFFFFFFFFFF#64],
        ∀ k < 17, ¬ (1 ≤ k ∧ v.toNat = 2 ^ k) := on_list (by decide +kernel)
    rintro ⟨k, h1, h2, h3⟩
    exact key v hv k (Nat.lt_succ_of_le h2) ⟨h1, h3⟩

theorem witness_FaultedBlockIgnoresWrites :
    (∃ (s : State) (a : Addr) (rest : List PortEvent) (v : Slot), s.cfg.wellFormed = true ∧ s.fault = true ∧
      a.toNat % 8 = 0 ∧ mappedAddress s.cfg a.toNat ∧ s.port = .hostWrite a 64 v :: rest) ∧
    (∃ (s : State) (a : Addr) (rest : List PortEvent), s.cfg.wellFormed = true ∧ s.fault = true ∧
      a.toNat % 8 = 0 ∧ mappedAddress s.cfg a.toNat ∧ s.port = .hostRead a 64 :: rest) :=
  ⟨⟨(atPort [.hostWrite 0x58#32 64 1#64]).raise .illegalCmd 0#64, _, [], _, rfl, rfl, by decide, .inl (by decide), rfl⟩,
   ⟨(atPort [.hostRead 0x50#32 64]).raise .illegalCmd 0#64, _, [], rfl, rfl, by decide, .inl (by decide), rfl⟩⟩

theorem witness_FaultEntryWritesThreeFields : ∃ (s t : State) (e : PortEvent) (rest : List PortEvent),
    s.port = e :: rest ∧ s.fault = false ∧ step s = .next t ∧ t.fault = true :=
  ⟨atPort [.hostWrite 0x28#32 64 0x104#64], _, _, [], rfl, rfl, rfl, rfl⟩

theorem witness_FaultEndsOnlyByReset :
    (∃ (s t : State) (e : PortEvent) (rest : List PortEvent),
      s.port = e :: rest ∧ s.fault = true ∧ e ≠ .reset ∧ step s = .next t) ∧
    (∃ s t : State, s.fault = true ∧ step s = .next t ∧ t.fault = false) :=
  ⟨⟨(atPort [.hostWrite 0x28#32 64 0x10#64]).raise .illegalCmd 0#64, _, _, [], rfl, rfl, by decide, rfl⟩,
   ⟨(atPort [.reset]).raise .illegalCmd 0#64, _, rfl, rfl, rfl⟩⟩

theorem witness_FaultedRunLeavesTheBlockAlone : ∃ s : State, s.cfg.wellFormed = true ∧ s.fault = true ∧ s.port.length = 2 ∧
    ∀ e ∈ s.port, e ≠ .reset ∧ acceptable s.cfg e := by
  refine ⟨(atPort [.hostWrite 0x28#32 64 0x10#64, .hostRead 0x30#32 64]).raise .illegalCmd 0#64, rfl, rfl, rfl, ?_⟩
  intro e he
  have he : e ∈ [PortEvent.hostWrite 0x28#32 64 0x10#64, .hostRead 0x30#32 64] := he
  simp only [List.mem_cons, List.not_mem_nil, or_false] at he
  rcases he with rfl | rfl
  · exact ⟨by decide, rfl, by decide, .inl (by decide)⟩
  · exact ⟨by decide, rfl, by decide, .inl (by decide)⟩

theorem witness_ResetRestoresEveryRegister : (∃ (s : State) (rest : List PortEvent), s.port = .reset :: rest) ∧
    (∃ s t : State, s.fault = true ∧ step s = .next t ∧ t.fault = false) :=
  ⟨⟨smallFilled [.reset], [], rfl⟩, (atPort [.reset]).raise .shapeRange 0#64, _, rfl, rfl, rfl⟩

theorem witness_ResetUnwritesTheMemories : ∃ (s t : State) (rest : List PortEvent),
    s.port = .reset :: rest ∧ step s = .next t ∧ Memory.read s.tmem 0 ≠ none :=
  ⟨smallFilled [.reset], _, [], rfl, rfl, by decide⟩

/-- TSIZE = 0 with a bad BLEN as well; then BLEN = 8 (not a multiple), and 1040 (above BMAX). -/
theorem witness_TableThenBatchLengthAreChecked :
    (∃ s : State, s.fault = false ∧ s.tsize = 0#64 ∧ s.blen = 8#32) ∧
    (∀ b ∈ [8#32, 1040#32, 0xFFFFFFF0#32], ∃ s : State, s.fault = false ∧ s.tsize ≠ 0#64 ∧
      (s.blen.toNat % 16 ≠ 0 ∨ s.cfg.bmax < s.blen.toNat) ∧ s.blen = b) := by
  refine ⟨⟨{ State.reset with blen := 8#32 }, rfl, rfl, rfl⟩, fun b hb => ?_⟩
  refine ⟨{ batched with blen := b }, rfl, by show ¬ (8#64 = 0#64); decide, ?_, rfl⟩
  show b.toNat % 16 ≠ 0 ∨ 1024 < b.toNat
  revert b
  exact on_list (by decide +kernel)

/-- The patterns next to the legal ones: above 1.0, below -0.0's, NaN, infinities. -/
theorem witness_IllegalShapesFault :
    (∀ b ∈ [0x3F800001#32, 0x7F800000#32, 0x7FC00000#32, 0x7FFFFFFF#32, 0x80000001#32, 0xFFFFFFFF#32],
      ∃ s : State, s.fault = false ∧ ¬ (s.shape.toNat ≤ 0x3F800000 ∨ s.shape.toNat = 0x80000000) ∧ s.shape = b) ∧
    (∀ b ∈ [0#32, 0x3F800000#32, 0x7FC00000#32, 0x80000000#32, 0xFFFFFFFF#32],
      ∃ s : State, s.fault = false ∧ ¬ (0 < s.shape.toNat ∧ s.shape.toNat < 0x3F800000) ∧ s.shape = b) := by
  constructor
  all_goals
    intro b hb
    refine ⟨shaped b 0#64, rfl, ?_, rfl⟩
    simp only [shaped]
    revert b
    exact on_list (by decide +kernel)

theorem witness_EveryStepKeepsInv : ∃ s t : State, s.Inv ∧ step s = .next t ∧ t.tsize ≠ s.tsize :=
  ⟨smallFilled [.reset], _, smallFilled_inv _, rfl, by decide⟩

theorem witness_EveryStepKeepsFracInUnit : ∃ s t : State, s.Inv ∧ s.fracInUnit ∧ step s = .next t ∧ t.frac ≠ s.frac := by
  obtain ⟨t, h1, h2⟩ := next_of (r := step { smallFilled [.hostWrite 0x28#32 64 0x01#64] with phase := 0x7FFFFFFF#64 })
    (p := fun t => t.frac != 0#32) (by decide +kernel)
  refine ⟨_, t, ?_, ⟨0, by decide, by decide⟩, h1, ?_⟩
  · exact { smallFilled_inv [] with phaseWidth := by show 0x7FFFFFFF < 2 ^ 32; decide }
  · exact fun h => by rw [h] at h2; revert h2; decide

/-- A host that issues a command, reads the result, and overwrites the table. -/
theorem witness_FilledBlockNeverStops : ∃ s : State, s.Inv ∧ s.filled ∧ s.port.length = 3 ∧
    ∀ e ∈ s.port, e ≠ .reset ∧ acceptable s.cfg e := by
  refine ⟨smallFilled [.hostWrite 0x28#32 64 0x20#64, .hostRead 0x03000078#32 64, .hostWrite 0x01000008#32 64 1#64],
    smallFilled_inv _, smallFilled_filled _, rfl, ?_⟩
  intro e he
  have he : e ∈ [PortEvent.hostWrite 0x28#32 64 0x20#64, .hostRead 0x03000078#32 64, .hostWrite 0x01000008#32 64 1#64] := he
  simp only [List.mem_cons, List.not_mem_nil, or_false] at he
  rcases he with rfl | rfl | rfl
  · exact ⟨by decide, rfl, by decide, .inl (by decide)⟩
  · exact ⟨by decide, rfl, by decide, .inr (.inr (.inr ⟨by decide, by
      show 0x03000078 < 0x03000000 + 8 * 16; decide⟩))⟩
  · exact ⟨by decide, rfl, by decide, .inr (.inl ⟨by decide, by show 0x01000008 < 0x01000000 + 8 * 2 ^ 1; decide⟩)⟩

theorem witness_CommandsWriteOnlyTheirRow : ∀ i : Instr, ∃ s t : State, exec i s = .next t ∧ t.fault = s.fault := by
  intro i
  have h : ∀ i : Instr, nextIs (exec i batched) (fun t => t.fault == false) = true := by
    intro i; cases i <;> decide +kernel
  obtain ⟨t, h1, h2⟩ := next_of (h i)
  exact ⟨batched, t, h1, (beq_iff_eq.mp h2).trans rfl⟩

/-- The least and the greatest legal table size, with W = 64 and with W = 32. -/
theorem witness_SplitGivesIndexAndFraction : ∀ p ∈ [((⟨.w64, 21, 1024⟩ : Config), 1), (⟨.w64, 21, 1024⟩, 21),
      (⟨.w32, 21, 1024⟩, 1), (⟨.w32, 21, 1024⟩, 21)],
    ∃ s : State, s.cfg = p.1 ∧ s.cfg.wellFormed = true ∧ s.fault = false ∧ 1 ≤ p.2 ∧ p.2 ≤ s.cfg.tmaxLog2 ∧
      s.tsize.toNat = 2 ^ p.2 := by
  intro p hp
  refine ⟨{ State.resetWith p.1 with tsize := BitVec.ofNat 64 (2 ^ p.2) }, rfl, ?_⟩
  simp only [State.resetWith]
  revert p
  exact on_list (by decide +kernel)

theorem witness_NearCopiesTheEntry : ∃ (s : State) (k : Nat) (v : Pattern), s.cfg.wellFormed = true ∧ s.fault = false ∧
    1 ≤ k ∧ k ≤ s.cfg.tmaxLog2 ∧ s.tsize.toNat = 2 ^ k ∧
    Memory.read s.tmem (s.phase.toNat % 2 ^ s.cfg.w / 2 ^ (s.cfg.w - k)) = some v :=
  ⟨sampled 0xFFFFFFFFFFFFFFFF#64, 3, 0xBF000000#32, by decide +kernel⟩

/-- The last entry, whose successor wraps to entry 0. -/
theorem witness_LinInterpolatesTwoEntries : ∃ (s : State) (k i : Nat) (v0 v1 : Pattern), s.cfg.wellFormed = true ∧
    s.fault = false ∧ 1 ≤ k ∧ k ≤ s.cfg.tmaxLog2 ∧ s.tsize.toNat = 2 ^ k ∧
    i = s.phase.toNat % 2 ^ s.cfg.w / 2 ^ (s.cfg.w - k) ∧
    Memory.read s.tmem i = some v0 ∧ Memory.read s.tmem ((i + 1) % 2 ^ k) = some v1 :=
  ⟨sampled 0xF000000000000000#64, 3, 7, 0xBF000000#32, 0#32, by decide +kernel⟩

/-- The first entry, whose predecessor wraps to the last. -/
theorem witness_HermInterpolatesFourEntries : ∃ (s : State) (k i : Nat) (vm v0 v1 v2 : Pattern),
    s.cfg.wellFormed = true ∧ s.fault = false ∧ 1 ≤ k ∧ k ≤ s.cfg.tmaxLog2 ∧ s.tsize.toNat = 2 ^ k ∧
    i = s.phase.toNat % 2 ^ s.cfg.w / 2 ^ (s.cfg.w - k) ∧
    Memory.read s.tmem ((i + 2 ^ k - 1) % 2 ^ k) = some vm ∧ Memory.read s.tmem i = some v0 ∧
    Memory.read s.tmem ((i + 1) % 2 ^ k) = some v1 ∧ Memory.read s.tmem ((i + 2) % 2 ^ k) = some v2 :=
  ⟨sampled 0x1000000000000000#64, 3, 0, 0xBF000000#32, 0#32, 0x3F000000#32, 0x3F800000#32, by decide +kernel⟩

/-- T8 without the entries 3 to 5: what a batch of phases at index 7 needs, and more. -/
def partTable : State :=
  { batched with tmem := [(0, 0#32), (1, 0x3F000000#32), (2, 0x3F800000#32), (6, 0xBF800000#32), (7, 0xBF000000#32)]
                 pbuf := p16.map (fun c => (c.1, 0xF000000000000000#64)) }

/-- A block whose commands are refused, and one whose commands run; for BHERM an unwritten phase, an unwritten
neighbour of the last phase, and a table written only in part on which the batch runs. -/
theorem witness_SamplersRefuseUnwrittenEntries :
    (∃ (s : State) (k : Nat), s.cfg.wellFormed = true ∧ s.fault = false ∧ 1 ≤ k ∧ k ≤ s.cfg.tmaxLog2 ∧
      s.tsize.toNat = 2 ^ k ∧ ∃ r, exec .near s = .refused r) ∧
    (∃ (s : State) (k : Nat), s.cfg.wellFormed = true ∧ s.fault = false ∧ 1 ≤ k ∧ k ≤ s.cfg.tmaxLog2 ∧
      s.tsize.toNat = 2 ^ k ∧ ∃ t, exec .near s = .next t) ∧
    (∃ (s : State) (k : Nat), s.cfg.wellFormed = true ∧ s.fault = false ∧ 1 ≤ k ∧ k ≤ s.cfg.tmaxLog2 ∧
      s.tsize.toNat = 2 ^ k ∧ s.blen.toNat % 16 = 0 ∧ s.blen.toNat ≤ s.cfg.bmax ∧
      exec .bherm s = .refused (.unwrittenPbuf 0)) ∧
    (∃ (s : State) (k : Nat), s.cfg.wellFormed = true ∧ s.fault = false ∧ 1 ≤ k ∧ k ≤ s.cfg.tmaxLog2 ∧
      s.tsize.toNat = 2 ^ k ∧ s.blen.toNat % 16 = 0 ∧ s.blen.toNat ≤ s.cfg.bmax ∧
      ∃ r, exec .bherm s = .refused r ∧ Memory.read s.pbuf 15 ≠ none) ∧
    (∃ (s : State) (k : Nat), s.cfg.wellFormed = true ∧ s.fault = false ∧ 1 ≤ k ∧ k ≤ s.cfg.tmaxLog2 ∧
      s.tsize.toNat = 2 ^ k ∧ s.blen.toNat % 16 = 0 ∧ s.blen.toNat ≤ s.cfg.bmax ∧ Memory.read s.tmem 4 = none ∧
      ∃ t, exec .bherm s = .next t) := by
  have refusedBy : ∀ r : Result, (match r with | .refused _ => true | .next _ => false | .fault _ => false) = true →
      ∃ x, r = .refused x := by
    intro r h
    split at h
    · exact ⟨_, rfl⟩
    · cases h
    · cases h
  refine ⟨⟨{ State.reset with tsize := 65536#64 }, 16, by decide, by decide, by decide, by decide, by decide, _, rfl⟩,
    ⟨sampled 0#64, 3, by decide, by decide, by decide, by decide, by decide, runs (by decide +kernel)⟩,
    ⟨{ batched with pbuf := [] }, 3, by decide, by decide, by decide, by decide, by decide, by decide, by decide, rfl⟩,
    ?_, ⟨partTable, 3, by decide, by decide, by decide, by decide, by decide, by decide, by decide, by decide,
      runs (by decide +kernel)⟩⟩
  obtain ⟨r, hr⟩ := refusedBy (exec .bherm { batched with tmem := t8.take 7 }) (by decide +kernel)
  exact ⟨_, 3, by decide, by decide, by decide, by decide, by decide, by decide, by decide, r, hr, by decide⟩

theorem witness_SawAndSawdResults : ∃ s : State, s.fault = false := ⟨State.reset, rfl⟩
theorem witness_TriFoldsThePhase : ∃ s : State, s.fault = false := ⟨State.reset, rfl⟩

theorem witness_PulseComparesExactly : ∀ b ∈ [0#32, 0x3F800000#32, 0x80000000#32],
    ∃ s : State, s.fault = false ∧ (s.shape.toNat ≤ 0x3F800000 ∨ s.shape.toNat = 0x80000000) ∧ s.shape = b := by
  intro b hb
  refine ⟨shaped b 0#64, rfl, ?_, rfl⟩
  simp only [shaped]
  revert b
  exact on_list (by decide +kernel)

theorem witness_TriaSelectsItsRamp : ∀ b ∈ [1#32, 0x3F7FFFFF#32],
    ∃ s : State, s.fault = false ∧ 0 < s.shape.toNat ∧ s.shape.toNat < 0x3F800000 ∧ s.shape = b := by
  intro b hb
  refine ⟨shaped b 0#64, rfl, ?_⟩
  simp only [shaped]
  revert b
  exact on_list (by decide +kernel)

/-- A batch over a table written in part, and an empty batch over an unwritten one. -/
theorem witness_BatchWritesEveryElement : ∀ s ∈ [partTable, { partTable with blen := 0#32, tmem := [] }], ∃ k : Nat,
    s.cfg.wellFormed = true ∧ s.fault = false ∧ 1 ≤ k ∧ k ≤ s.cfg.tmaxLog2 ∧ s.tsize.toNat = 2 ^ k ∧
    s.blen.toNat % 16 = 0 ∧ s.blen.toNat ≤ s.cfg.bmax ∧
    (∀ i < s.blen.toNat, ∃ q, Memory.read s.pbuf i = some q ∧ ∀ d < 4,
      Memory.read s.tmem ((q.toNat % 2 ^ s.cfg.w / 2 ^ (s.cfg.w - k) + 2 ^ k + d - 1) % 2 ^ k) ≠ none) := by
  intro s hs
  simp only [List.mem_cons, List.not_mem_nil, or_false] at hs
  rcases hs with rfl | rfl
  · refine ⟨3, by decide, by decide, by decide, by decide, by decide, by decide, by decide, fun i hi => ?_⟩
    refine ⟨0xF000000000000000#64, ?_, by decide +kernel⟩
    have key : ∀ i < 16, Memory.read partTable.pbuf i = some 0xF000000000000000#64 := by decide +kernel
    exact key i hi
  · exact ⟨3, by decide, by decide, by decide, by decide, by decide, by decide, by decide, fun i hi => absurd hi (Nat.not_lt_zero i)⟩

theorem witness_BatchEqualsScalarHerm : ∃ (s t : State) (i : Nat) (q : BitVec 64), s.fault = false ∧
    exec .bherm s = .next t ∧ t.fault = false ∧ i < s.blen.toNat ∧ Memory.read s.pbuf i = some q := by
  obtain ⟨t, h1, h2⟩ := next_of (r := exec .bherm batched) (p := fun t => t.fault == false) (by decide +kernel)
  exact ⟨batched, t, 15, 0xA400000000000000#64, rfl, h1, by simpa using h2, by decide, by decide⟩

theorem witness_EqualPhasesGiveEqualOutputs : ∃ (s t : State) (i j : Nat), i ≠ j ∧ s.fault = false ∧
    exec .bherm s = .next t ∧ t.fault = false ∧ i < s.blen.toNat ∧ j < s.blen.toNat ∧
    Memory.read s.pbuf i = Memory.read s.pbuf j := by
  obtain ⟨t, h1, h2⟩ := next_of (p := fun t => t.fault == false)
    (r := exec .bherm { batched with pbuf := p16.map (fun c => (c.1, 0x3000000000000000#64)) }) (by decide +kernel)
  exact ⟨_, t, 0, 15, by decide, rfl, h1, by simpa using h2, by decide, by decide, by decide⟩

/-- Two blocks that differ in SHAPE, RESULT and an entry above the table. -/
theorem witness_SamplersArePure : ∀ i ∈ [Instr.near, .lin, .herm], ∃ s t s' : State, t ≠ s ∧
    s.fault = false ∧ t.fault = false ∧ s.tsize ≠ 0#64 ∧ t.cfg = s.cfg ∧ t.tsize = s.tsize ∧ t.phase = s.phase ∧
    (∀ j < s.tsize.toNat, Memory.read t.tmem j = Memory.read s.tmem j) ∧
    legalSize s.cfg s.tsize = true ∧ s.cfg.wellFormed = true ∧ exec i s = .next s' := by
  have h : ∀ i ∈ [Instr.near, .lin, .herm], nextIs (exec i (sampled 0x3000000000000000#64)) (fun _ => true) = true :=
    on_list (by decide +kernel)
  intro i hi
  obtain ⟨s', hs⟩ := runs (h i hi)
  refine ⟨sampled 0x3000000000000000#64,
    { sampled 0x3000000000000000#64 with shape := 1#32, result := 5#32, tmem := t8 ++ [(8, 7#32)] }, s', ?_⟩
  refine ⟨by decide, rfl, rfl, by decide, rfl, rfl, rfl, ?_, by decide, by decide, hs⟩
  show ∀ j < 8, Memory.read (t8 ++ [(8, 7#32)]) j = Memory.read t8 j
  decide

/-- Two blocks that differ in TSIZE and the table; one command that completes and one that faults. -/
theorem witness_TablelessCommandsArePure : ∀ i ∈ [Instr.saw, .sawd, .pulse, .tri, .tria], ∃ s t s' : State, t ≠ s ∧
    s.fault = false ∧ t.fault = false ∧ t.cfg = s.cfg ∧ t.phase = s.phase ∧ t.shape = s.shape ∧
    exec i s = .next s' ∧ s'.fault = false := by
  have h : ∀ i ∈ [Instr.saw, .sawd, .pulse, .tri, .tria],
      nextIs (exec i State.reset) (fun t => t.fault == false) = true := on_list (by decide +kernel)
  intro i hi
  obtain ⟨s', hs, hf⟩ := next_of (h i hi)
  exact ⟨State.reset, sampled 0#64, s', by decide, rfl, rfl, rfl, rfl, rfl, hs, by simpa using hf⟩

/-- A tie: 2^24 + 1 between its two neighbours, of which 2^24 is even in its last place. -/
theorem witness_RoundingIsNearestEven : ∃ n d m : Nat, 0 < d ∧ m % 2 ^ ulpExp m = 0 ∧ m ≠ roundMag n d ∧
    |(n : Int) - roundMag n d * d| = |(n : Int) - m * d| :=
  ⟨16777217, 1, 16777218, by decide +kernel⟩

theorem witness_AdditionRoundsTheExactSum :
    (∃ (a b : Bool) (m n : Nat), (if a then -(m : Int) else m) + (if b then -(n : Int) else n) ≠ 0) ∧
    (∃ (a b : Bool) (m n : Nat), (if a then -(m : Int) else m) + (if b then -(n : Int) else n) = 0 ∧ m ≠ 0) :=
  ⟨⟨true, false, 1, 0, by decide⟩, ⟨true, false, 1, 1, by decide⟩⟩

theorem witness_PatternsAndValuesCorrespond : (∀ b ∈ [0x80000000#32, 1#32, 0x7F7FFFFF#32, 0xFF800000#32],
      (f32of b).isNaN = false) ∧
    (∀ x ∈ [F32.nan, .inf true, .fin true 0, .fin false (2 ^ 277 - 2 ^ 253)], x.valid = true) ∧
    f32of 0x7F800001#32 = .nan := ⟨on_list (by decide +kernel), on_list (by decide +kernel), by decide +kernel⟩

/-- The legal sizes at both ends, for both widths (used by the statements on index, fraction and neighbours). -/
theorem witness_legal_sizes : ∀ p ∈ [((⟨.w64, 21, 16⟩ : Config), 1, 2#64), (⟨.w64, 21, 16⟩, 21, 2097152#64),
      (⟨.w32, 21, 16⟩, 1, 2#64), (⟨.w32, 21, 16⟩, 21, 2097152#64)],
    p.1.wellFormed = true ∧ 1 ≤ p.2.1 ∧ p.2.1 ≤ p.1.tmaxLog2 ∧ p.2.2.toNat = 2 ^ p.2.1 := on_list (by decide +kernel)

theorem witness_NeighboursWrapAroundTheTable : ∃ (c : Config) (k : Nat) (n : Slot) (i : BitVec c.w),
    c.wellFormed = true ∧ 1 ≤ k ∧ k ≤ c.tmaxLog2 ∧ n.toNat = 2 ^ k ∧ i.toNat = 0 :=
  ⟨small, 1, 2#64, 0#32, by decide, by decide, by decide, by decide, rfl⟩

theorem witness_IndexStaysInTheTable : ∃ (c : Config) (k : Nat) (n : Slot) (p q : BitVec c.w),
    c.wellFormed = true ∧ 1 ≤ k ∧ k ≤ c.tmaxLog2 ∧ n.toNat = 2 ^ k ∧ p.toNat = 0 ∧ q.toNat = 2 ^ c.w - 1 :=
  ⟨small, 1, 2#64, 0#32, 0xFFFFFFFF#32, by decide, by decide, by decide, by decide, rfl, rfl⟩

theorem witness_FractionStaysInUnit : ∃ (c : Config) (k : Nat) (n : Slot) (p q : BitVec c.w),
    c.wellFormed = true ∧ 1 ≤ k ∧ k ≤ c.tmaxLog2 ∧ n.toNat = 2 ^ k ∧
    p.toNat % 2 ^ (c.w - k) = 0 ∧ q.toNat % 2 ^ (c.w - k) = 2 ^ (c.w - k) - 1 ∧
    p.toNat % 2 ^ (c.w - k) ≤ q.toNat % 2 ^ (c.w - k) :=
  ⟨small, 1, 2#64, 0x80000000#32, 0x7FFFFFFF#32, by decide, by decide, by decide, by decide, rfl, rfl, by
    show 0x80000000 % 2 ^ 31 ≤ 0x7FFFFFFF % 2 ^ 31; decide⟩

theorem witness_SawDoesNotDecrease : (∃ (c : Config) (p q : BitVec c.w), p.toNat = 0 ∧ q.toNat = 1) ∧
    ∃ (c : Config) (p q : BitVec c.w), p.toNat ≤ q.toNat ∧ p.toNat = 0 ∧
    q.toNat = 2 ^ c.w - 1 :=
  ⟨⟨small, 0#32, 1#32, rfl, rfl⟩, small, 0#32, 0xFFFFFFFF#32, by show 0 ≤ 0xFFFFFFFF; decide, rfl, rfl⟩

theorem witness_PulseMidpoint : ∀ p ∈ [0x7FFFFFFFFFFFFFFF#64, 0x8000000000000000#64], ∃ s : State, s.fault = false ∧
    s.shape = 0x3F000000#32 ∧ s.phase = p ∧
    (s.phase.toNat % 2 ^ s.cfg.w ≤ 2 ^ (s.cfg.w - 1) - 1 ∨ 2 ^ (s.cfg.w - 1) ≤ s.phase.toNat % 2 ^ s.cfg.w) := by
  intro p hp
  refine ⟨shaped 0x3F000000#32 p, rfl, rfl, rfl, ?_⟩
  simp only [shaped, State.reset, State.resetWith]
  revert p
  exact on_list (by decide +kernel)

theorem witness_TriangleIsSymmetric : (∃ (c : Config) (p q : BitVec c.w), p.toNat + q.toNat = 2 ^ c.w - 1) ∧
    (∃ (c : Config) (p q : BitVec c.w), p.toNat < q.toNat ∧ q.toNat ≤ 2 ^ (c.w - 1) - 1) ∧
    (∃ (c : Config) (p q : BitVec c.w), 2 ^ (c.w - 1) ≤ p.toNat ∧ p.toNat < q.toNat) ∧
    (∃ (c : Config) (p : BitVec c.w), p.toNat = 2 ^ c.w - 1) :=
  ⟨⟨small, 0#32, 0xFFFFFFFF#32, rfl⟩,
   ⟨small, 0#32, 0x7FFFFFFF#32, by show 0 < 0x7FFFFFFF; decide, by show 0x7FFFFFFF ≤ 2 ^ 31 - 1; decide⟩,
   ⟨small, 0x80000000#32, 0xFFFFFFFF#32, by show 2 ^ 31 ≤ 0x80000000; decide, by
     show 0x80000000 < 0xFFFFFFFF; decide⟩,
   ⟨small, 0xFFFFFFFF#32, rfl⟩⟩

theorem witness_LinMeetsNearForAllFiniteEntries : ∃ v0 v1 : Pattern, (f32of v0).isFinite = true ∧ (f32of v1).isFinite = true :=
  ⟨0x3F800000#32, 0xBF800000#32, by decide, by decide⟩

theorem witness_LinMeetsNearAtBoundaries : ∀ v0 ∈ [0x3F800000#32, 0x80000000#32], ∃ v1 : Pattern,
    (f32of v0).isFinite = true ∧ (f32of v1).isFinite = true ∧ (fsub (f32of v1) (f32of v0)).isFinite = true := by
  intro v0 h
  refine ⟨0xBF800000#32, ?_⟩
  revert v0
  exact on_list (by decide +kernel)

theorem witness_HermMeetsNearAtBoundaries : ∃ (vm v0 v1 v2 : Pattern) (c w a : F32),
    c = fdiv (fsub (f32of v1) (f32of vm)) two ∧ w = fadd c (fsub (f32of v0) (f32of v1)) ∧
    a = fadd (fadd w (fsub (f32of v0) (f32of v1))) (fdiv (fsub (f32of v2) (f32of v0)) two) ∧
    c.isFinite = true ∧ a.isFinite = true ∧ (fneg (fadd w a)).isFinite = true ∧ (f32of v0).isFinite = true ∧
    v0 ≠ 0x80000000#32 :=
  ⟨0#32, 0x3F000000#32, 0x3F800000#32, 0x3F000000#32, _, _, _, rfl, rfl, rfl, by decide +kernel⟩

/-- The least and the greatest legal slope, the least normal one, at phase 0 and at maxPhase. -/
theorem witness_TriaClosesTheCycle : ∃ (c : Config) (p q : BitVec c.w), p.toNat = 0 ∧ q.toNat = 2 ^ c.w - 1 ∧
    ∀ m ∈ [1, 2 ^ 23, 2 ^ 149 - 2 ^ 125], representable m = true ∧ 0 < m ∧ m < 2 ^ 149 :=
  ⟨small, 0#32, 0xFFFFFFFF#32, rfl, rfl, on_list (by decide +kernel)⟩

/-- 0.5 and -1 as decimals. -/
theorem witness_PseudoInstructionsExpand : ∃ (xs : List Decimal) (ys : List F32),
    xs.length = 2 ∧ xs.map Decimal.exact = ys.map some :=
  ⟨[⟨false, 5, 1⟩, ⟨true, 1, 0⟩], [.fin false (2 ^ 148), .fin true (2 ^ 149)], by decide +kernel⟩

/-- A sum, a product and a quotient with non-zero operands; the ends of P2's range; a magnitude that rounds up to 2^128. -/
theorem witness_ArithmeticRoundsTheExactResult : (∃ n d : Nat, 0 < d ∧ n < 2 ^ 277 ∧ roundF32 true n d = .inf true) ∧
    (∃ n : Nat, 0 < n) ∧ (∃ k : Nat, k ≤ 127 ∧ k + 1 = 128) ∧ (∃ k : Nat, k ≤ 126 ∧ k + 1 = 127) :=
  ⟨⟨2 ^ 277 - 2 ^ 252, 1, by decide +kernel⟩, ⟨1, by decide⟩, ⟨127, by decide⟩, ⟨126, by decide⟩⟩

end Sys2Proof.Tests
end

section
/-! Rounding to nearest even, addition, and the primitives of binary32 (spec 00_scope.md R11): O45, O46 and O60. -/
namespace Sys2Proof.Machine

/-! ## The nearest whole number -/

/-- The multiples of `d` other than the rounded one lie a whole `d` away from it. -/
theorem mul_add_le_of_ne {r j : Nat} (d : Nat) (h : j ≠ r) : j * d + d ≤ r * d ∨ r * d + d ≤ j * d := by
  rw [← Nat.succ_mul, ← Nat.succ_mul]
  rcases Nat.lt_or_gt_of_ne h with hlt | hgt
  · exact .inl (Nat.mul_le_mul_right d hlt)
  · exact .inr (Nat.mul_le_mul_right d hgt)

/-- `roundHalfEven_near` with the rounded value as a multiple of `d`. -/
theorem roundHalfEven_mul_near {n d : Nat} (hd : 0 < d) :
    2 * n ≤ 2 * (roundHalfEven n d * d) + d ∧ 2 * (roundHalfEven n d * d) ≤ 2 * n + d := by
  have h := roundHalfEven_near (n := n) hd
  rwa [show 2 * d * roundHalfEven n d = 2 * (roundHalfEven n d * d) by ring] at h

/-- No whole number is nearer to `n / d` than the rounded one. -/
theorem roundHalfEven_closest {n d : Nat} (hd : 0 < d) (j : Nat) :
    |(n : Int) - (roundHalfEven n d * d : Nat)| ≤ |(n : Int) - (j * d : Nat)| := by
  obtain ⟨h1, h2⟩ := roundHalfEven_mul_near (n := n) hd
  rcases eq_or_ne j (roundHalfEven n d) with rfl | hne
  · rfl
  · have h3 := mul_add_le_of_ne d hne
    rcases abs_cases ((n : Int) - (roundHalfEven n d * d : Nat)) with h | h <;>
      rcases abs_cases ((n : Int) - (j * d : Nat)) with h' | h' <;> omega

/-- Where another whole number is as near, the two enclose a tie, and the rounded one is even. -/
theorem roundHalfEven_even_of_tie {n d j : Nat} (hd : 0 < d) (hne : j ≠ roundHalfEven n d)
    (h : |(n : Int) - (roundHalfEven n d * d : Nat)| = |(n : Int) - (j * d : Nat)|) :
    roundHalfEven n d % 2 = 0 := by
  obtain ⟨h1, h2⟩ := roundHalfEven_mul_near (n := n) hd
  have hfar := mul_add_le_of_ne d hne
  have hmid : 2 * n = roundHalfEven n d * d + j * d := by
    rcases abs_eq_abs.mp h with h | h <;> omega
  rcases hfar with hj | hj
  · refine roundHalfEven_tie (q := j) hd ?_
    rw [show 2 * d * j = 2 * (j * d) by ring]
    omega
  · refine roundHalfEven_tie (q := roundHalfEven n d) hd ?_
    rw [show 2 * d * roundHalfEven n d = 2 * (roundHalfEven n d * d) by ring]
    omega

/-! ## The nearest magnitude of 24 bits -/

theorem roundMag_mul (n d : Nat) :
    roundMag n d * d = roundHalfEven n (d * 2 ^ ulpExp (n / d)) * (d * 2 ^ ulpExp (n / d)) := by
  simp only [roundMag]
  ring

/-- The kept 24 bits of the result are the rounded whole number, or 2^23 after a carry into the next binade. -/
theorem roundMag_div_ulp {n d : Nat} (hd : 0 < d) :
    roundMag n d / 2 ^ ulpExp (roundMag n d) = roundHalfEven n (d * 2 ^ ulpExp (n / d)) ∨
      roundMag n d / 2 ^ ulpExp (roundMag n d) = 2 ^ 23 := by
  obtain ⟨h1, h2⟩ := roundMag_kept (n := n) hd
  simp only [roundMag]
  set k := ulpExp (n / d) with hk
  set r := roundHalfEven n (d * 2 ^ k) with hr
  rcases Nat.lt_or_eq_of_le h1 with hlt | heq
  · have hu : ulpExp (r * 2 ^ k) = k := by
      by_cases hk0 : k = 0
      · rw [hk0, Nat.pow_zero, Nat.mul_one, ulpExp_small hlt]
      · refine ulpExp_eq ?_ ?_ <;> rw [Nat.pow_add]
        · exact Nat.mul_le_mul_right _ (h2 hk0)
        · exact Nat.mul_lt_mul_of_pos_right hlt (Nat.two_pow_pos k)
    rw [hu]
    exact .inl (Nat.mul_div_cancel _ (Nat.two_pow_pos k))
  · have hm : r * 2 ^ k = 2 ^ 23 * 2 ^ (k + 1) := by rw [heq, ← Nat.pow_add, ← Nat.pow_add]; congr 1; omega
    have hu : ulpExp (2 ^ 23 * 2 ^ (k + 1)) = k + 1 := by
      rw [← Nat.pow_add]
      exact ulpExp_eq le_rfl (Nat.pow_lt_pow_right (by norm_num) (by omega))
    rw [hm, hu]
    exact .inr (Nat.mul_div_cancel _ (Nat.two_pow_pos (k + 1)))

/-- A 24-bit magnitude that is no multiple of `2^k` lies below the binade whose last place is `2^k`. -/
theorem grid_lt_of_not_dvd {m k : Nat} (hm : m % 2 ^ ulpExp m = 0) (h : ¬ 2 ^ k ∣ m) :
    k ≠ 0 ∧ m < 2 ^ (23 + k) := by
  have hlt : ulpExp m < k := by
    by_contra hle
    exact h ((Nat.pow_dvd_pow 2 (by omega)).trans (Nat.dvd_of_mod_eq_zero hm))
  exact ⟨by omega, (lt_two_pow_ulpExp m).trans_le (Nat.pow_le_pow_right (by norm_num) (by omega))⟩

/-- A magnitude below the binade of `n / d` is farther from it than the rounded one: the binade's least magnitude, which
the rounding could have picked, lies between. -/
theorem roundMag_closer_than_lower_binade {n d m : Nat} (hd : 0 < d) (hk : ulpExp (n / d) ≠ 0)
    (hm : m < 2 ^ (23 + ulpExp (n / d))) :
    |(n : Int) - (roundMag n d * d : Nat)| < |(n : Int) - (m * d : Nat)| := by
  have hle : 2 ^ (23 + ulpExp (n / d)) * d ≤ n := (Nat.le_div_iff_mul_le hd).mp (two_pow_ulpExp_le hk)
  have hlt : m * d < 2 ^ (23 + ulpExp (n / d)) * d := Nat.mul_lt_mul_of_pos_right hm hd
  have hnear := roundHalfEven_closest (n := n) (Nat.mul_pos hd (Nat.two_pow_pos (ulpExp (n / d)))) (2 ^ 23)
  rw [← roundMag_mul, show 2 ^ 23 * (d * 2 ^ ulpExp (n / d)) = 2 ^ (23 + ulpExp (n / d)) * d by
    rw [Nat.pow_add]; ring] at hnear
  refine hnear.trans_lt ?_
  rw [abs_of_nonneg (by omega), abs_of_nonneg (by omega)]
  omega

/-- Of all 24-bit magnitudes the rounded one is the nearest, and on a tie its last kept place is even. -/
theorem roundMag_closest {n d m : Nat} (hd : 0 < d) (hm : m % 2 ^ ulpExp m = 0) :
    |(n : Int) - (roundMag n d * d : Nat)| ≤ |(n : Int) - (m * d : Nat)| ∧
      (m ≠ roundMag n d → |(n : Int) - (roundMag n d * d : Nat)| = |(n : Int) - (m * d : Nat)| →
        roundMag n d / 2 ^ ulpExp (roundMag n d) % 2 = 0) := by
  by_cases hdvd : 2 ^ ulpExp (n / d) ∣ m
  · obtain ⟨j, rfl⟩ := hdvd
    have hp : 0 < d * 2 ^ ulpExp (n / d) := Nat.mul_pos hd (Nat.two_pow_pos _)
    rw [roundMag_mul, show 2 ^ ulpExp (n / d) * j * d = j * (d * 2 ^ ulpExp (n / d)) by ring]
    refine ⟨roundHalfEven_closest hp j, fun hne htie => ?_⟩
    have hj : j ≠ roundHalfEven n (d * 2 ^ ulpExp (n / d)) := by
      rintro rfl
      exact hne (by rw [roundMag, Nat.mul_comm])
    rcases roundMag_div_ulp (n := n) hd with h | h
    · rw [h]
      exact roundHalfEven_even_of_tie hp hj htie
    · rw [h]
      decide
  · obtain ⟨hk, hlt⟩ := grid_lt_of_not_dvd hm hdvd
    have hcloser := roundMag_closer_than_lower_binade hd hk hlt
    exact ⟨hcloser.le, fun _ htie => absurd htie hcloser.ne⟩

/-- Settles O45: multiples of the last kept place are compared as whole numbers, anything finer lies below the binade. -/
theorem roundingIsNearestEven : Obligations.RoundingIsNearestEven := by
  intro n d hd
  refine ⟨roundMag_grid hd, fun m hm => ?_⟩
  simpa only [Nat.cast_mul] using roundMag_closest (n := n) hd hm

/-! ## The primitives -/

theorem roundF32_zero (s : Bool) : roundF32 s 0 1 = .fin s 0 := roundF32_exact (m := 0) Nat.one_pos representable_zero

/-- Operands of one sign: the magnitudes add, and the sum has that sign. -/
theorem fadd_fin_same (a : Bool) (m n : Nat) : fadd (.fin a m) (.fin a n) = roundF32 a (m + n) 1 := by
  rw [fadd_fin, addFin, if_pos rfl]

/-- Operands of opposite signs: the magnitudes subtract, and the sum has the sign of the greater. -/
theorem fadd_fin_opposite {a b : Bool} (h : a ≠ b) (m n : Nat) :
    fadd (.fin a m) (.fin b n) =
      if n < m then roundF32 a (m - n) 1 else if m < n then roundF32 b (n - m) 1 else .fin false 0 := by
  rw [fadd_fin, addFin, if_neg h]

/-- A sum of sign `s` and magnitude `k`, not zero, is rounded with that sign; `z` is what a zero sum would give. -/
theorem additionRounds_of_sum {sum : Int} {s : Bool} {k : Nat} {z : F32} (hk : k ≠ 0)
    (h : sum = if s then -(k : Int) else k) :
    (sum ≠ 0 → roundF32 s k 1 = roundF32 (decide (sum < 0)) sum.natAbs 1) ∧ (sum = 0 → roundF32 s k 1 = z) := by
  have hne : sum ≠ 0 := by cases s <;> simp [h, hk]
  have hsign : decide (sum < 0) = s := by cases s <;> simp [h, Nat.pos_of_ne_zero hk]
  have habs : sum.natAbs = k := by cases s <;> simp [h]
  exact ⟨fun _ => by rw [hsign, habs], fun h0 => absurd h0 hne⟩

/-- Settles O46, for operands of one sign and of opposite signs. -/
theorem additionRoundsTheExactSum : Obligations.AdditionRoundsTheExactSum := by
  intro a b m n
  rcases eq_or_ne a b with rfl | hab
  · rw [fadd_fin_same]
    by_cases h0 : m + n = 0
    · obtain ⟨rfl, rfl⟩ := Nat.add_eq_zero_iff.mp h0
      simp [roundF32_zero]
    · exact additionRounds_of_sum h0 (by cases a <;> simp; omega)
  · obtain rfl : b = !a := Bool.eq_not_of_ne hab.symm
    rw [fadd_fin_opposite hab]
    rcases Nat.lt_trichotomy m n with hlt | rfl | hgt
    · rw [if_neg (Nat.lt_asymm hlt), if_pos hlt]
      exact additionRounds_of_sum (Nat.sub_ne_zero_of_lt hlt) (by cases a <;> simp <;> omega)
    · rw [if_neg (Nat.lt_irrefl m), if_neg (Nat.lt_irrefl m)]
      cases a <;> simp
    · rw [if_pos hgt]
      exact additionRounds_of_sum (Nat.sub_ne_zero_of_lt hgt) (by cases a <;> simp <;> omega)

/-- `roundF32` meets RN32's definition. -/
theorem roundF32_roundsTo (neg : Bool) {n d : Nat} (hd : 0 < d) : roundsTo neg n d (roundF32 neg n d) := by
  obtain ⟨hgrid, hnear⟩ := roundingIsNearestEven n d hd
  exact ⟨roundMag n d, hgrid, hnear, roundF32_eq neg n d⟩

theorem representable_two_pow {j : Nat} (h : j < 277) : representable (2 ^ j) = true := by
  rw [representable_iff, overflowMag]
  refine ⟨?_, grid_two_pow j⟩
  gcongr
  norm_num

/-- A power of two in P2's range is held exactly. -/
theorem cvt_two_pow {k : Nat} (h : k ≤ 127) : cvt (2 ^ k) = .fin false (2 ^ (k + 149)) := by
  have hrep : representable (2 ^ (k + 149)) = true := representable_two_pow (by omega)
  have hround := roundF32_exact (neg := false) Nat.one_pos hrep
  rwa [Nat.mul_one, Nat.pow_add, ← cvt_eq, ← Nat.pow_add] at hround

theorem p2_natCast (k : Nat) : p2 k = .fin false (2 ^ (k + 149)) := rfl

theorem p2_neg_natCast {k : Nat} (h : k ≤ 149) : p2 (-(k : Int)) = .fin false (2 ^ (149 - k)) := by
  rw [p2, show (-(k : Int) + 149).toNat = 149 - k by omega]

/-- The quotient of 1 by a power of two is exact. -/
theorem fdiv_one_two_pow {k : Nat} (h : k ≤ 126) :
    fdiv (cvt 1) (cvt (2 ^ k)) = .fin false (2 ^ (149 - k)) := by
  have hrep : representable (2 ^ (149 - k)) = true := representable_two_pow (by omega)
  have hone : cvt 1 = .fin false (2 ^ 149) := by simpa using cvt_two_pow (k := 0) (by omega)
  have hpos := Nat.two_pow_pos (k + 149)
  rw [hone, cvt_two_pow (by omega), fdiv_fin _ _ _ hpos.ne', ← Nat.pow_add,
    show 149 + 149 = 149 - k + (k + 149) by omega, Nat.pow_add]
  exact roundF32_exact hpos hrep

/-- Settles O60: each primitive is one `roundF32` on finite operands, and the special operands are its other cases. -/
theorem arithmeticRoundsTheExactResult : Obligations.ArithmeticRoundsTheExactResult := by
  refine ⟨fun neg n d hd => roundF32_roundsTo neg hd, ?_, ?_, ?_, ?_, fun x y => rfl, ?_, ?_⟩
  · intro a b m n
    rw [fmul_fin]
    exact roundF32_roundsTo _ (Nat.two_pow_pos 149)
  · intro a b m n hn
    rw [fdiv_fin a b m hn.ne']
    exact roundF32_roundsTo _ hn
  · intro n
    rw [cvt_eq]
    exact roundF32_roundsTo _ Nat.one_pos
  · intro k hk
    refine ⟨by rw [p2_natCast, cvt_two_pow hk], fun hk' => ?_⟩
    rw [p2_neg_natCast (by omega), fdiv_one_two_pow hk']
  · intro a b m n
    simp only [fneg, fdiv, fadd, fmul, if_true, and_self]
  · intro x
    cases x <;> simp only [fneg, fdiv, fadd, fmul, and_self]

end Sys2Proof.Machine
end

section
/-! Patterns and values of binary32 (spec 00_scope.md R11, 93_implementation_defined.md item 1): O47. -/
namespace Sys2Proof.Machine

/-! ## From a pattern to its value and back -/

/-- A pattern with exponent field 0 keeps its mantissa as the magnitude. -/
theorem magBits_subnormal {f : Nat} (hf : f < 2 ^ 23) : magBits f = f := by
  rw [magBits, ulpExp_small (by omega), Nat.zero_mul, Nat.zero_add, Nat.pow_zero, Nat.div_one]

/-- A magnitude with 24 significant bits gives back its exponent field and its mantissa. -/
theorem magBits_normal {e f : Nat} (he : e ≠ 0) (hf : f < 2 ^ 23) :
    magBits ((2 ^ 23 + f) * 2 ^ (e - 1)) = e * 2 ^ 23 + f := by
  have hu : ulpExp ((2 ^ 23 + f) * 2 ^ (e - 1)) = e - 1 := by
    refine ulpExp_eq ?_ ?_ <;> rw [Nat.pow_add]
    · exact Nat.mul_le_mul_right _ (by omega)
    · exact Nat.mul_lt_mul_of_pos_right (by omega) (Nat.two_pow_pos _)
  rw [magBits, hu, Nat.mul_div_cancel _ (Nat.two_pow_pos _)]
  omega

/-- A pattern is determined by its three fields. -/
theorem signed_fields (b : Pattern) :
    signed (b.getLsbD 31) ((b.extractLsb' 23 8).toNat * 2 ^ 23 + (b.extractLsb' 0 23).toNat) = b := by
  have he : (b.extractLsb' 23 8).toNat < 2 ^ 8 := (b.extractLsb' 23 8).isLt
  have hf : (b.extractLsb' 0 23).toNat < 2 ^ 23 := (b.extractLsb' 0 23).isLt
  refine BitVec.eq_of_toNat_eq ?_
  rw [signed_toNat (by omega), pattern_fields b, Nat.add_assoc]

theorem f32of_eq_nan_iff (b : Pattern) :
    f32of b = .nan ↔ (b.extractLsb' 23 8).toNat = 255 ∧ (b.extractLsb' 0 23).toNat ≠ 0 := by
  simp only [f32of]
  split
  next he =>
    split
    next hm => exact iff_of_false nofun fun h => h.2 hm
    next hm => exact iff_of_true rfl ⟨he, hm⟩
  next he => exact iff_of_false (by split <;> nofun) fun h => he h.1

/-- Every non-NaN pattern is the pattern of its value. -/
theorem bits_f32of {b : Pattern} (payload : BitVec 32) (h : (f32of b).isNaN = false) :
    (f32of b).bits payload = b := by
  have hf : (b.extractLsb' 0 23).toNat < 2 ^ 23 := (b.extractLsb' 0 23).isLt
  conv_rhs => rw [← signed_fields b]
  simp only [f32of] at h ⊢
  split at h
  next he =>
    split at h
    next hm =>
      rw [if_pos he, if_pos hm, he, hm]
      rfl
    next => cases h
  next he =>
    rw [if_neg he]
    split
    next he0 => rw [F32.bits, magBits_subnormal hf, he0, Nat.zero_mul, Nat.zero_add]
    next he0 => rw [F32.bits, magBits_normal he0 hf]

/-! ## From a value to its pattern and back -/

/-- The value of a sign over an exponent field and a mantissa. -/
theorem f32of_signed (s : Bool) {e f : Nat} (he : e < 256) (hf : f < 2 ^ 23) :
    f32of (signed s (e * 2 ^ 23 + f)) = if e = 255 then (if f = 0 then .inf s else .nan)
      else if e = 0 then .fin s f else .fin s ((2 ^ 23 + f) * 2 ^ (e - 1)) := by
  refine f32of_fields s e f he hf _ ?_
  rw [signed_toNat (by omega), Nat.add_assoc]

/-- Whatever the payload, the exponent is all ones and the mantissa is not zero, a zero one being replaced by 1. -/
theorem f32of_nanPattern (payload : BitVec 32) : f32of (nanPattern payload) = .nan := by
  have hf : (payload.extractLsb' 0 23).toNat < 2 ^ 23 := (payload.extractLsb' 0 23).isLt
  simp only [nanPattern]
  split
  next => exact f32of_signed (e := 255) _ (by omega) (f := 1) (by omega)
  next hne =>
    have hm : (payload.extractLsb' 0 23).toNat ≠ 0 := fun h => hne (BitVec.eq_of_toNat_eq h)
    exact (f32of_signed (e := 255) _ (by omega) hf).trans (by rw [if_pos rfl, if_neg hm])

/-- A NaN pattern is the one it picks as a payload. -/
theorem nanPattern_self {b : Pattern} (h : f32of b = .nan) : nanPattern b = b := by
  obtain ⟨he, hm⟩ := (f32of_eq_nan_iff b).mp h
  have hne : b.extractLsb' 0 23 ≠ 0#23 := by
    intro h0
    exact hm (by rw [h0]; rfl)
  conv_rhs => rw [← signed_fields b]
  simp only [nanPattern, if_neg hne, he, Nat.reduceMul, Nat.reducePow]

/-- Every value in the format is the value of its pattern. -/
theorem f32of_bits {x : F32} (payload : BitVec 32) (h : x.valid = true) : f32of (x.bits payload) = x := by
  cases x with
  | nan => exact f32of_nanPattern payload
  | inf s => exact f32of_signed (e := 255) (f := 0) s (by omega) (by omega)
  | fin s m =>
    obtain ⟨e, f, hbits, hf, he, hm⟩ := magBits_fields h
    rw [F32.bits, hbits, f32of_signed s (by omega) hf, if_neg he.ne, hm]
    split <;> rfl

/-- Settles O47, from the two round trips and what a NaN pattern is made of. -/
theorem patternsAndValuesCorrespond : Obligations.PatternsAndValuesCorrespond := by
  refine ⟨fun b payload h => bits_f32of payload h, fun x payload h => f32of_bits payload h, fun b => ⟨fun h => ?_, ?_⟩⟩
  · exact ⟨b, nanPattern_self h⟩
  · rintro ⟨payload, rfl⟩
    exact f32of_nanPattern payload

end Sys2Proof.Machine
end

section
/-! The invariant of the block (spec 10_state.md R24 to R38, 60_exceptions.md R180): each update keeps it, so every command,
every write and every step does: O27. -/
namespace Sys2Proof.Machine

variable {s t : State}

/-! ## The register and memory updates -/

/-- In a block that meets the invariant, FINFO is 0 while no fault is recorded (10_state.md R34). -/
theorem State.Inv.finfo_of_unfaulted (h : s.Inv) (hf : s.fault = false) : s.finfo = 0#64 := by
  have hinfo := h.faultInfo
  rwa [State.faultInfoRight, h.faultCode.mp hf] at hinfo

theorem faultInfoRight_of_none (hc : s.fcode = .none) (hi : s.finfo = 0#64) : s.faultInfoRight := by
  rwa [State.faultInfoRight, hc]

/-- The value of a pattern cut to W bits. -/
theorem setWidth_w_lt (c : Config) (v : Slot) : ((v.setWidth c.w).setWidth 64).toNat < 2 ^ c.w := by
  rw [BitVec.toNat_setWidth]
  exact (Nat.mod_le _ _).trans_lt (v.setWidth c.w).isLt

theorem State.Inv.accept (h : s.Inv) (rest : List PortEvent) : (s.accept rest).Inv := { h with }

theorem State.Inv.answer (h : s.Inv) (v : Slot) : (s.answer v).Inv := { h with }

theorem State.Inv.setTsize (h : s.Inv) {v : Slot} (hv : legalSize s.cfg v = true) : (s.setTsize v).Inv :=
  { h with tsizeLegal := .inr hv }

theorem State.Inv.setPhase (h : s.Inv) (v : Slot) : (s.setPhase v).Inv :=
  { h with phaseWidth := setWidth_w_lt s.cfg v }

/-- SHAPE is free to change only while FINFO need not repeat it. -/
theorem State.Inv.setShape (h : s.Inv) (hf : s.fault = false) (v : Slot) : (s.setShape v).Inv :=
  { h with faultInfo := faultInfoRight_of_none (h.faultCode.mp hf) (h.finfo_of_unfaulted hf) }

/-- BLEN is free to change only while FINFO need not repeat it. -/
theorem State.Inv.setBlen (h : s.Inv) (hf : s.fault = false) (v : Slot) : (s.setBlen v).Inv :=
  { h with faultInfo := faultInfoRight_of_none (h.faultCode.mp hf) (h.finfo_of_unfaulted hf) }

theorem State.Inv.setTmem (h : s.Inv) {i : Nat} (hi : i < s.cfg.tmax) (v : Slot) : (s.setTmem i v).Inv :=
  { h with
    tmemForm := Memory.write_wf h.tmemForm i _
    tmemWithin := Memory.write_within h.tmemWithin hi _ }

theorem State.Inv.setPbuf (h : s.Inv) {i : Nat} (hi : i < s.cfg.bmax) (v : Slot) : (s.setPbuf i v).Inv :=
  { h with
    pbufForm := Memory.write_wf h.pbufForm i _
    pbufWithin := Memory.write_within h.pbufWithin hi _
    pbufWidth := fun c hc => by
      rcases Memory.mem_write hc with rfl | hc
      · exact setWidth_w_lt s.cfg v
      · exact h.pbufWidth c hc }

theorem State.Inv.setResult (h : s.Inv) (b : Pattern) : (s.setResult b).Inv := { h with }

theorem State.Inv.setSample (h : s.Inv) (x : F32) : (s.setSample x).Inv := h.setResult _

theorem State.Inv.setSplit (h : s.Inv) {i : BitVec 21} (hi : i.toNat < s.cfg.tmax) (f : Pattern) :
    (s.setSplit i f).Inv := { h with indexWidth := hi }

theorem State.Inv.setObuf (h : s.Inv) {m : Memory 32} (hm : Memory.wf m) (hw : Memory.within m s.cfg.bmax) :
    (s.setObuf m).Inv := { h with obufForm := hm, obufWithin := hw }

theorem State.Inv.raise (h : s.Inv) {c : FaultCode} {v : Slot} (hc : c ≠ .none)
    (hv : (s.raise c v).faultInfoRight) : (s.raise c v).Inv :=
  { h with faultCode := by simp [hc], faultInfo := hv }

theorem State.Inv.takeReset (h : s.Inv) : s.takeReset.Inv where
  cfgLegal := h.cfgLegal
  tsizeLegal := .inl rfl
  phaseWidth := Nat.two_pow_pos _
  indexWidth := Nat.two_pow_pos _
  tmemForm := List.Pairwise.nil
  tmemWithin := nofun
  pbufForm := List.Pairwise.nil
  pbufWithin := nofun
  obufForm := List.Pairwise.nil
  obufWithin := nofun
  pbufWidth := nofun
  faultCode := iff_of_true rfl rfl
  faultInfo := rfl

/-! ## The commands -/

/-- A table that is set has a legal size, `2 ^ k` (10_state.md R24, 41_table_sampler.md R111). -/
theorem State.Inv.tsize_pow (h : s.Inv) (h0 : s.tsize ≠ 0#64) :
    ∃ k, 1 ≤ k ∧ k ≤ s.cfg.tmaxLog2 ∧ s.tsize.toNat = 2 ^ k :=
  (legalSize_iff h.cfgLegal).mp (h.tsizeLegal.resolve_left h0)

/-- The index of a legal table lies in the table (40_phasemath.md R105). -/
theorem phaseIndex_lt {w k : Nat} {n : Slot} (h : n.toNat = 2 ^ k) (hk : k ≤ w) (p : BitVec w) :
    (phaseIndex n p).toNat < 2 ^ k := by
  rw [phaseIndex_toNat h, Nat.div_lt_iff_lt_mul (Nat.two_pow_pos _), ← Nat.pow_add, Nat.add_sub_cancel' hk]
  exact p.isLt

/-- What SPLIT writes to INDEX fits the field of TMAX_LOG2 bits (10_state.md R30). -/
theorem State.Inv.splitIndex_lt (h : s.Inv) (h0 : s.tsize ≠ 0#64) :
    ((phaseIndex s.tsize s.phaseW).setWidth 21).toNat < s.cfg.tmax := by
  obtain ⟨k, -, hk, hn⟩ := h.tsize_pow h0
  have hlt := phaseIndex_lt hn (legal_pow_lt h.cfgLegal hk).le s.phaseW
  rw [BitVec.toNat_setWidth]
  calc _ ≤ (phaseIndex s.tsize s.phaseW).toNat := Nat.mod_le _ _
    _ < 2 ^ k := hlt
    _ ≤ s.cfg.tmax := Nat.pow_le_pow_right (by norm_num) hk

theorem legalSize_zero (c : Config) : legalSize c 0#64 = false := rfl

theorem legalBatch_le {c : Config} {b : BitVec 32} (h : legalBatch c b = true) : b.toNat ≤ c.bmax := by
  simp only [legalBatch, Bool.and_eq_true, decide_eq_true_eq] at h
  exact h.2

/-- What PULSE refuses as a width, TRIA refuses as a slope (42_tableless.md R135, R141). -/
theorem illegalSlope_of_illegalWidth {x : F32} (h : legalWidth x = false) : legalSlope x = false := by
  unfold legalWidth at h
  unfold legalSlope
  split at h
  · simp only [Bool.and_eq_false_iff, decide_eq_false_iff_not] at h ⊢
    omega
  · rfl

/-- A command keeps the invariant: INDEX is in range, OBUF within capacity, and each fault names its operand. -/
theorem Written.keeps_inv {i : Instr} (hw : Written s i t) (h : s.Inv) : t.Inv := by
  cases hw with
  | split h0 => exact h.setSplit (h.splitIndex_lt h0) _
  | near _ _ => exact h.setResult _
  | lin _ _ => exact h.setSample _
  | herm _ _ => exact h.setSample _
  | saw => exact h.setSample _
  | sawd => exact h.setSample _
  | pulse _ => exact h.setResult _
  | tri => exact h.setSample _
  | tria _ => exact h.setResult _
  | bherm _ hb hm =>
    exact h.setObuf (State.batch_wf hm h.obufForm) (State.batch_within hm (legalBatch_le hb) h.obufWithin)
  | noTable _ _ => exact h.raise nofun (legalSize_zero s.cfg)
  | badBatch _ hb => exact h.raise nofun ⟨rfl, hb⟩
  | badWidth hs => exact h.raise nofun ⟨rfl, illegalSlope_of_illegalWidth hs⟩
  | badSlope hs => exact h.raise nofun ⟨rfl, hs⟩

/-! ## The port -/

/-- A memory entry the address map reaches is below its memory's capacity (20_memory.md R56). -/
def Target.inRange (c : Config) : Target → Prop
  | .reg _  => True
  | .tmem i => i < c.tmax
  | .pbuf i => i < c.bmax
  | .obuf i => i < c.bmax

theorem targetOf_inRange {c : Config} {a : Addr} {x : Target} (h : targetOf c a = some x) : x.inRange c := by
  unfold targetOf at h
  split at h
  · obtain ⟨r, -, rfl⟩ := Option.map_eq_some_iff.mp h
    trivial
  · split at h
    · obtain ⟨i, hi, rfl⟩ := Option.map_eq_some_iff.mp h
      exact (slotIn_some.mp hi).2.2
    · split at h
      all_goals
        obtain ⟨i, hi, rfl⟩ := Option.map_eq_some_iff.mp h
        exact (slotIn_some.mp hi).2.2

/-- A host write to a slot in range of an unfaulted block keeps the invariant. -/
theorem Stored.keeps_inv {x : Target} {v : Slot} (hst : Stored s x v t) (hx : x.inRange s.cfg)
    (hf : s.fault = false) (h : s.Inv) : t.Inv := by
  cases hst with
  | tsize _ hv => exact h.setTsize hv
  | badTsize _ hv => exact h.raise nofun hv
  | phase _ => exact h.setPhase v
  | shape _ => exact h.setShape hf v
  | blen _ => exact h.setBlen hf v
  | command _ hw => exact hw.keeps_inv h
  | illegal hd => exact h.raise nofun ⟨_, hd⟩
  | readOnly _ _ => exact h
  | tmem _ _ => exact h.setTmem hx v
  | pbuf _ _ => exact h.setPbuf hx v
  | obuf _ _ => exact h

theorem Performed.keeps_inv {e : PortEvent} (hp : Performed s e t) (h : s.Inv) : t.Inv := by
  cases hp with
  | ignored _ _ => exact h
  | stored hx hf hst =>
    obtain ⟨-, -, htarget⟩ := checkAccess_ok hx
    exact hst.keeps_inv (targetOf_inRange htarget) hf h
  | returned _ => exact h.answer _
  | reset => exact h.takeReset

/-- Settles O27, by what a step can do: nothing, or the oldest event performed. -/
theorem everyStepKeepsInv : Obligations.EveryStepKeepsInv := by
  intro s t h hstep
  rcases step_next hstep with ⟨-, rfl⟩ | ⟨e, rest, -, hp⟩
  · exact h
  · exact hp.keeps_inv (h.accept rest)

end Sys2Proof.Machine
end

section
/-! The fraction of a phase lies in [+0.0, 1.0] (spec 40_phasemath.md R106): bounds on one rounding, and on the product
with a rounded reciprocal that R103 computes. -/
namespace Sys2Proof.Machine

/-! ## Bounds on one rounding -/

/-- Rounding cannot pass a power of two from below. -/
theorem roundMag_le_two_pow {n d j : Nat} (hd : 0 < d) (h : n ≤ 2 ^ j * d) : roundMag n d ≤ 2 ^ j := by
  rw [← roundMag_exact hd (grid_two_pow j)]
  exact roundMag_mono hd hd (Nat.mul_le_mul_right d h)

/-- Rounding cannot pass a power of two from above. -/
theorem two_pow_le_roundMag {n d j : Nat} (hd : 0 < d) (h : 2 ^ j * d ≤ n) : 2 ^ j ≤ roundMag n d := by
  rw [← roundMag_exact hd (grid_two_pow j)]
  exact roundMag_mono hd hd (Nat.mul_le_mul_right d h)

theorem two_pow_lt_overflowMag {j : Nat} (hj : j < 277) : 2 ^ j < overflowMag := by
  rw [overflowMag]
  gcongr
  norm_num

/-- A magnitude bounded by a power of two below 2^128 does not overflow. -/
theorem roundF32_eq_fin {neg : Bool} {n d j : Nat} (hd : 0 < d) (hj : j < 277) (h : n ≤ 2 ^ j * d) :
    roundF32 neg n d = .fin neg (roundMag n d) := by
  have hlt : roundMag n d < overflowMag :=
    (roundMag_le_two_pow hd h).trans_lt (two_pow_lt_overflowMag hj)
  rw [roundF32_eq, if_neg hlt.not_ge]

/-- The last kept place of a magnitude of at least 2^23 units is at most its 2^23rd part. -/
theorem lastPlace_le {n d : Nat} (hd : 0 < d) (h : 2 ^ 23 * d ≤ n) :
    2 ^ 23 * (d * 2 ^ ulpExp (n / d)) ≤ n := by
  by_cases hk : ulpExp (n / d) = 0
  · rwa [hk, Nat.pow_zero, Nat.mul_one]
  · have hq := (Nat.le_div_iff_mul_le hd).mp (two_pow_ulpExp_le hk)
    calc 2 ^ 23 * (d * 2 ^ ulpExp (n / d)) = 2 ^ (23 + ulpExp (n / d)) * d := by rw [Nat.pow_add]; ring
      _ ≤ n := hq

/-- One rounding of a normal magnitude adds at most its 2^24th part. -/
theorem roundMag_le_relative {n d : Nat} (hd : 0 < d) (h : 2 ^ 23 * d ≤ n) :
    2 ^ 24 * (roundMag n d * d) ≤ (2 ^ 24 + 1) * n := by
  have hplace := lastPlace_le hd h
  have hnear := (roundHalfEven_mul_near (n := n) (Nat.mul_pos hd (Nat.two_pow_pos (ulpExp (n / d))))).2
  rw [roundMag_mul]
  omega

/-! ## The fraction -/

/-- 1.0 and half a last place above it is a tie that rounds to 1.0. -/
theorem roundMag_tie_above_one : roundMag ((2 ^ 24 + 1) * 2 ^ 149) (2 ^ 24) = 2 ^ 149 := by
  decide

/-- A value of at least 1.0 times its rounded reciprocal, rounded, is at most 1.0: the reciprocal is too great by its 2^24th
part at most, which the tie rounds away. -/
theorem roundMag_mul_reciprocal_le_one {c : Nat} (hc : 2 ^ 149 ≤ c) (hc' : c ≤ 2 ^ 213) :
    roundMag (c * roundMag (2 ^ 149 * 2 ^ 149) c) (2 ^ 149) ≤ 2 ^ 149 := by
  have hnormal : 2 ^ 23 * c ≤ 2 ^ 149 * 2 ^ 149 :=
    calc 2 ^ 23 * c ≤ 2 ^ 23 * 2 ^ 213 := Nat.mul_le_mul_left _ hc'
      _ ≤ 2 ^ 149 * 2 ^ 149 := by norm_num
  have hrel := roundMag_le_relative ((Nat.two_pow_pos 149).trans_le hc) hnormal
  calc _ ≤ roundMag ((2 ^ 24 + 1) * 2 ^ 149) (2 ^ 24) := by
        refine roundMag_mono (Nat.two_pow_pos 149) (Nat.two_pow_pos 24) ?_
        rw [Nat.mul_comm c, Nat.mul_comm, Nat.mul_assoc _ (2 ^ 149)]
        exact hrel
    _ = 2 ^ 149 := roundMag_tie_above_one

theorem cvt_eq_fin {x : Nat} (hx : x ≤ 2 ^ 64) : cvt x = .fin false (roundMag (x * 2 ^ 149) 1) := by
  rw [cvt_eq]
  refine roundF32_eq_fin (j := 213) Nat.one_pos (by norm_num) ?_
  rw [Nat.mul_one, show 213 = 64 + 149 by rfl, Nat.pow_add]
  exact Nat.mul_le_mul_right _ hx

/-- The magnitude of `m / mask` as 40_phasemath.md R103 computes it: the reciprocal of the mask rounded, then the product. -/
def fractionMag (m mask : Nat) : Nat :=
  roundMag (roundMag (m * 2 ^ 149) 1 * roundMag (2 ^ 149 * 2 ^ 149) (roundMag (mask * 2 ^ 149) 1)) (2 ^ 149)

/-- The converted mask lies in [1.0, 2^64]. -/
theorem cvtMask_bounds {mask : Nat} (h1 : 1 ≤ mask) (h2 : mask ≤ 2 ^ 64) :
    2 ^ 149 ≤ roundMag (mask * 2 ^ 149) 1 ∧ roundMag (mask * 2 ^ 149) 1 ≤ 2 ^ 213 := by
  constructor
  · refine two_pow_le_roundMag Nat.one_pos ?_
    rw [Nat.mul_one]
    exact Nat.le_mul_of_pos_left _ h1
  · refine roundMag_le_two_pow Nat.one_pos ?_
    rw [Nat.mul_one, show 213 = 64 + 149 by rfl, Nat.pow_add]
    exact Nat.mul_le_mul_right _ h2

/-- The fraction does not decrease with m. -/
theorem fractionMag_mono {m m' : Nat} (mask : Nat) (h : m ≤ m') : fractionMag m mask ≤ fractionMag m' mask := by
  refine roundMag_mono (Nat.two_pow_pos 149) (Nat.two_pow_pos 149) (Nat.mul_le_mul_right _ (Nat.mul_le_mul_right _ ?_))
  exact roundMag_mono Nat.one_pos Nat.one_pos (Nat.mul_le_mul_right _ (Nat.mul_le_mul_right _ h))

/-- The fraction is at most 1.0. -/
theorem fractionMag_le_one {m mask : Nat} (h1 : 1 ≤ mask) (h2 : mask ≤ 2 ^ 64) (hm : m ≤ mask) :
    fractionMag m mask ≤ 2 ^ 149 := by
  obtain ⟨hlow, hhigh⟩ := cvtMask_bounds h1 h2
  exact (fractionMag_mono mask hm).trans (roundMag_mul_reciprocal_le_one hlow hhigh)

/-- `fmul(cvt(m), fdiv(1.0, cvt(mask)))` is finite and not negative: none of its four roundings overflows. -/
theorem fmul_cvt_reciprocal {m mask : Nat} (h1 : 1 ≤ mask) (h2 : mask ≤ 2 ^ 64) (hm : m ≤ mask) :
    fmul (cvt m) (fdiv one (cvt mask)) = .fin false (fractionMag m mask) := by
  obtain ⟨hlow, -⟩ := cvtMask_bounds h1 h2
  have hpos : 0 < roundMag (mask * 2 ^ 149) 1 := (Nat.two_pow_pos 149).trans_le hlow
  have hone : one = .fin false (2 ^ 149) := rfl
  have hle := fractionMag_le_one h1 h2 hm
  rw [cvt_eq_fin (hm.trans h2), cvt_eq_fin h2, hone, fdiv_fin _ _ _ hpos.ne',
    roundF32_eq_fin (j := 149) hpos (by norm_num) (Nat.mul_le_mul_left _ hlow), fmul_fin, roundF32_eq]
  exact if_neg (hle.trans_lt (two_pow_lt_overflowMag (by norm_num))).not_ge

/-- The fraction of a phase, for a table size `2 ^ k` below `2 ^ W` (40_phasemath.md R103). -/
theorem phaseFraction_eq_fin {w k : Nat} {n : Slot} (h : n.toNat = 2 ^ k) (hk : k < w) (hw : w ≤ 64) (p : BitVec w) :
    phaseFraction n p = .fin false (fractionMag (p.toNat % 2 ^ (w - k)) (2 ^ (w - k) - 1)) ∧
      fractionMag (p.toNat % 2 ^ (w - k)) (2 ^ (w - k) - 1) ≤ 2 ^ 149 := by
  have h1 : 2 ^ 1 ≤ 2 ^ (w - k) := Nat.pow_le_pow_right (by norm_num) (by omega)
  have h2 : 2 ^ (w - k) ≤ 2 ^ 64 := Nat.pow_le_pow_right (by norm_num) (by omega)
  have hm : p.toNat % 2 ^ (w - k) < 2 ^ (w - k) := Nat.mod_lt _ (Nat.two_pow_pos _)
  rw [phaseFraction_eq h]
  exact ⟨fmul_cvt_reciprocal (by omega) (by omega) (by omega), fractionMag_le_one (by omega) (by omega) (by omega)⟩

end Sys2Proof.Machine
end

section
/-! FRAC stays in [+0.0, 1.0] (spec 10_state.md R31): only SPLIT and reset write it: O28. -/
namespace Sys2Proof.Machine

variable {s t : State}

/-- SPLIT of a legal table leaves FRAC in [+0.0, 1.0]. -/
theorem splitFrac_inUnit (hc : s.cfg.wellFormed = true) {k : Nat} (hk : k ≤ s.cfg.tmaxLog2)
    (hn : s.tsize.toNat = 2 ^ k) (i : BitVec 21) (payload : BitVec 32) :
    (s.setSplit i ((phaseFraction s.tsize s.phaseW).bits payload)).fracInUnit := by
  obtain ⟨hfrac, hle⟩ := phaseFraction_eq_fin hn (legal_pow_lt hc hk) (w_le s.cfg) s.phaseW
  refine ⟨_, ?_, hle⟩
  rw [State.setSplit_frac, phaseFraction, f32of_bits _ fmul_valid, ← phaseFraction, hfrac]

/-- FRAC is 0 after a reset (70_reset_and_hazards.md R200). -/
theorem takeReset_fracInUnit (s : State) : s.takeReset.fracInUnit := by
  rw [State.fracInUnit, State.takeReset_frac]
  exact ⟨0, by decide, Nat.zero_le _⟩

theorem fracInUnit_of_frac_eq (h : t.frac = s.frac) (hs : s.fracInUnit) : t.fracInUnit := by
  rwa [State.fracInUnit, h]

/-- Of the commands only SPLIT writes FRAC. -/
theorem Written.keeps_fracInUnit {i : Instr} (hw : Written s i t) (h : s.Inv) (hs : s.fracInUnit) :
    t.fracInUnit := by
  cases hw with
  | split h0 =>
    obtain ⟨k, -, hk, hn⟩ := h.tsize_pow h0
    exact splitFrac_inUnit h.cfgLegal hk hn _ _
  | _ => exact fracInUnit_of_frac_eq (by simp) hs

theorem Stored.keeps_fracInUnit {x : Target} {v : Slot} (hst : Stored s x v t) (h : s.Inv) (hs : s.fracInUnit) :
    t.fracInUnit := by
  cases hst with
  | command _ hw => exact hw.keeps_fracInUnit h hs
  | _ => exact fracInUnit_of_frac_eq (by simp) hs

theorem Performed.keeps_fracInUnit {e : PortEvent} (hp : Performed s e t) (h : s.Inv) (hs : s.fracInUnit) :
    t.fracInUnit := by
  cases hp with
  | ignored _ _ => exact hs
  | stored _ _ hst => exact hst.keeps_fracInUnit h hs
  | returned _ => exact hs
  | reset => exact takeReset_fracInUnit s

/-- Settles O28: only SPLIT and reset write FRAC, SPLIT of a legal table by the invariant. -/
theorem everyStepKeepsFracInUnit : Obligations.EveryStepKeepsFracInUnit := by
  intro s t h hs hstep
  rcases step_next hstep with ⟨-, rfl⟩ | ⟨e, rest, -, hp⟩
  · exact hs
  · exact hp.keeps_fracInUnit (h.accept rest) hs

end Sys2Proof.Machine
end

section
/-! What an access to a register or a memory slot reaches and does (spec 10_state.md R20 to R39, 20_memory.md R55, R56): O5,
O10, O11, O12, O15 to O18. -/
namespace Sys2Proof.Machine

variable {s t : State} {rest : List PortEvent} {v : Slot} {r : Reg}

/-! ## The address map -/

/-- The slot of a register is the same in every configuration. -/
theorem checkAccess_reg (c : Config) (r : Reg) : checkAccess c (BitVec.ofNat 32 r.offset) 64 = .ok (.reg r) := by
  cases r <;> rfl

/-- An aligned offset up to FINFO's holds a register. -/
theorem ofOffset_isSome : ∀ n ≤ 0x58, n % 8 = 0 → ∃ r, Reg.ofOffset n = some r := by
  have hsome : ∀ n ≤ 0x58, n % 8 = 0 → (Reg.ofOffset n).isSome = true := by decide
  exact fun n h h8 => Option.isSome_iff_exists.mp (hsome n h h8)

/-- An address in a window holds one of its slots. -/
theorem slotIn_of_window {base cap a : Nat} (h1 : base ≤ a) (h2 : a < base + 8 * cap) :
    slotIn base cap a = some ((a - base) / 8) :=
  slotIn_some.mpr ⟨h1, rfl, by omega⟩

section
variable {c : Config} {a : Addr}

theorem targetOf_below_tmem (h : a.toNat < 0x01000000) : targetOf c a = (Reg.ofOffset a.toNat).map .reg :=
  if_pos h

theorem targetOf_tmem (h1 : 0x01000000 ≤ a.toNat) (h2 : a.toNat < 0x02000000) :
    targetOf c a = (slotIn 0x01000000 c.tmax a.toNat).map .tmem :=
  (if_neg h1.not_gt).trans (if_pos h2)

theorem targetOf_pbuf (h1 : 0x02000000 ≤ a.toNat) (h2 : a.toNat < 0x03000000) :
    targetOf c a = (slotIn 0x02000000 c.bmax a.toNat).map .pbuf :=
  (if_neg (Nat.not_lt.mpr (by omega : 0x01000000 ≤ a.toNat))).trans ((if_neg h1.not_gt).trans (if_pos h2))

theorem targetOf_obuf (h : 0x03000000 ≤ a.toNat) :
    targetOf c a = (slotIn 0x03000000 c.bmax a.toNat).map .obuf :=
  (if_neg (Nat.not_lt.mpr (by omega : 0x01000000 ≤ a.toNat))).trans
    ((if_neg (Nat.not_lt.mpr (by omega : 0x02000000 ≤ a.toNat))).trans (if_neg h.not_gt))

/-- An aligned mapped address reaches a target (20_memory.md R56). -/
theorem targetOf_of_mapped (hc : c.wellFormed = true) (h8 : a.toNat % 8 = 0) (h : mappedAddress c a.toNat) :
    ∃ x, targetOf c a = some x := by
  obtain ⟨-, -, -, -, hbmax, htmax⟩ := wf_bounds hc
  rcases h with h | ⟨h1, h2⟩ | ⟨h1, h2⟩ | ⟨h1, h2⟩
  · obtain ⟨r, hr⟩ := ofOffset_isSome _ h h8
    exact ⟨.reg r, by rw [targetOf_below_tmem (by omega), hr, Option.map_some]⟩
  · exact ⟨_, by rw [targetOf_tmem h1 (by omega), slotIn_of_window h1 h2, Option.map_some]⟩
  · exact ⟨_, by rw [targetOf_pbuf h1 (by omega), slotIn_of_window h1 h2, Option.map_some]⟩
  · exact ⟨_, by rw [targetOf_obuf h1, slotIn_of_window h1 h2, Option.map_some]⟩

/-- The slot of an OBUF entry. -/
theorem checkAccess_obuf {i : Nat} (hc : c.wellFormed = true) (hi : i < c.bmax) :
    checkAccess c (BitVec.ofNat 32 (0x03000000 + 8 * i)) 64 = .ok (.obuf i) := by
  obtain ⟨-, -, -, -, hbmax, -⟩ := wf_bounds hc
  have ha : (BitVec.ofNat 32 (0x03000000 + 8 * i)).toNat = 0x03000000 + 8 * i := by
    rw [BitVec.toNat_ofNat, Nat.mod_eq_of_lt (by omega)]
  have hslot : slotIn 0x03000000 c.bmax (0x03000000 + 8 * i) = some i := slotIn_some.mpr ⟨by omega, by omega, hi⟩
  refine checkAccess_of (by omega) ?_
  rw [targetOf_obuf (by omega), ha, hslot, Option.map_some]

end

/-! ## Accepted writes -/

/-- A faulted block ignores a write to any slot (10_state.md R21). -/
theorem writeTarget_faulted (h : s.fault = true) (x : Target) (v : Slot) : s.writeTarget x v = .next s := by
  simp [State.writeTarget, h]

theorem writeTarget_reg (h : s.fault = false) (r : Reg) (v : Slot) : s.writeTarget (.reg r) v = s.writeReg r v := by
  simp [State.writeTarget, h]

/-- A write to an OBUF slot is ignored, in a faulted block too (10_state.md R38). -/
theorem writeTarget_obuf (s : State) (i : Nat) (v : Slot) : s.writeTarget (.obuf i) v = .next s := by
  simp [State.writeTarget]

/-- A write to a mapped slot of a faulted block is a step that changes nothing of the block. -/
theorem write_step_faulted {a : Addr} {x : Target} (hf : s.fault = true) (hx : checkAccess s.cfg a 64 = .ok x)
    (hp : s.port = .hostWrite a 64 v :: rest) : step s = .next { s with port := rest, rdata := none } :=
  (write_step hp hx).trans (writeTarget_faulted (s := s.accept rest) hf x v)

/-! ## Reads and writes of a register -/

/-- A read of a register is a step that returns its value and changes nothing of the block. -/
theorem read_reg_step (r : Reg) (hp : s.port = .hostRead (BitVec.ofNat 32 r.offset) 64 :: rest) :
    step s = .next { s with port := rest, rdata := some (s.readReg r) } :=
  read_step hp (checkAccess_reg s.cfg r)

/-- A write of a register of an unfaulted block. -/
theorem write_reg_step (r : Reg) (hf : s.fault = false)
    (hp : s.port = .hostWrite (BitVec.ofNat 32 r.offset) 64 v :: rest) :
    step s = (s.accept rest).writeReg r v :=
  (write_step hp (checkAccess_reg s.cfg r)).trans (writeTarget_reg (s := s.accept rest) hf r v)

/-- The registers a host write does not reach (10_state.md R20). -/
def Reg.readOnly : Reg → Bool
  | .cap | .geom | .result | .index | .frac | .status | .finfo => true
  | .tsize | .phase | .shape | .cmd | .blen => false

theorem writeReg_readOnly (h : r.readOnly = true) (s : State) (v : Slot) : s.writeReg r v = .next s := by
  cases r
  case tsize | phase | shape | cmd | blen => cases h
  all_goals rfl

/-- A write to a read-only register changes nothing, in a faulted block too. -/
theorem write_readOnly_step (r : Reg) (h : r.readOnly = true)
    (hp : s.port = .hostWrite (BitVec.ofNat 32 r.offset) 64 v :: rest) :
    step s = .next { s with port := rest, rdata := none } := by
  rcases Bool.eq_false_or_eq_true s.fault with hf | hf
  · exact write_step_faulted hf (checkAccess_reg s.cfg r) hp
  · exact (write_reg_step r hf hp).trans (writeReg_readOnly h _ v)

/-! ## Commands at the port -/

theorem exec_faulted (i : Instr) (h : s.fault = true) : exec i s = .next s := by
  cases i <;> exact State.command_faulted h

/-- Settles O5: an unfaulted block issues the word, a faulted one ignores it, and so does exec. -/
theorem stepRunsTheDecodedCommand : Obligations.StepRunsTheDecodedCommand := by
  intro s w i rest hp hd
  change step s = exec i (s.accept rest)
  rcases Bool.eq_false_or_eq_true s.fault with hf | hf
  · exact (write_step_faulted hf (cmd_target s.cfg) hp).trans (exec_faulted (s := s.accept rest) i hf).symm
  · rw [write_reg_step .cmd hf hp, State.writeReg, State.issue, hd]

/-! ## CAP -/

theorem Written.cfg_eq {i : Instr} (hw : Written s i t) : t.cfg = s.cfg := by
  cases hw <;> simp

theorem Stored.cfg_eq {x : Target} (hst : Stored s x v t) : t.cfg = s.cfg := by
  cases hst with
  | command _ hw => exact hw.cfg_eq
  | _ => simp

/-- No step changes the configuration (10_state.md R23). -/
theorem step_cfg (h : step s = .next t) : t.cfg = s.cfg := by
  rcases step_next h with ⟨-, rfl⟩ | ⟨e, rest, -, hp⟩
  · rfl
  · cases hp with
    | ignored _ _ => rfl
    | stored _ _ hst => exact hst.cfg_eq
    | returned _ => rfl
    | reset => rfl

/-- CAP of a legal configuration is the sum of its fields at their places: the sum fits 64 bits. -/
theorem capWord_sum {c : Config} (hc : c.wellFormed = true) :
    (capWord c).toNat = c.w + c.tmaxLog2 * 2 ^ 8 + 8 * 2 ^ 16 + 16 * 2 ^ 24 + c.bmax * 2 ^ 32 := by
  obtain ⟨-, htmax, -, -, hbmax, -⟩ := wf_bounds hc
  have hw := w_le c
  have hlt : c.w + c.tmaxLog2 * 2 ^ 8 + 8 * 2 ^ 16 + 16 * 2 ^ 24 + c.bmax * 2 ^ 32 < 2 ^ 64 := by omega
  exact (capWord_toNat c).trans (Nat.mod_eq_of_lt hlt)

/-- Five fields of 8, 8, 8, 8 and 32 bits, read back from their sum. -/
theorem fields_of_sum {w k b v : Nat} (hw : w < 2 ^ 8) (hk : k < 2 ^ 8) (hb : b < 2 ^ 32)
    (hv : v = w + k * 2 ^ 8 + 8 * 2 ^ 16 + 16 * 2 ^ 24 + b * 2 ^ 32) :
    v / 2 ^ 0 % 2 ^ 8 = w ∧ v / 2 ^ 8 % 2 ^ 8 = k ∧ v / 2 ^ 16 % 2 ^ 8 = 8 ∧ v / 2 ^ 24 % 2 ^ 8 = 16 ∧
      v / 2 ^ 32 % 2 ^ 32 = b := by
  omega

theorem field_toNat (x : Slot) (i n : Nat) : (x.extractLsb' i n).toNat = x.toNat / 2 ^ i % 2 ^ n := by
  rw [BitVec.extractLsb'_toNat, Nat.shiftRight_eq_div_pow]

/-- CAP's fields, for a legal configuration: each fits its bits. -/
theorem capWord_fields {c : Config} (hc : c.wellFormed = true) :
    ((capWord c).extractLsb' 0 8).toNat = c.w ∧ ((capWord c).extractLsb' 8 8).toNat = c.tmaxLog2 ∧
      ((capWord c).extractLsb' 16 8).toNat = 8 ∧ ((capWord c).extractLsb' 24 8).toNat = 16 ∧
      ((capWord c).extractLsb' 32 32).toNat = c.bmax := by
  obtain ⟨-, htmax, -, -, hbmax, -⟩ := wf_bounds hc
  have hw := w_le c
  rw [field_toNat, field_toNat, field_toNat, field_toNat, field_toNat]
  exact fields_of_sum (by omega) (by omega) (by omega) (capWord_sum hc)

/-- Settles O10, from what a read, a write and a step do and from CAP's fields. -/
theorem capReportsTheConfiguration : Obligations.CapReportsTheConfiguration := by
  refine ⟨fun s rest hc hp => ⟨_, read_reg_step .cap hp, capWord_fields hc⟩, fun s v rest hp => ?_, fun s t => step_cfg, ?_⟩
  · exact write_readOnly_step .cap rfl hp
  · rfl

/-! ## GEOM -/

/-- GEOM of a table size `2 ^ k` (10_state.md R25). -/
theorem geomWord_pow (c : Config) {n : Slot} {k : Nat} (h : n.toNat = 2 ^ k) :
    geomWord c n = BitVec.ofNat 64 (k + (c.w - k) * 2 ^ 8) := by
  rw [geomWord, if_neg (tsize_ne_zero h), fractionBits, indexBits_pow h]

/-- Settles O11: a read of GEOM returns `geomWord`, without a table and with one. -/
theorem geomIsDerivedFromTsize : Obligations.GeomIsDerivedFromTsize := by
  intro s rest _ hp
  rw [read_reg_step .geom hp, State.readReg]
  refine ⟨fun h0 => ?_, fun k _ _ hn => ?_⟩
  · rw [geomWord, if_pos h0]
  · rw [geomWord_pow s.cfg hn]

/-! ## The other registers -/

/-- STATUS in numbers: FAULT in bit 0, FCODE in bits 15 to 8 (10_state.md R33). -/
theorem statusWord_toNat (fault : Bool) (code : FaultCode) :
    (statusWord fault code).toNat = (if fault then 1 else 0) + 2 ^ 8 * code.toByte.toNat := by
  cases fault <;> cases code <;> rfl

/-- Settles O12: each address of the list is a register's, and each value that register's reading. -/
theorem registersReadZeroExtended : Obligations.RegistersReadZeroExtended := by
  intro s rest a n hp hmem
  simp only [List.mem_cons, Prod.mk.injEq, List.not_mem_nil, or_false] at hmem
  rcases hmem with ⟨rfl, rfl⟩ | ⟨rfl, rfl⟩ | ⟨rfl, rfl⟩ | ⟨rfl, rfl⟩ | ⟨rfl, rfl⟩ | ⟨rfl, rfl⟩ | ⟨rfl, rfl⟩ |
    ⟨rfl, rfl⟩ | ⟨rfl, rfl⟩ | ⟨rfl, rfl⟩
  · exact ⟨_, read_reg_step .tsize hp, rfl⟩
  · exact ⟨_, read_reg_step .phase hp, rfl⟩
  · exact ⟨_, read_reg_step .shape hp, BitVec.toNat_setWidth_of_le (by norm_num)⟩
  · exact ⟨_, read_reg_step .cmd hp, rfl⟩
  · exact ⟨_, read_reg_step .result hp, BitVec.toNat_setWidth_of_le (by norm_num)⟩
  · exact ⟨_, read_reg_step .index hp, BitVec.toNat_setWidth_of_le (by norm_num)⟩
  · exact ⟨_, read_reg_step .frac hp, BitVec.toNat_setWidth_of_le (by norm_num)⟩
  · exact ⟨_, read_reg_step .blen hp, BitVec.toNat_setWidth_of_le (by norm_num)⟩
  · refine ⟨_, read_reg_step .status hp, (statusWord_toNat s.fault s.fcode).trans ?_⟩
    cases s.fcode <;> rfl
  · exact ⟨_, read_reg_step .finfo hp, rfl⟩

/-! ## Writes -/

/-- Settles O15: the seven addresses are those of the read-only registers. -/
theorem readOnlySlotsIgnoreWrites : Obligations.ReadOnlySlotsIgnoreWrites := by
  intro s a v rest hc ha hp
  rcases ha with ha | ⟨i, hi, rfl⟩
  · simp only [List.mem_cons, List.not_mem_nil, or_false] at ha
    rcases ha with rfl | rfl | rfl | rfl | rfl | rfl | rfl
    · exact write_readOnly_step .cap rfl hp
    · exact write_readOnly_step .geom rfl hp
    · exact write_readOnly_step .result rfl hp
    · exact write_readOnly_step .index rfl hp
    · exact write_readOnly_step .frac rfl hp
    · exact write_readOnly_step .status rfl hp
    · exact write_readOnly_step .finfo rfl hp
  · exact (write_step hp (checkAccess_obuf hc hi)).trans (writeTarget_obuf _ i v)

/-- Cutting to W bits is a remainder (10_state.md R26). -/
theorem setWidth_w_eq (w : Nat) (v : Slot) :
    (v.setWidth w).setWidth 64 = BitVec.ofNat 64 (v.toNat % 2 ^ w) := by
  rw [← BitVec.toNat_setWidth, BitVec.ofNat_toNat]

/-- Settles O16: each write stores the low bits of its register's width. -/
theorem operandRegistersStoreTheirBits : Obligations.OperandRegistersStoreTheirBits := by
  intro s v rest hf
  refine ⟨fun hp => ?_, fun hp => ?_, fun hp => ?_⟩
  · rw [write_reg_step .phase hf hp, State.writeReg, State.setPhase, State.accept_cfg, setWidth_w_eq]
    rfl
  · rw [write_reg_step .shape hf hp, State.writeReg, State.setShape, BitVec.ofNat_toNat]
    rfl
  · rw [write_reg_step .blen hf hp, State.writeReg, State.setBlen, BitVec.ofNat_toNat]
    rfl

/-- Settles O17: the powers of two of the statement are the sizes `legalSize` accepts. -/
theorem tsizeWriteIsValidated : Obligations.TsizeWriteIsValidated := by
  intro s v rest hc hf hp
  rw [write_reg_step .tsize hf hp, State.writeReg, State.writeTsize, State.accept_cfg, ← legalSize_iff hc]
  refine ⟨fun hv => ?_, fun hv => ?_⟩
  · rw [if_pos hv]
    rfl
  · rw [if_neg hv]
    rfl

/-- Settles O18: an aligned mapped address reaches a target, whose write is ignored and whose read is answered. -/
theorem faultedBlockIgnoresWrites : Obligations.FaultedBlockIgnoresWrites := by
  intro s a rest hc hf h8 hmapped
  obtain ⟨x, hx⟩ := targetOf_of_mapped hc h8 hmapped
  have haccess := checkAccess_of h8 hx
  exact ⟨fun v hp => write_step_faulted hf haccess hp, fun hp => ⟨x, hx, read_step hp haccess⟩⟩

end Sys2Proof.Machine
end

section
/-! The address map, the accesses the port refuses, and what a read and a memory write do (spec 20_memory.md R52 to R61,
10_state.md R35 to R38): O4, O7, O8, O13 and O14. -/
namespace Sys2Proof.Machine

/-! ## Byte lanes -/

/-- Lane `j` is the `j`-th base-256 digit (20_memory.md R59). -/
theorem laneOf_toNat (v : Slot) (j : Nat) : (laneOf v j).toNat = v.toNat / 256 ^ j % 256 := by
  rw [laneOf, field_toNat, Nat.pow_mul]
  rfl

/-- `n` consecutive lanes from lane `j` on, the least first, hold `n` base-256 digits. -/
theorem foldr_lanes (v : Slot) (j n : Nat) :
    ((List.range' j n).map (laneOf v)).foldr (fun b m => b.toNat + 256 * m) 0 = v.toNat / 256 ^ j % 256 ^ n := by
  induction n generalizing j with
  | zero => rw [Nat.pow_zero, Nat.mod_one]; rfl
  | succ n ih =>
    rw [List.range'_succ, List.map_cons, List.foldr_cons, ih, laneOf_toNat, Nat.pow_succ' (n := n), Nat.mod_mul,
      Nat.div_div_eq_div_mul, ← Nat.pow_succ]

/-- Settles O4: eight lanes hold all of a slot's base-256 digits. -/
theorem byteLanesCarryTheSlot : Obligations.ByteLanesCarryTheSlot := by
  refine ⟨fun v j _ => laneOf_toNat v j, fun v => ?_⟩
  have hlt : v.toNat < 256 ^ 8 := v.isLt
  have hlength : ((List.range 8).map (laneOf v)).length = 8 := rfl
  rw [slotOfLanes, if_pos hlength, List.range_eq_range', foldr_lanes, Nat.pow_zero, Nat.div_one, Nat.mod_eq_of_lt hlt,
    BitVec.ofNat_toNat, BitVec.setWidth_eq]

/-! ## The address map, both ways -/

section
variable {c : Config} {a : Addr} {x : Target} {i : Nat}

/-- The number of an entry's address, in a window that fits the 32-bit addresses. -/
theorem entryAddr_toNat {base : Nat} (h : base + 8 * i < 2 ^ 32) :
    (BitVec.ofNat 32 (base + 8 * i)).toNat = base + 8 * i := by
  rw [BitVec.toNat_ofNat, Nat.mod_eq_of_lt h]

theorem slotIn_entry {cap : Nat} (base : Nat) (h : i < cap) : slotIn base cap (base + 8 * i) = some i :=
  slotIn_some.mpr ⟨by omega, by omega, h⟩

/-- The slot of a TMEM entry. -/
theorem checkAccess_tmem (hc : c.wellFormed = true) (hi : i < c.tmax) :
    checkAccess c (BitVec.ofNat 32 (0x01000000 + 8 * i)) 64 = .ok (.tmem i) := by
  obtain ⟨-, -, -, -, -, htmax⟩ := wf_bounds hc
  have ha : (BitVec.ofNat 32 (0x01000000 + 8 * i)).toNat = 0x01000000 + 8 * i := entryAddr_toNat (by omega)
  refine checkAccess_of (by omega) ?_
  rw [targetOf_tmem (by omega) (by omega), ha, slotIn_entry _ hi, Option.map_some]

/-- The slot of a PBUF entry. -/
theorem checkAccess_pbuf (hc : c.wellFormed = true) (hi : i < c.bmax) :
    checkAccess c (BitVec.ofNat 32 (0x02000000 + 8 * i)) 64 = .ok (.pbuf i) := by
  obtain ⟨-, -, -, -, hbmax, -⟩ := wf_bounds hc
  have ha : (BitVec.ofNat 32 (0x02000000 + 8 * i)).toNat = 0x02000000 + 8 * i := entryAddr_toNat (by omega)
  refine checkAccess_of (by omega) ?_
  rw [targetOf_pbuf (by omega) (by omega), ha, slotIn_entry _ hi, Option.map_some]

/-- A target in range is what its own slot address reaches. -/
theorem checkAccess_addr (hc : c.wellFormed = true) (hx : x.inRange c) : checkAccess c x.addr 64 = .ok x := by
  cases x with
  | reg r => exact checkAccess_reg c r
  | tmem i => exact checkAccess_tmem hc hx
  | pbuf i => exact checkAccess_pbuf hc hx
  | obuf i => exact checkAccess_obuf hc hx

/-- The number `n` is an address of the target: a register's offset, or an entry's place in its window (20_memory.md R56). -/
def Target.holds (c : Config) (n : Nat) : Target → Prop
  | .reg r  => r.offset = n
  | .tmem i => slotIn 0x01000000 c.tmax n = some i
  | .pbuf i => slotIn 0x02000000 c.bmax n = some i
  | .obuf i => slotIn 0x03000000 c.bmax n = some i

theorem targetOf_holds (h : targetOf c a = some x) : x.holds c a.toNat := by
  unfold targetOf at h
  split at h
  · obtain ⟨r, hr, rfl⟩ := Option.map_eq_some_iff.mp h
    exact ofOffset_some.mp hr
  · split at h
    · obtain ⟨i, hi, rfl⟩ := Option.map_eq_some_iff.mp h
      exact hi
    · split at h
      all_goals
        obtain ⟨i, hi, rfl⟩ := Option.map_eq_some_iff.mp h
        exact hi

/-- An aligned address in a window is the slot address of the entry it reaches. -/
theorem addr_of_slotIn {base cap : Nat} (hb : base % 8 = 0) (h8 : a.toNat % 8 = 0)
    (h : slotIn base cap a.toNat = some i) : BitVec.ofNat 32 (base + 8 * i) = a := by
  obtain ⟨hle, hi, -⟩ := slotIn_some.mp h
  have hsum : base + 8 * i = a.toNat := by omega
  rw [hsum, BitVec.ofNat_toNat, BitVec.setWidth_eq]

/-- An aligned address that reaches a target is that target's slot address. -/
theorem addr_of_targetOf (h8 : a.toNat % 8 = 0) (h : targetOf c a = some x) : x.addr = a := by
  have hplace := targetOf_holds h
  cases x with
  | reg r => rw [Target.addr, show r.offset = a.toNat from hplace, BitVec.ofNat_toNat, BitVec.setWidth_eq]
  | tmem i => exact addr_of_slotIn rfl h8 hplace
  | pbuf i => exact addr_of_slotIn rfl h8 hplace
  | obuf i => exact addr_of_slotIn rfl h8 hplace

/-- Settles O7: an aligned address that reaches a target is the target's own, and the target is in range; conversely a
target in range is reached at its own address. -/
theorem addressMapIsExact : Obligations.AddressMapIsExact := by
  intro c a x hc h8
  change targetOf c a = some x ↔ x.addr = a ∧ x.inRange c
  refine ⟨fun h => ⟨addr_of_targetOf h8 h, targetOf_inRange h⟩, ?_⟩
  rintro ⟨rfl, hx⟩
  obtain ⟨-, -, htarget⟩ := checkAccess_ok (checkAccess_addr hc hx)
  exact htarget

/-! ## The accesses the port refuses -/

/-- An address in a window lies between the window's bounds. -/
theorem window_of_slotIn {base cap n : Nat} (h : slotIn base cap n = some i) : base ≤ n ∧ n < base + 8 * cap := by
  obtain ⟨hle, hi, hlt⟩ := slotIn_some.mp h
  omega

theorem mapped_of_targetOf (h : targetOf c a = some x) : mappedAddress c a.toNat := by
  have hplace := targetOf_holds h
  cases x with
  | reg r => exact .inl (hplace ▸ offset_le r)
  | tmem i => exact .inr (.inl (window_of_slotIn hplace))
  | pbuf i => exact .inr (.inr (.inl (window_of_slotIn hplace)))
  | obuf i => exact .inr (.inr (.inr (window_of_slotIn hplace)))

/-- An access reaches a target exactly where R58 does not refuse it. -/
theorem checkAccess_ok_iff (hc : c.wellFormed = true) {bits : Nat} :
    (∃ x, checkAccess c a bits = .ok x) ↔ bits = 64 ∧ a.toNat % 8 = 0 ∧ mappedAddress c a.toNat := by
  constructor
  · rintro ⟨x, hx⟩
    obtain ⟨h64, h8, htarget⟩ := checkAccess_ok hx
    exact ⟨h64, h8, mapped_of_targetOf htarget⟩
  · rintro ⟨rfl, h8, hmapped⟩
    obtain ⟨x, hx⟩ := targetOf_of_mapped hc h8 hmapped
    exact ⟨x, checkAccess_of h8 hx⟩

end

/-! ## What a command and a write can answer -/

section
variable {s : State} {i : Instr}

/-- Why a command is refused: it runs, and an entry it reads is unwritten (70_reset_and_hazards.md R201). Beside `Written`,
which gives its next states, this is all a command can answer. -/
inductive ReadFails (s : State) : Instr → Refusal → Prop
  | near {r : Refusal} (h : s.tsize ≠ 0#64) (hr : s.tmemAt (phaseIndex s.tsize s.phaseW).toNat = .error r) :
      ReadFails s .near r
  | lin {r : Refusal} (h : s.tsize ≠ 0#64) (hr : s.linAt s.phaseW = .error r) : ReadFails s .lin r
  | herm {r : Refusal} (h : s.tsize ≠ 0#64) (hr : s.hermAt s.phaseW = .error r) : ReadFails s .herm r
  | bherm {r : Refusal} (h : s.tsize ≠ 0#64) (hb : legalBatch s.cfg s.blen = true)
      (hr : s.batch s.blen.toNat = .error r) : ReadFails s .bherm r

/-- `run` answers a next state, or is refused for a read of the command `i`. -/
def State.Answers (s : State) (i : Instr) (run : Result) : Prop :=
  (∃ t, run = .next t) ∨ ∃ r, run = .refused r ∧ ReadFails s i r

theorem State.answers_next (s t : State) : s.Answers i (.next t) := .inl ⟨t, rfl⟩

theorem State.command_answers {run : Result} (h : s.Answers i run) : s.Answers i (s.command run) := by
  unfold State.command
  split
  · exact s.answers_next s
  · exact h

theorem State.requireTable_answers {run : Result} (h : s.tsize ≠ 0#64 → s.Answers i run) :
    s.Answers i (s.requireTable run) := by
  unfold State.requireTable
  split
  · exact s.answers_next _
  · exact h ‹_›

theorem State.requireBatch_answers {run : Result} (h : legalBatch s.cfg s.blen = true → s.Answers i run) :
    s.Answers i (s.requireBatch run) := by
  unfold State.requireBatch
  split
  · exact h ‹_›
  · exact s.answers_next _

theorem State.requireShape_answers (legal : Bool) {run : Result} (h : s.Answers i run) :
    s.Answers i (s.requireShape legal run) := by
  unfold State.requireShape
  split
  · exact h
  · exact s.answers_next _

theorem State.deliver_answers {e : Except Refusal F32} (h : ∀ r, e = .error r → ReadFails s i r) :
    s.Answers i (s.deliver e) := by
  cases e with
  | ok x => exact s.answers_next _
  | error r => exact .inr ⟨r, rfl, h r rfl⟩

/-- A command answers a next state or is refused for a read; no command stops on a port fault. -/
theorem exec_answers (i : Instr) (s : State) : s.Answers i (exec i s) := by
  cases i with
  | split => exact State.command_answers (State.requireTable_answers fun _ => s.answers_next _)
  | near =>
    refine State.command_answers (State.requireTable_answers fun h0 => ?_)
    split
    · exact s.answers_next _
    · exact .inr ⟨_, rfl, .near h0 ‹_›⟩
  | lin => exact State.command_answers (State.requireTable_answers fun h0 => State.deliver_answers fun _ => .lin h0)
  | herm => exact State.command_answers (State.requireTable_answers fun h0 => State.deliver_answers fun _ => .herm h0)
  | saw => exact State.command_answers (s.answers_next _)
  | sawd => exact State.command_answers (s.answers_next _)
  | pulse => exact State.command_answers (State.requireShape_answers _ (s.answers_next _))
  | tri => exact State.command_answers (s.answers_next _)
  | tria => exact State.command_answers (State.requireShape_answers _ (s.answers_next _))
  | bherm =>
    refine State.command_answers (State.requireTable_answers fun h0 => State.requireBatch_answers fun hb => ?_)
    split
    · exact s.answers_next _
    · exact .inr ⟨_, rfl, .bherm h0 hb ‹_›⟩

/-- A write to a mapped slot is never a port fault: it answers a next state, or it issues a command that is refused. -/
theorem writeTarget_answers (s : State) (x : Target) (v : Slot) :
    (∃ t, s.writeTarget x v = .next t) ∨ ∃ i r, s.writeTarget x v = .refused r ∧ ReadFails s i r := by
  unfold State.writeTarget
  split
  · exact .inl ⟨s, rfl⟩
  · cases x with
    | reg r =>
      cases r with
      | cmd =>
        simp only [State.writeReg, State.issue]
        split
        · exact (exec_answers _ s).imp_right fun hr => ⟨_, hr⟩
        · exact .inl ⟨_, rfl⟩
      | _ => exact .inl ⟨_, rfl⟩
    | _ => exact .inl ⟨_, rfl⟩

/-- An accepted event is performed, or it issues a command that is refused. -/
theorem perform_of_acceptable {e : PortEvent} (hc : s.cfg.wellFormed = true) (he : acceptable s.cfg e) :
    (∃ t, s.perform e = .next t) ∨ ∃ i r, s.perform e = .refused r ∧ ReadFails s i r := by
  cases e with
  | hostWrite a bits v =>
    obtain ⟨x, hx⟩ := (checkAccess_ok_iff hc).mpr he
    simp only [State.perform, State.hostWrite, hx]
    exact writeTarget_answers s x v
  | hostRead a bits =>
    obtain ⟨x, hx⟩ := (checkAccess_ok_iff hc).mpr he
    simp only [State.perform, State.hostRead, hx]
    exact .inl ⟨_, rfl⟩
  | reset => exact .inl ⟨_, rfl⟩

/-- An event the port does not accept ends in a port fault (20_memory.md R58). -/
theorem perform_of_not_acceptable {e : PortEvent} (hc : s.cfg.wellFormed = true) (he : ¬ acceptable s.cfg e) :
    ∃ f, s.perform e = .fault f := by
  cases e with
  | hostWrite a bits v =>
    cases hx : checkAccess s.cfg a bits with
    | ok x => exact absurd ((checkAccess_ok_iff hc).mp ⟨x, hx⟩) he
    | error f => exact ⟨f, by simp only [State.perform, State.hostWrite, hx]⟩
  | hostRead a bits =>
    cases hx : checkAccess s.cfg a bits with
    | ok x => exact absurd ((checkAccess_ok_iff hc).mp ⟨x, hx⟩) he
    | error f => exact ⟨f, by simp only [State.perform, State.hostRead, hx]⟩
  | reset => exact absurd trivial he

/-- Settles O8: an accepted event answers a next state or a refusal, any other a port fault. -/
theorem refusedAccessHasNoStep : Obligations.RefusedAccessHasNoStep := by
  intro s e rest hc hp
  rw [step_of_port hp]
  refine ⟨?_, perform_of_not_acceptable (s := s.accept rest) hc⟩
  rintro ⟨f, hf⟩ he
  rcases perform_of_acceptable (s := s.accept rest) hc he with ⟨t, ht⟩ | ⟨i, r, hr, -⟩
  · cases hf.symm.trans ht
  · cases hf.symm.trans hr

end

/-! ## Reads, and writes of an entry -/

section
variable {s : State} {i : Nat} {v : Slot} {rest : List PortEvent}

/-- What a slot reads as does not depend on the model's own port (20_memory.md R57). -/
theorem readTarget_port (s : State) (rest : List PortEvent) (d : Option Slot) (x : Target) :
    { s with port := rest, rdata := d }.readTarget x = s.readTarget x := by
  cases x with
  | reg r => cases r <;> rfl
  | tmem i => rfl
  | pbuf i => rfl
  | obuf i => rfl

/-- Settles O13: the first read reaches a slot, whose value it leaves for the second. -/
theorem readsChangeNothingAndRepeat : Obligations.ReadsChangeNothingAndRepeat := by
  intro s t a bits rest hp hstep
  have hperformed : Performed (s.accept (.hostRead a bits :: rest)) (.hostRead a bits) t :=
    State.perform_next ((step_of_port hp).symm.trans hstep)
  cases hperformed with
  | @returned _ x hx =>
    refine ⟨by rw [readTarget_accept]; rfl, nofun, ?_⟩
    have hsecond := read_step (s := (s.accept (.hostRead a 64 :: rest)).answer (s.readTarget x)) rfl hx
    rw [readTarget_accept, hsecond]
    exact congrArg (fun d => Host.Outcome.next { s with port := rest, rdata := some d }) (readTarget_port s _ _ x)

/-- A written entry reads as its bits, zero-extended (20_memory.md R57). -/
theorem readEntry_some {n : Nat} {m : Memory n} {b : BitVec n} (h : Memory.read m i = some b) (s : State) (id : MemId)
    (width : Nat) : s.readEntry id width m i = b.setWidth 64 := by
  rw [State.readEntry, h]

/-- A TMEM entry just written reads as the low 32 bits. -/
theorem readTarget_setTmem (s : State) (i : Nat) (v : Slot) :
    (s.setTmem i v).readTarget (.tmem i) = BitVec.ofNat 64 (v.toNat % 2 ^ 32) := by
  rw [State.readTarget, State.setTmem_tmem, readEntry_some (Memory.read_write_same _ _ _), setWidth_w_eq]

/-- A PBUF entry just written reads as the low W bits. -/
theorem readTarget_setPbuf (s : State) (i : Nat) (v : Slot) :
    (s.setPbuf i v).readTarget (.pbuf i) = BitVec.ofNat 64 (v.toNat % 2 ^ s.cfg.w) := by
  rw [State.readTarget, State.setPbuf_pbuf, readEntry_some (Memory.read_write_same _ _ _), BitVec.setWidth_eq,
    setWidth_w_eq]

theorem writeTarget_tmem (h : s.fault = false) (i : Nat) (v : Slot) : s.writeTarget (.tmem i) v = .next (s.setTmem i v) := by
  simp [State.writeTarget, h]

theorem writeTarget_pbuf (h : s.fault = false) (i : Nat) (v : Slot) : s.writeTarget (.pbuf i) v = .next (s.setPbuf i v) := by
  simp [State.writeTarget, h]

/-- Settles O14: each access reaches its entry, and a read after a write of the entry finds the bits written. -/
theorem memoryWritesAreReadBack : Obligations.MemoryWritesAreReadBack := by
  intro s i v rest hc hf
  refine ⟨fun hi hp => ?_, fun hi hp => ?_, fun x hi hx hp => ?_⟩
  · have haccess := checkAccess_tmem hc hi
    have hwrite := (write_step hp haccess).trans (writeTarget_tmem (s := s.accept _) hf i v)
    exact ⟨_, _, hwrite, read_step rfl haccess, congrArg some (readTarget_setTmem _ i v),
      fun j hj => Memory.read_write_other _ _ _ _ hj, rfl, rfl⟩
  · have haccess := checkAccess_pbuf hc hi
    have hwrite := (write_step hp haccess).trans (writeTarget_pbuf (s := s.accept _) hf i v)
    exact ⟨_, _, hwrite, read_step rfl haccess, congrArg some (readTarget_setPbuf _ i v),
      fun j hj => Memory.read_write_other _ _ _ _ hj, rfl, rfl⟩
  · rw [read_step hp (checkAccess_obuf hc hi), State.readTarget, readEntry_some hx, BitVec.ofNat_toNat]

end

end Sys2Proof.Machine
end

section
/-! With every entry written, accepted accesses never stop the block (spec 20_memory.md R55, R58, 60_exceptions.md R196,
70_reset_and_hazards.md R201): O29. -/
namespace Sys2Proof.Machine

variable {s t : State}

/-! ## A command of a filled block is never refused -/

/-- A neighbour of a legal table lies in the table (41_table_sampler.md R110). -/
theorem nbIndex_lt {c : Config} {k : Nat} {n : Slot} (hc : c.wellFormed = true) (hk : k ≤ c.tmaxLog2)
    (h : n.toNat = 2 ^ k) (i : BitVec c.w) (d : Int) : nbIndex n i d < 2 ^ k := by
  rw [nbIndex, BitVec.toNat_and, tableMask_toNat hc hk h, Nat.and_two_pow_sub_one_eq_mod]
  exact Nat.mod_lt _ (Nat.two_pow_pos k)

section
variable (h : s.Inv) (hfill : s.filled)
include h hfill

/-- A table that is set is written, each of its `2 ^ k` entries. -/
theorem State.filled_table (h0 : s.tsize ≠ 0#64) :
    ∃ k ≤ s.cfg.tmaxLog2, s.tsize.toNat = 2 ^ k ∧ ∀ j < 2 ^ k, Memory.read s.tmem j ≠ none := by
  obtain ⟨k, -, hk, hn⟩ := h.tsize_pow h0
  have hle : 2 ^ k ≤ s.cfg.tmax := Nat.pow_le_pow_right (by norm_num) hk
  exact ⟨k, hk, hn, fun j hj => hfill.1 j (hj.trans_le hle)⟩

/-- The entry at the phase's index can be read. -/
theorem State.indexed_ok (h0 : s.tsize ≠ 0#64) : ∃ v, s.tmemAt (phaseIndex s.tsize s.phaseW).toNat = .ok v := by
  obtain ⟨k, hk, hn, hread⟩ := State.filled_table h hfill h0
  obtain ⟨v, hv⟩ := Option.ne_none_iff_exists'.mp (hread _ (phaseIndex_lt hn (legal_pow_lt h.cfgLegal hk).le s.phaseW))
  exact ⟨v, State.tmemAt_some hv⟩

/-- A neighbour's entry is written. -/
theorem State.neighbour_written (h0 : s.tsize ≠ 0#64) (i : BitVec s.cfg.w) (d : Int) :
    Memory.read s.tmem (nbIndex s.tsize i d) ≠ none := by
  obtain ⟨k, hk, hn, hread⟩ := State.filled_table h hfill h0
  exact hread _ (nbIndex_lt h.cfgLegal hk hn i d)

theorem State.linAt_ok (h0 : s.tsize ≠ 0#64) (p : BitVec s.cfg.w) : ∃ x, s.linAt p = .ok x := by
  have hnb := fun d => State.nb_ok_iff.mpr (State.neighbour_written h hfill h0 (phaseIndex s.tsize p) d)
  obtain ⟨x0, hx0⟩ := hnb 0
  obtain ⟨x1, hx1⟩ := hnb 1
  exact ⟨_, by rw [State.linAt, hx0, hx1]⟩

theorem State.hermAt_ok (h0 : s.tsize ≠ 0#64) (p : BitVec s.cfg.w) : ∃ x, s.hermAt p = .ok x :=
  State.hermAt_ok_iff.mpr fun d _ => State.neighbour_written h hfill h0 _ d

theorem State.batchElement_ok (h0 : s.tsize ≠ 0#64) {i : Nat} (hi : i < s.cfg.bmax) :
    ∃ v, s.batchElement i = .ok v := by
  obtain ⟨p, hp⟩ := Option.ne_none_iff_exists'.mp (hfill.2 i hi)
  obtain ⟨x, hx⟩ := State.hermAt_ok h hfill h0 (p.setWidth s.cfg.w)
  exact ⟨x.bits (s.nanPayload i), by simp only [State.batchElement, State.pbufAt_some hp, hx]⟩

/-- Every read of a command of a filled block succeeds. -/
theorem ReadFails.not_filled {i : Instr} {r : Refusal} (hr : ReadFails s i r) : False := by
  cases hr with
  | near h0 hr =>
    obtain ⟨v, hv⟩ := State.indexed_ok h hfill h0
    cases hv.symm.trans hr
  | lin h0 hr =>
    obtain ⟨x, hx⟩ := State.linAt_ok h hfill h0 s.phaseW
    cases hx.symm.trans hr
  | herm h0 hr =>
    obtain ⟨x, hx⟩ := State.hermAt_ok h hfill h0 s.phaseW
    cases hx.symm.trans hr
  | bherm h0 hb hr =>
    obtain ⟨m, hm⟩ := State.batch_ok fun i hi => State.batchElement_ok h hfill h0 (hi.trans_le (legalBatch_le hb))
    cases hm.symm.trans hr

end

/-! ## An access leaves a filled block filled -/

/-- A write unwrites no entry. -/
theorem Memory.read_write_ne_none {n : Nat} {m : Memory n} {j : Nat} (h : Memory.read m j ≠ none) (i : Nat)
    (v : BitVec n) : Memory.read (Memory.write m i v) j ≠ none := by
  rw [Memory.read_write]
  split
  · exact Option.some_ne_none v
  · exact h

/-- No command writes TMEM or PBUF (30_encoding.md R73). -/
theorem Written.memories_eq {i : Instr} (hw : Written s i t) : t.tmem = s.tmem ∧ t.pbuf = s.pbuf := by
  cases hw <;> simp

theorem State.filled.of_eq (hs : s.filled) (hc : t.cfg = s.cfg) (ht : t.tmem = s.tmem) (hp : t.pbuf = s.pbuf) :
    t.filled := by
  rwa [State.filled, hc, ht, hp]

theorem Stored.keeps_filled {x : Target} {v : Slot} (hst : Stored s x v t) (hs : s.filled) : t.filled := by
  cases hst with
  | command _ hw =>
    obtain ⟨htmem, hpbuf⟩ := hw.memories_eq
    exact hs.of_eq hw.cfg_eq htmem hpbuf
  | tmem i v => exact ⟨fun j hj => Memory.read_write_ne_none (hs.1 j hj) i _, hs.2⟩
  | pbuf i v => exact ⟨hs.1, fun j hj => Memory.read_write_ne_none (hs.2 j hj) i _⟩
  | _ => exact hs.of_eq (by simp) (by simp) (by simp)

theorem Performed.keeps_filled {e : PortEvent} (hp : Performed s e t) (he : e ≠ .reset) (hs : s.filled) : t.filled := by
  cases hp with
  | ignored _ _ => exact hs
  | stored _ _ hst => exact hst.keeps_filled hs
  | returned _ => exact hs.of_eq rfl rfl rfl
  | reset => exact absurd rfl he

/-! ## What waits at the port -/

theorem Written.port_eq {i : Instr} (hw : Written s i t) : t.port = s.port := by
  cases hw <;> simp

theorem Stored.port_eq {x : Target} {v : Slot} (hst : Stored s x v t) : t.port = s.port := by
  cases hst with
  | command _ hw => exact hw.port_eq
  | _ => simp

/-- Performing an event leaves the events behind it waiting. -/
theorem Performed.port_eq {e : PortEvent} (hp : Performed s e t) : t.port = s.port := by
  cases hp with
  | ignored _ _ => rfl
  | stored _ _ hst => exact hst.port_eq
  | returned _ => rfl
  | reset => rfl

/-! ## Runs -/

/-- A run goes on from the next state of its first step. -/
theorem core_run_succ (h : step s = .next t) (k : Nat) : core.run (k + 1) s = core.run k t := by
  have hstep : core.step s = .next t := h
  simp only [Host.Core.run, hstep]

/-- What keeps the block from stopping: the invariant, every entry written, and only accepted accesses waiting. -/
structure State.Served (s : State) : Prop where
  inv : s.Inv
  filled : s.filled
  accesses : ∀ e ∈ s.port, e ≠ .reset ∧ acceptable s.cfg e

/-- A step of a served block answers a next state, which is served. -/
theorem State.Served.next (h : s.Served) : ∃ t, step s = .next t ∧ t.Served := by
  cases hport : s.port with
  | nil => exact ⟨s, by rw [step, State.advance, hport], h⟩
  | cons e rest =>
    obtain ⟨⟨he, hacceptable⟩, hrest⟩ := List.forall_mem_cons.mp (hport ▸ h.accesses)
    have hinv := h.inv.accept rest
    have hfilled : (s.accept rest).filled := h.filled.of_eq rfl rfl rfl
    rcases perform_of_acceptable (s := s.accept rest) h.inv.cfgLegal hacceptable with ⟨t, ht⟩ | ⟨i, r, -, hr⟩
    · have hstep := (step_of_port hport).trans ht
      have hperformed := State.perform_next ht
      refine ⟨t, hstep, everyStepKeepsInv s t h.inv hstep, hperformed.keeps_filled he hfilled, ?_⟩
      rw [hperformed.port_eq, step_cfg hstep]
      exact hrest
    · exact (hr.not_filled hinv hfilled).elim

/-- A served block is served forever, by induction on the number of steps. -/
theorem State.Served.run (h : s.Served) (k : Nat) : ∃ t, core.run k s = .next t := by
  induction k generalizing s with
  | zero => exact ⟨s, rfl⟩
  | succ k ih =>
    obtain ⟨t, hstep, ht⟩ := h.next
    obtain ⟨u, hu⟩ := ih ht
    exact ⟨u, (core_run_succ hstep k).trans hu⟩

/-- Settles O29: the statement's premises make the block served. -/
theorem filledBlockNeverStops : Obligations.FilledBlockNeverStops :=
  fun _ hinv hfilled haccesses => State.Served.run ⟨hinv, hfilled, haccesses⟩

end Sys2Proof.Machine
end

section
/-! Command words: decoding and encoding are inverse, and an illegal word only raises a fault (spec 30_encoding.md R70 to
R75): O1, O2 and O3. -/
namespace Sys2Proof.Machine

/-! ## The fields of a command word -/

theorem opcOf_toNat (w : CmdWord) : (opcOf w).toNat = w.toNat % 2 ^ 8 := by
  rw [opcOf, field_toNat, pow_zero, Nat.div_one]

theorem rsvOf_toNat (w : CmdWord) : (rsvOf w).toNat = w.toNat / 2 ^ 8 := by
  have hw := w.isLt
  rw [rsvOf, field_toNat, Nat.mod_eq_of_lt (by omega)]

theorem encode_toNat (i : Instr) : (encode i).toNat = (opcode i).toNat :=
  BitVec.toNat_setWidth_of_le (by decide)

/-- A command's word is its operation code under a zero reserved field (R70). -/
theorem encode_eq_iff {w : CmdWord} {i : Instr} : encode i = w ↔ rsvOf w = 0#56 ∧ opcode i = opcOf w := by
  have hcode := (opcode i).isLt
  rw [← BitVec.toNat_inj, ← BitVec.toNat_inj, ← BitVec.toNat_inj, encode_toNat, rsvOf_toNat, opcOf_toNat,
    BitVec.toNat_ofNat]
  omega

/-! ## Decoding -/

@[simp] theorem decodeOpc_opcode (i : Instr) : decodeOpc (opcode i) = some i := by
  cases i <;> rfl

/-- The operation code of a command is the only one the opcode map sends to it (R72). -/
theorem decodeOpc_eq_some_iff {opc : BitVec 8} {i : Instr} : decodeOpc opc = some i ↔ opcode i = opc := by
  refine ⟨fun h => ?_, fun h => h ▸ decodeOpc_opcode i⟩
  unfold decodeOpc at h
  split at h
  case h_11 => cases h
  all_goals
    obtain rfl := Option.some.inj h
    exact BitVec.eq_of_toNat_eq (Eq.symm ‹_›)

theorem decode_eq_ok_iff_fields {w : CmdWord} {i : Instr} :
    decode w = .ok i ↔ rsvOf w = 0#56 ∧ decodeOpc (opcOf w) = some i := by
  unfold decode
  by_cases h : rsvOf w = 0#56
  · cases decodeOpc (opcOf w) <;> simp [h]
  · simp [h]

/-- The decoder reads a command from exactly the word the encoder gives it (R75). -/
theorem decode_eq_ok_iff {w : CmdWord} {i : Instr} : decode w = .ok i ↔ encode i = w := by
  rw [decode_eq_ok_iff_fields, decodeOpc_eq_some_iff, encode_eq_iff]

theorem decode_encode (i : Instr) : decode (encode i) = .ok i := decode_eq_ok_iff.mpr rfl

theorem encode_injective {i j : Instr} (h : encode i = encode j) : i = j :=
  Except.ok.inj ((decode_encode i).symm.trans (decode_eq_ok_iff.mpr h.symm))

/-- Settles O2: a word that decodes is the word of that command alone, and one that does not is the word of none. -/
theorem decodeIsInverseOfEncode : Obligations.DecodeIsInverseOfEncode := by
  refine ⟨fun _ _ => decode_eq_ok_iff, fun w => ?_⟩
  cases hd : decode w with
  | ok i =>
    obtain rfl := decode_eq_ok_iff.mp hd
    exact .inl ⟨i, rfl, rfl, fun _ => encode_injective⟩
  | error r =>
    refine .inr ⟨⟨r, rfl⟩, ?_⟩
    rintro j rfl
    cases hd.symm.trans (decode_encode j)

/-- Settles O1: each of the ten words is the word of its command. -/
theorem tenCommandWordsDecode : Obligations.TenCommandWordsDecode :=
  ⟨decode_encode .split, decode_encode .near, decode_encode .lin, decode_encode .herm, decode_encode .saw,
    decode_encode .sawd, decode_encode .pulse, decode_encode .tri, decode_encode .tria, decode_encode .bherm⟩

/-! ## Illegal words -/

/-- The ranges of R74: a non-zero reserved field, or an operation code of no command. -/
def IllegalWord (n : Nat) : Prop :=
  n / 2 ^ 8 ≠ 0 ∨ n = 0 ∨ (0x05 ≤ n ∧ n ≤ 0x0F) ∨ (0x15 ≤ n ∧ n ≤ 0x1F) ∨ (0x21 ≤ n ∧ n ≤ 0xFF)

theorem not_illegalWord_encode (i : Instr) : ¬ IllegalWord (encode i).toNat := by
  unfold IllegalWord
  cases i <;> decide

theorem decode_illegalWord {w : CmdWord} (h : IllegalWord w.toNat) : ∃ r, decode w = .error r := by
  cases hd : decode w with
  | ok i => exact absurd (decode_eq_ok_iff.mp hd ▸ h) (not_illegalWord_encode i)
  | error r => exact ⟨r, rfl⟩

/-- Settles O3: the word of an accepted CMD write is decoded, and a rejected one is recorded as a fault. -/
theorem illegalWordFaults : Obligations.IllegalWordFaults := by
  intro s w rest hp hf hw
  obtain ⟨r, hd⟩ := decode_illegalWord hw
  rw [write_reg_step .cmd hf hp, State.writeReg, State.issue, hd]
  rfl

end Sys2Proof.Machine
end

section
/-! What a command writes: its row of the operand table and the fault fields (spec 30_encoding.md R73, 20_memory.md R51,
60_exceptions.md R183): O30. -/
namespace Sys2Proof.Machine

variable {s t : State} {i : Instr}

/-- No command writes a register or a memory that only the host writes. -/
theorem Written.hostRegisters_eq (hw : Written s i t) :
    t.tsize = s.tsize ∧ t.phase = s.phase ∧ t.shape = s.shape ∧ t.blen = s.blen := by
  cases hw <;> simp

theorem Written.rdata_epoch_eq (hw : Written s i t) : t.rdata = s.rdata ∧ t.epoch = s.epoch := by
  cases hw <;> simp

theorem Written.index_frac_eq (hw : Written s i t) (hi : i ≠ .split) : t.index = s.index ∧ t.frac = s.frac := by
  cases hw with
  | split _ => exact absurd rfl hi
  | _ => simp

theorem Written.result_eq (hw : Written s i t) (hi : i = .split ∨ i = .bherm) : t.result = s.result := by
  cases hw with
  | split | bherm | noTable | badBatch => simp
  | _ => simp at hi

theorem Written.obuf_eq (hw : Written s i t) (hi : i ≠ .bherm) : t.obuf = s.obuf := by
  cases hw with
  | bherm _ _ _ => exact absurd rfl hi
  | _ => simp

/-- BHERM writes the OBUF entries of its batch only (43_batch_hermite.md R162). -/
theorem Written.obuf_read_of_blen_le (hw : Written s i t) {j : Nat} (hj : s.blen.toNat ≤ j) :
    Memory.read t.obuf j = Memory.read s.obuf j := by
  cases hw with
  | bherm _ _ hm => simpa [Nat.not_lt.mpr hj] using State.batch_read hm j
  | _ => simp

/-- FCODE and FINFO are written only with FAULT (60_exceptions.md R183). -/
theorem Written.faultFields_eq (hw : Written s i t) (hs : s.fault = false) (ht : t.fault = s.fault) :
    t.fcode = s.fcode ∧ t.finfo = s.finfo := by
  cases hw with
  | noTable | badBatch | badWidth | badSlope => simp [hs] at ht
  | _ => simp

/-- Settles O30: a faulted block keeps its state, and an unfaulted one changes by what its command writes. -/
theorem commandsWriteOnlyTheirRow : Obligations.CommandsWriteOnlyTheirRow := by
  intro i s t h
  rcases exec_next h with ⟨-, rfl⟩ | ⟨hf, hw⟩
  · simp
  · obtain ⟨htsize, hphase, hshape, hblen⟩ := hw.hostRegisters_eq
    obtain ⟨htmem, hpbuf⟩ := hw.memories_eq
    obtain ⟨hrdata, hepoch⟩ := hw.rdata_epoch_eq
    exact ⟨⟨hw.cfg_eq, htsize, hphase, hshape, hblen, htmem, hpbuf, hw.port_eq, hrdata, hepoch⟩,
      hw.index_frac_eq, hw.result_eq, hw.obuf_eq, fun _ _ => hw.obuf_read_of_blen_le, hw.faultFields_eq hf⟩

end Sys2Proof.Machine
end

section
/-! Host programs: the accesses that a mnemonic, LOADP and LOADT stand for (spec 30_encoding.md R77, R78): O59. -/
namespace Sys2Proof.Machine

/-- A program of one source line issues the accesses of that line's expansion. -/
theorem programEvents_singleton (l : SourceLine) : programEvents [l] = l.expand.mapM Line.event := by
  simp only [programEvents]
  cases l.expand.mapM Line.event <;> simp

theorem event_wr_int (x : Target) (v : Slot) : Line.event (.wr x (.int v)) = some (.hostWrite x.addr 64 v) := rfl

theorem event_wr_dec {d : Decimal} {y : F32} (x : Target) (h : d.exact = some y) :
    Line.event (.wr x (.dec d)) = some (.hostWrite x.addr 64 ((y.bits 0#32).setWidth 64)) := by
  simp [Line.event, Value.slot, h]

/-- LOADP from entry `i` on writes its elements to entries `i`, `i + 1`, ... of PBUF. -/
theorem expandLoadp_events (i : Nat) (ps : List Slot) : (expandLoadp i ps).mapM Line.event =
    some (ps.mapIdx fun j p => .hostWrite (Target.pbuf (i + j)).addr 64 p) := by
  induction ps generalizing i with
  | nil => rfl
  | cons p ps ih => simp [expandLoadp, event_wr_int, ih, List.mapIdx_cons, Nat.add_assoc, Nat.add_comm 1]

/-- LOADT from entry `i` on writes its values' bits to entries `i`, `i + 1`, ... of TMEM. -/
theorem expandLoadt_events (i : Nat) {xs : List Decimal} {ys : List F32} (h : xs.map Decimal.exact = ys.map some) :
    (expandLoadt i xs).mapM Line.event =
      some (ys.mapIdx fun j y => .hostWrite (Target.tmem (i + j)).addr 64 ((y.bits 0#32).setWidth 64)) := by
  induction xs generalizing i ys with
  | nil =>
    obtain rfl : ys = [] := by simpa using h.symm
    rfl
  | cons x xs ih =>
    cases ys with
    | nil => simp at h
    | cons y ys =>
      obtain ⟨hx, hxs⟩ := List.cons.inj h
      simp [expandLoadt, event_wr_dec _ hx, ih _ hxs, List.mapIdx_cons, Nat.add_assoc, Nat.add_comm 1]

/-- Settles O59: one line for a mnemonic, and by induction on the elements one for each element of LOADP and LOADT. -/
theorem pseudoInstructionsExpand : Obligations.PseudoInstructionsExpand := by
  refine ⟨fun _ => rfl, fun ps => ?_, fun xs ys h => ?_⟩
  · rw [programEvents_singleton]
    simpa only [SourceLine.expand, Target.addr, pbufBase, zero_add] using expandLoadp_events 0 ps
  · rw [programEvents_singleton]
    simpa only [SourceLine.expand, Target.addr, tmemBase, zero_add] using expandLoadt_events 0 h

end Sys2Proof.Machine
end

section
/-! The phase split: SPLIT, the range of the index and the range of the fraction (spec 40_phasemath.md R102 to R106): O31,
O49 and O50. -/
namespace Sys2Proof.Machine

/-! ## SPLIT -/

/-- SPLIT of an unfaulted block with a table writes the phase's index and fraction (40_phasemath.md R104). -/
theorem exec_split {s : State} (hf : s.fault = false) (h0 : s.tsize ≠ 0#64) :
    exec .split s = .next (s.setSplit ((phaseIndex s.tsize s.phaseW).setWidth 21)
      ((phaseFraction s.tsize s.phaseW).bits (s.nanPayload 0))) := by
  simp only [exec, execSplit, State.command_running hf, State.requireTable_some h0]

/-- The 21 bits of INDEX hold the index of every legal table (10_state.md R30). -/
theorem phaseIndex_setWidth_toNat {c : Config} {k : Nat} {n : Slot} (hc : c.wellFormed = true) (hk : k ≤ c.tmaxLog2)
    (hn : n.toNat = 2 ^ k) (p : BitVec c.w) :
    ((phaseIndex n p).setWidth 21).toNat = p.toNat / 2 ^ (c.w - k) := by
  obtain ⟨-, htmax, -⟩ := wf_bounds hc
  have hlt : (phaseIndex n p).toNat < 2 ^ 21 :=
    (phaseIndex_lt hn (legal_pow_lt hc hk).le p).trans_le (Nat.pow_le_pow_right (by norm_num) (hk.trans htmax))
  rw [BitVec.toNat_setWidth, Nat.mod_eq_of_lt hlt, phaseIndex_toNat hn]

theorem phaseFraction_valid {w : Nat} (n : Slot) (p : BitVec w) : (phaseFraction n p).valid = true := by
  rw [phaseFraction]
  exact fmul_valid

/-- Settles O31: the index fits INDEX, and the fraction, no NaN's payload in it, is what FRAC's pattern denotes. -/
theorem splitGivesIndexAndFraction : Obligations.SplitGivesIndexAndFraction := by
  intro s k hc hf _ hk hn
  refine ⟨_, exec_split hf (tsize_ne_zero hn), by rw [State.setSplit], ?_, ?_⟩
  · rw [State.setSplit_index, phaseIndex_setWidth_toNat hc hk hn, phaseW_toNat]
  · rw [State.setSplit_frac, f32of_bits _ (phaseFraction_valid _ _), phaseFraction_eq hn, phaseW_toNat,
      Nat.mod_mod_of_dvd _ (Nat.pow_dvd_pow 2 (Nat.sub_le _ _))]

/-! ## The index -/

/-- The upper `k` of `w` ones are `k` ones. -/
theorem ones_div_two_pow {w k : Nat} (hk : k ≤ w) : (2 ^ w - 1) / 2 ^ (w - k) = 2 ^ k - 1 := by
  have hw : 2 ^ w = 2 ^ (w - k) * 2 ^ k := by rw [← Nat.pow_add, Nat.sub_add_cancel hk]
  rw [hw, Nat.mul_sub_div 0 _ _ (hw ▸ Nat.two_pow_pos w), Nat.zero_div]

/-- Settles O49: the index is the phase's quotient by `2 ^ (W - k)`. -/
theorem indexStaysInTheTable : Obligations.IndexStaysInTheTable := by
  intro c k n p hc _ hk hn
  have hkw : k ≤ c.w := (legal_pow_lt hc hk).le
  refine ⟨Nat.le_sub_one_of_lt (phaseIndex_lt hn hkw p), fun hp => ?_, fun hp => ?_⟩
  · rw [phaseIndex_toNat hn, hp, Nat.zero_div]
  · rw [phaseIndex_toNat hn, hp, ones_div_two_pow hkw]

/-! ## The fraction -/

@[simp] theorem fractionMag_zero (mask : Nat) : fractionMag 0 mask = 0 := by
  have hzero {d : Nat} (hd : 0 < d) : roundMag 0 d = 0 := by
    simpa using roundMag_exact (m := 0) hd (Nat.zero_mod _)
  rw [fractionMag, Nat.zero_mul, hzero Nat.one_pos, Nat.zero_mul, hzero (Nat.two_pow_pos 149)]

/-- A fraction other than 0 is at least 2^-64: no rounding reaches the subnormals (40_phasemath.md R106). -/
theorem two_pow_le_fractionMag {m mask : Nat} (h1 : 1 ≤ m) (hm : m ≤ mask) (h2 : mask ≤ 2 ^ 64) :
    2 ^ 85 ≤ fractionMag m mask := by
  obtain ⟨hmlow, -⟩ := cvtMask_bounds h1 (hm.trans h2)
  obtain ⟨hlow, hhigh⟩ := cvtMask_bounds (h1.trans hm) h2
  have hrecip : 2 ^ 85 ≤ roundMag (2 ^ 149 * 2 ^ 149) (roundMag (mask * 2 ^ 149) 1) := by
    refine two_pow_le_roundMag ((Nat.two_pow_pos 149).trans_le hlow) ?_
    calc _ ≤ 2 ^ 85 * 2 ^ 213 := Nat.mul_le_mul_left _ hhigh
      _ = 2 ^ 149 * 2 ^ 149 := by norm_num
  refine two_pow_le_roundMag (Nat.two_pow_pos 149) ?_
  rw [Nat.mul_comm]
  exact Nat.mul_le_mul hmlow hrecip

theorem fractionMag_eq_zero_iff {m mask : Nat} (hm : m ≤ mask) (h2 : mask ≤ 2 ^ 64) :
    fractionMag m mask = 0 ↔ m = 0 := by
  refine ⟨fun h => ?_, fun h => by rw [h, fractionMag_zero]⟩
  by_contra h0
  have hpos := two_pow_le_fractionMag (Nat.pos_of_ne_zero h0) hm h2
  exact absurd (hpos.trans_eq h) (by norm_num)

@[simp] theorem F32.mag_fin (neg : Bool) (m : Nat) : (F32.fin neg m).mag = m := rfl

/-- A mask times its own rounded reciprocal rounds to 1.0. Not every whole number does (41 does not), so each mask of fewer
than 64 bits is evaluated, as 40_phasemath.md R106 does. -/
theorem fractionMag_mask : ∀ f < 64, 1 ≤ f → fractionMag (2 ^ f - 1) (2 ^ f - 1) = 2 ^ 149 := by
  decide

/-- Settles O50, from the bounds of `fractionMag`: its zero, its value at the mask, and that it does not decrease. -/
theorem fractionStaysInUnit : Obligations.FractionStaysInUnit := by
  intro c k n hc h1 hk hn
  have hkw := legal_pow_lt hc hk
  have hw := w_le c
  have hfrac := phaseFraction_eq_fin hn hkw hw
  have hpow : 2 ^ (c.w - k) ≤ 2 ^ 64 := Nat.pow_le_pow_right (by norm_num) (by omega)
  refine ⟨fun p => ?_, fun p q hpq => ?_⟩
  · obtain ⟨hp, hle⟩ := hfrac p
    have hm : p.toNat % 2 ^ (c.w - k) ≤ 2 ^ (c.w - k) - 1 := Nat.le_sub_one_of_lt (Nat.mod_lt _ (Nat.two_pow_pos _))
    refine ⟨_, hp, hle, fractionMag_eq_zero_iff hm (by omega), fun hmask => ?_⟩
    rw [hmask]
    exact fractionMag_mask (c.w - k) (by omega) (by omega)
  · rw [(hfrac p).1, (hfrac q).1, F32.mag_fin, F32.mag_fin]
    exact fractionMag_mono _ hpq

end Sys2Proof.Machine
end

section
/-! The table samplers: where the neighbours are read, and what NEAR, LIN and HERM of an unfaulted block with a legal
table answer (spec 41_table_sampler.md R110 to R117): O48, O24, O32, O33 and O34. -/
namespace Sys2Proof.Machine

variable {s : State}

/-! ## Neighbours -/

/-- A neighbour's entry is the index plus the displacement, modulo the table size (41_table_sampler.md R110): the table
size divides 2^W, so the W-bit wrap does not show. -/
theorem nbIndex_eq_emod {c : Config} {k : Nat} {n : Slot} (hc : c.wellFormed = true) (hk : k ≤ c.tmaxLog2)
    (hn : n.toNat = 2 ^ k) (i : BitVec c.w) (d : Int) : (nbIndex n i d : Int) = (i.toNat + d) % (2 ^ k : Nat) := by
  have hdvd : 2 ^ k ∣ 2 ^ c.w := Nat.pow_dvd_pow 2 (legal_pow_lt hc hk).le
  have hmask : nbIndex n i d = (i + BitVec.ofInt c.w d).toNat % 2 ^ k := by
    rw [nbIndex, BitVec.toNat_and, tableMask_toNat hc hk hn, Nat.and_two_pow_sub_one_eq_mod]
  have hofInt : ((BitVec.ofInt c.w d).toNat : Int) = d % (2 ^ c.w : Nat) := by
    rw [BitVec.toNat_ofInt, Int.toNat_of_nonneg (Int.emod_nonneg _ (by positivity))]
  rw [hmask, BitVec.toNat_add, Nat.mod_mod_of_dvd _ hdvd, Int.natCast_emod, Int.natCast_add, hofInt, Int.add_emod,
    Int.emod_emod_of_dvd _ (Int.natCast_dvd_natCast.mpr hdvd), ← Int.add_emod]

/-- A neighbour ahead of the index. -/
theorem nbIndex_natCast {c : Config} {k : Nat} {n : Slot} (hc : c.wellFormed = true) (hk : k ≤ c.tmaxLog2)
    (hn : n.toNat = 2 ^ k) (i : BitVec c.w) (d : Nat) : nbIndex n i d = (i.toNat + d) % 2 ^ k := by
  have h := nbIndex_eq_emod hc hk hn i d
  exact_mod_cast h

/-- The neighbour before the index. -/
theorem nbIndex_neg_one {c : Config} {k : Nat} {n : Slot} (hc : c.wellFormed = true) (hk : k ≤ c.tmaxLog2)
    (hn : n.toNat = 2 ^ k) (i : BitVec c.w) : nbIndex n i (-1) = (i.toNat + 2 ^ k - 1) % 2 ^ k := by
  have hpos := Nat.two_pow_pos k
  have h := nbIndex_eq_emod hc hk hn i (-1)
  rw [← Int.add_emod_right, show (i.toNat + -1 + (2 ^ k : Nat) : Int) = (i.toNat + 2 ^ k - 1 : Nat) by omega] at h
  exact_mod_cast h

/-- Settles O48: the neighbour before the index, and three at or ahead of it. -/
theorem neighboursWrapAroundTheTable : Obligations.NeighboursWrapAroundTheTable := by
  intro c k n i hc _ hk hn
  exact ⟨nbIndex_neg_one hc hk hn i, nbIndex_natCast hc hk hn i 0, nbIndex_natCast hc hk hn i 1,
    nbIndex_natCast hc hk hn i 2⟩

/-! ## What the commands answer -/

/-- The commands that look at TSIZE fault while no table is set (41_table_sampler.md R111). -/
theorem exec_noTable {i : Instr} (hi : i ∈ [Instr.split, .near, .lin, .herm, .bherm]) (hf : s.fault = false)
    (h0 : s.tsize = 0#64) : exec i s = .next (s.raise .precondTsize 0#64) := by
  cases i with
  | split | near | lin | herm | bherm =>
    simp only [exec, execSplit, execNear, execLin, execHerm, execBherm, State.command_running hf,
      State.requireTable_none h0]
  | saw | sawd | pulse | tri | tria => simp at hi

/-- A batch length is illegal where it is no whole number of groups or exceeds BMAX (43_batch_hermite.md R161). -/
theorem legalBatch_eq_false {c : Config} {b : BitVec 32} (h : b.toNat % 16 ≠ 0 ∨ c.bmax < b.toNat) :
    legalBatch c b = false := by
  rw [legalBatch, Config.group, Bool.and_eq_false_iff]
  exact h.imp beq_false_of_ne fun hlt => decide_eq_false hlt.not_ge

/-- BHERM with a table faults on an illegal BLEN (43_batch_hermite.md R161). -/
theorem exec_bherm_badBatch (hf : s.fault = false) (h0 : s.tsize ≠ 0#64) (hb : legalBatch s.cfg s.blen = false) :
    exec .bherm s = .next (s.raise .precondBlen (s.blen.setWidth 64)) := by
  simp only [exec, execBherm, State.command_running hf, State.requireTable_some h0, State.requireBatch, hb,
    Bool.false_eq_true, if_false]

/-- Settles O24: TSIZE is checked first, BLEN only where a table is set. -/
theorem tableThenBatchLengthAreChecked : Obligations.TableThenBatchLengthAreChecked := by
  refine ⟨fun s i hi hf h0 => exec_noTable hi hf h0, fun s hf h0 hb => ?_⟩
  rw [exec_bherm_badBatch hf h0 (legalBatch_eq_false hb), State.raise, BitVec.ofNat_toNat]

/-- NEAR with a table copies the entry at the phase's index (41_table_sampler.md R112). -/
theorem exec_near {v : Pattern} (hf : s.fault = false) (h0 : s.tsize ≠ 0#64)
    (hv : s.tmemAt (phaseIndex s.tsize s.phaseW).toNat = .ok v) : exec .near s = .next (s.setResult v) := by
  simp only [exec, execNear, State.command_running hf, State.requireTable_some h0, hv]

/-- LIN with a table delivers the linear sample at the phase (41_table_sampler.md R114). -/
theorem exec_lin {x : F32} (hf : s.fault = false) (h0 : s.tsize ≠ 0#64) (hx : s.linAt s.phaseW = .ok x) :
    exec .lin s = .next (s.setSample x) := by
  simp only [exec, execLin, State.command_running hf, State.requireTable_some h0, hx, State.deliver]

/-- HERM with a table delivers the Hermite sample at the phase (41_table_sampler.md R117). -/
theorem exec_herm {x : F32} (hf : s.fault = false) (h0 : s.tsize ≠ 0#64) (hx : s.hermAt s.phaseW = .ok x) :
    exec .herm s = .next (s.setSample x) := by
  simp only [exec, execHerm, State.command_running hf, State.requireTable_some h0, hx, State.deliver]

theorem State.linAt_of_nb {w : Nat} {p : BitVec w} {x0 x1 : F32} (h0 : s.nb (phaseIndex s.tsize p) 0 = .ok x0)
    (h1 : s.nb (phaseIndex s.tsize p) 1 = .ok x1) : s.linAt p = .ok (lerp x0 x1 (phaseFraction s.tsize p)) := by
  simp only [State.linAt, h0, h1]

theorem State.hermAt_of_nb {w : Nat} {p : BitVec w} {xm x0 x1 x2 : F32}
    (hm : s.nb (phaseIndex s.tsize p) (-1) = .ok xm) (h0 : s.nb (phaseIndex s.tsize p) 0 = .ok x0)
    (h1 : s.nb (phaseIndex s.tsize p) 1 = .ok x1) (h2 : s.nb (phaseIndex s.tsize p) 2 = .ok x2) :
    s.hermAt p = .ok (herm4 xm x0 x1 x2 (phaseFraction s.tsize p)) := by
  simp only [State.hermAt, hm, h0, h1, h2]

/-! ## The commands on PHASE in numbers -/

section
variable {k : Nat} (hc : s.cfg.wellFormed = true) (hk : k ≤ s.cfg.tmaxLog2) (hn : s.tsize.toNat = 2 ^ k)
include hn

/-- The index of PHASE. -/
theorem State.phaseW_index : (phaseIndex s.tsize s.phaseW).toNat = s.phase.toNat % 2 ^ s.cfg.w / 2 ^ (s.cfg.w - k) := by
  rw [phaseIndex_toNat hn, phaseW_toNat]

/-- The fraction of PHASE. -/
theorem State.phaseW_fraction : phaseFraction s.tsize s.phaseW =
    fmul (cvt (s.phase.toNat % 2 ^ (s.cfg.w - k))) (fdiv one (cvt (2 ^ (s.cfg.w - k) - 1))) := by
  rw [phaseFraction_eq hn, phaseW_toNat, Nat.mod_mod_of_dvd _ (Nat.pow_dvd_pow 2 (Nat.sub_le _ _))]

include hc hk

/-- The entry at PHASE's index, as a value. -/
theorem State.phaseW_nb_zero {v : Pattern}
    (h : Memory.read s.tmem (s.phase.toNat % 2 ^ s.cfg.w / 2 ^ (s.cfg.w - k)) = some v) :
    s.nb (phaseIndex s.tsize s.phaseW) 0 = .ok (f32of v) := by
  have hlt := phaseIndex_lt hn (legal_pow_lt hc hk).le s.phaseW
  have hi : nbIndex s.tsize (phaseIndex s.tsize s.phaseW) 0 = _ := nbIndex_natCast hc hk hn _ 0
  rw [Nat.add_zero, Nat.mod_eq_of_lt hlt, State.phaseW_index hn] at hi
  exact State.nb_some (hi ▸ h)

/-- An entry ahead of PHASE's index, around the table, as a value. -/
theorem State.phaseW_nb_natCast {d : Nat} {v : Pattern}
    (h : Memory.read s.tmem ((s.phase.toNat % 2 ^ s.cfg.w / 2 ^ (s.cfg.w - k) + d) % 2 ^ k) = some v) :
    s.nb (phaseIndex s.tsize s.phaseW) d = .ok (f32of v) := by
  refine State.nb_some ?_
  rwa [nbIndex_natCast hc hk hn, State.phaseW_index hn]

/-- The entry before PHASE's index, around the table, as a value. -/
theorem State.phaseW_nb_neg_one {v : Pattern}
    (h : Memory.read s.tmem ((s.phase.toNat % 2 ^ s.cfg.w / 2 ^ (s.cfg.w - k) + 2 ^ k - 1) % 2 ^ k) = some v) :
    s.nb (phaseIndex s.tsize s.phaseW) (-1) = .ok (f32of v) := by
  refine State.nb_some ?_
  rwa [nbIndex_neg_one hc hk hn, State.phaseW_index hn]

end

/-- Settles O32: NEAR reads the entry at PHASE's index. -/
theorem nearCopiesTheEntry : Obligations.NearCopiesTheEntry := by
  intro s k v _ hf _ _ hn hv
  rw [← State.phaseW_index hn] at hv
  rw [exec_near hf (tsize_ne_zero hn) (State.tmemAt_some hv), State.setResult]

/-- Settles O33: LIN interpolates between the neighbours at 0 and +1. -/
theorem linInterpolatesTwoEntries : Obligations.LinInterpolatesTwoEntries := by
  intro s k v0 v1 hc hf _ hk hn i f h0 h1
  have hx := State.linAt_of_nb (State.phaseW_nb_zero hc hk hn h0) (State.phaseW_nb_natCast (d := 1) hc hk hn h1)
  rw [State.phaseW_fraction hn] at hx
  rw [exec_lin hf (tsize_ne_zero hn) hx, State.setSample, State.setResult, State.nanPayload, lerp]

/-- The kernel in R116's names; adding `b = -(w + a)` is subtracting `w + a` (41_table_sampler.md R116). -/
theorem herm4_eq {xm x0 x1 x2 f c w a : F32} (hc : c = fdiv (fsub x1 xm) two) (hw : w = fadd c (fsub x0 x1))
    (ha : a = fadd (fadd w (fsub x0 x1)) (fdiv (fsub x2 x0) two)) :
    herm4 xm x0 x1 x2 f = fadd (fmul (fadd (fmul (fsub (fmul a f) (fadd w a)) f) c) f) x0 := by
  rw [ha, hw, hc]
  rfl

/-- Settles O34: HERM applies its kernel to the neighbours at -1, 0, +1 and +2. -/
theorem hermInterpolatesFourEntries : Obligations.HermInterpolatesFourEntries := by
  intro s k vm v0 v1 v2 hc hf _ hk hn i f hm h0 h1 h2 c v w a hcdef hv hw ha
  subst hv
  have hx := State.hermAt_of_nb (State.phaseW_nb_neg_one hc hk hn hm) (State.phaseW_nb_zero hc hk hn h0)
    (State.phaseW_nb_natCast (d := 1) hc hk hn h1) (State.phaseW_nb_natCast (d := 2) hc hk hn h2)
  rw [State.phaseW_fraction hn, herm4_eq hcdef hw ha] at hx
  rw [exec_herm hf (tsize_ne_zero hn) hx, State.setSample, State.setResult, State.nanPayload]

end Sys2Proof.Machine
end

section
/-! NEAR, LIN and HERM depend on TSIZE, PHASE and the table alone (spec 41_table_sampler.md R113, R120): O43. -/
namespace Sys2Proof.Machine

/-- The same value gives the same sample, whatever the payloads (93_implementation_defined.md item 1). -/
theorem sameSample_bits (x : F32) (payload payload' : BitVec 32) : sameSample (x.bits payload) (x.bits payload') := by
  cases x with
  | nan => exact .inr ⟨by rw [F32.bits, f32of_nanPattern, F32.isNaN], by rw [F32.bits, f32of_nanPattern, F32.isNaN]⟩
  | inf _ => exact .inl rfl
  | fin _ _ => exact .inl rfl

section
variable {s t : State} (htsize : t.tsize = s.tsize)
  (htmem : ∀ j < s.tsize.toNat, Memory.read t.tmem j = Memory.read s.tmem j)

include htmem in
theorem State.tmemAt_congr {j : Nat} (hj : j < s.tsize.toNat) : t.tmemAt j = s.tmemAt j := by
  simp only [State.tmemAt, htmem j hj]

variable {c : Config} {k : Nat} (hc : c.wellFormed = true) (hk : k ≤ c.tmaxLog2) (hn : s.tsize.toNat = 2 ^ k)
include htsize htmem hc hk hn

/-- A neighbour is an entry of the table. -/
theorem State.nb_congr (i : BitVec c.w) (d : Int) : t.nb i d = s.nb i d := by
  simp only [State.nb, htsize, State.tmemAt_congr htmem (hn ▸ nbIndex_lt hc hk hn i d)]

theorem State.linAt_congr (p : BitVec c.w) : t.linAt p = s.linAt p := by
  simp only [State.linAt, htsize, State.nb_congr htsize htmem hc hk hn]

theorem State.hermAt_congr (p : BitVec c.w) : t.hermAt p = s.hermAt p := by
  simp only [State.hermAt, htsize, State.nb_congr htsize htmem hc hk hn]

end

/-- Settles O43: each sampler reads entries below TSIZE only, at an index and with a fraction that TSIZE and PHASE
give. -/
theorem samplersArePure : Obligations.SamplersArePure := by
  intro i s t s' hi hfs hft h0 hcfg htsize hphase htmem hlegal hc hexec
  obtain ⟨k, -, hk, hn⟩ := (legalSize_iff hc).mp hlegal
  have h0t : t.tsize ≠ 0#64 := htsize ▸ h0
  have hw : Written s i s' := by simpa [hfs] using exec_next hexec
  cases hw with
  | near _ hv =>
    have hlt := phaseIndex_lt hn (legal_pow_lt hc hk).le s.phaseW
    rw [← State.tmemAt_congr htmem (hn ▸ hlt), State.phaseW, ← hphase, ← hcfg, ← htsize] at hv
    exact ⟨_, exec_near hft h0t hv, .inl rfl, fun _ => rfl⟩
  | lin _ hx =>
    rw [← State.linAt_congr htsize htmem hc hk hn, State.phaseW, ← hphase, ← hcfg] at hx
    exact ⟨_, exec_lin hft h0t hx, sameSample_bits _ _ _, nofun⟩
  | herm _ hx =>
    rw [← State.hermAt_congr htsize htmem hc hk hn, State.phaseW, ← hphase, ← hcfg] at hx
    exact ⟨_, exec_herm hft h0t hx, sameSample_bits _ _ _, nofun⟩
  | noTable _ h => exact absurd h h0
  | _ => simp at hi

end Sys2Proof.Machine
end

section
/-! LIN and HERM at a sample boundary, where the fraction is +0.0 (spec 41_table_sampler.md R115, R118): O55, O56
and O57. -/
namespace Sys2Proof.Machine

/-! ## Sums and products with a zero -/

theorem addFin_comm (s : Bool) (m : Nat) (t : Bool) (n : Nat) : addFin s m t n = addFin t n s m := by
  rcases eq_or_ne s t with rfl | hst
  · rw [addFin, addFin, if_pos rfl, if_pos rfl, Nat.add_comm]
  · rw [addFin, addFin, if_neg hst, if_neg hst.symm]
    rcases Nat.lt_trichotomy m n with h | rfl | h
    · rw [if_neg h.not_gt, if_pos h, if_pos h]
    · simp only [Nat.lt_irrefl, if_false]
    · rw [if_pos h, if_neg h.not_gt, if_pos h]

theorem fadd_comm (x y : F32) : fadd x y = fadd y x := by
  cases x <;> cases y <;> simp only [fadd]
  case inf.inf s t =>
    rcases eq_or_ne s t with rfl | hst
    · rfl
    · rw [if_neg hst, if_neg hst.symm]
  case fin.fin => exact addFin_comm _ _ _ _

/-- What a pattern denotes, binary32 holds. -/
theorem f32of_valid (b : Pattern) : (f32of b).valid = true := by
  have he : (b.extractLsb' 23 8).toNat < 2 ^ 8 := (b.extractLsb' 23 8).isLt
  have hf : (b.extractLsb' 0 23).toNat < 2 ^ 23 := (b.extractLsb' 0 23).isLt
  simp only [f32of]
  split
  next => split <;> rfl
  next he255 =>
    split
    next =>
      rw [F32.valid, representable_iff, ulpExp_small (by omega)]
      exact ⟨(hf.trans_le (by norm_num)).trans (two_pow_lt_overflowMag (j := 24) (by norm_num)), Nat.mod_one _⟩
    next =>
      rw [F32.valid, representable_iff]
      refine ⟨?_, grid_mul_two_pow (by rw [ulpExp_small (by omega), Nat.pow_zero, Nat.mod_one]) _⟩
      calc _ < 2 ^ 24 * 2 ^ ((b.extractLsb' 23 8).toNat - 1) :=
            Nat.mul_lt_mul_of_pos_right (by omega) (Nat.two_pow_pos _)
        _ = 2 ^ (24 + ((b.extractLsb' 23 8).toNat - 1)) := (Nat.pow_add 2 _ _).symm
        _ ≤ overflowMag := by
          rw [overflowMag]
          gcongr
          · norm_num
          · omega

theorem exists_fin_of_isFinite {x : F32} (h : x.isFinite = true) : ∃ s m, x = .fin s m := by
  cases x with
  | fin s m => exact ⟨s, m, rfl⟩
  | nan | inf _ => cases h

/-- `y` is `x`, or +0.0 where `x` is -0.0: what a sum of `x` and a zero can be. -/
def F32.EqOrPosZero (y x : F32) : Prop := y = x ∨ (x = .fin true 0 ∧ y = .fin false 0)

/-- Adding a zero keeps a finite value, but for -0.0, which +0.0 turns into +0.0 (00_scope.md R11). -/
theorem fadd_zero_eqOrPosZero {x : F32} (hx : x.isFinite = true) (hv : x.valid = true) (t : Bool) :
    (fadd (.fin t 0) x).EqOrPosZero x := by
  obtain ⟨s, m, rfl⟩ := exists_fin_of_isFinite hx
  have hexact : roundF32 s m 1 = .fin s m := by simpa using roundF32_exact (neg := s) Nat.one_pos hv
  rcases eq_or_ne t s with rfl | hts
  · rw [fadd_fin_same, Nat.zero_add]
    exact .inl hexact
  · rw [fadd_fin_opposite hts, if_neg (Nat.not_lt_zero m)]
    rcases Nat.eq_zero_or_pos m with rfl | hm
    · cases s with
      | false => exact .inl rfl
      | true => exact .inr ⟨rfl, rfl⟩
    · rw [if_pos hm]
      exact .inl hexact

/-- A finite value times +0.0 is a zero of its own sign. -/
theorem fmul_zero_of_isFinite {x : F32} (h : x.isFinite = true) : ∃ s, fmul x (.fin false 0) = .fin s 0 := by
  obtain ⟨s, m, rfl⟩ := exists_fin_of_isFinite h
  refine ⟨s != false, ?_⟩
  rw [fmul_fin, Nat.mul_zero]
  simpa using roundF32_exact (m := 0) (Nat.two_pow_pos 149) representable_zero

/-- One Horner step at fraction +0.0 drops a finite term (41_table_sampler.md R115, R118). -/
theorem fadd_fmul_zero_eqOrPosZero {y x : F32} (hy : y.isFinite = true) (hx : x.isFinite = true)
    (hv : x.valid = true) : (fadd (fmul y (.fin false 0)) x).EqOrPosZero x := by
  obtain ⟨t, ht⟩ := fmul_zero_of_isFinite hy
  rw [ht]
  exact fadd_zero_eqOrPosZero hx hv t

theorem F32.EqOrPosZero.isFinite {y x : F32} (h : y.EqOrPosZero x) (hx : x.isFinite = true) : y.isFinite = true := by
  rcases h with rfl | ⟨-, rfl⟩
  · exact hx
  · rfl

/-- Only the pattern of -0.0 denotes -0.0. -/
theorem eq_of_f32of_negZero {b : Pattern} (h : f32of b = .fin true 0) : b = 0x80000000#32 := by
  have hbits := bits_f32of 0#32 (b := b) (by rw [h, F32.isNaN])
  rw [h] at hbits
  exact hbits.symm

/-- A sum of an entry and a zero has the entry's value, and its bits unless it is -0.0. -/
theorem F32.EqOrPosZero.meets_entry {b : Pattern} {y : F32} (h : y.EqOrPosZero (f32of b))
    (hb : (f32of b).isFinite = true) (payload : BitVec 32) :
    y.units = (f32of b).units ∧ (b ≠ 0x80000000#32 → y.bits payload = b) := by
  rcases h with rfl | ⟨hneg, rfl⟩
  · obtain ⟨s, m, hfin⟩ := exists_fin_of_isFinite hb
    exact ⟨rfl, fun _ => bits_f32of payload (by rw [hfin, F32.isNaN])⟩
  · exact ⟨by rw [hneg]; rfl, fun hne => absurd (eq_of_f32of_negZero hneg) hne⟩

/-! ## LIN and HERM -/

/-- Refutes O55: from the least finite entry to the greatest the difference overflows, and infinity times +0.0 is
NaN. -/
theorem not_linMeetsNearForAllFiniteEntries : ¬ Obligations.LinMeetsNearForAllFiniteEntries := by
  intro h
  obtain ⟨hunits, -⟩ := h 0xFF7FFFFF#32 0x7F7FFFFF#32 (by decide) (by decide)
  have hnan : lerp (f32of 0xFF7FFFFF#32) (f32of 0x7F7FFFFF#32) (.fin false 0) = .nan := by decide +kernel
  rw [hnan] at hunits
  exact absurd hunits (by decide)

/-- Settles O56: with a finite difference LIN adds a zero to the entry. -/
theorem linMeetsNearAtBoundaries : Obligations.LinMeetsNearAtBoundaries := by
  intro v0 v1 payload h0 _ hdiff
  rw [lerp, fadd_comm]
  exact (fadd_fmul_zero_eqOrPosZero hdiff h0 (f32of_valid v0)).meets_entry h0 payload

/-- Settles O57: the three Horner steps give finite values and the last one adds a zero to the entry. -/
theorem hermMeetsNearAtBoundaries : Obligations.HermMeetsNearAtBoundaries := by
  intro vm v0 v1 v2 payload c w a hc hw ha hcfin hafin hbfin h0
  have hcvalid : c.valid = true := hc ▸ fdiv_valid
  have hb := (fadd_fmul_zero_eqOrPosZero hafin hbfin (fneg_valid fadd_valid)).isFinite hbfin
  have hc' := (fadd_fmul_zero_eqOrPosZero hb hcfin hcvalid).isFinite hcfin
  rw [herm4_eq hc hw ha, fsub]
  exact (fadd_fmul_zero_eqOrPosZero hc' h0 (f32of_valid v0)).meets_entry h0 payload

end Sys2Proof.Machine
end

section
/-! Scaling by a power of two, and the difference of two values that are not negative: the binary32 steps of the tableless
commands (spec 42_tableless.md R130, R138, R140). -/
namespace Sys2Proof.Machine

/-! ## Scaling by a power of two -/

@[simp] theorem roundMag_zero : roundMag 0 1 = 0 := roundMag_exact (m := 0) Nat.one_pos (Nat.zero_mod _)

/-- Scaling up a normal magnitude by a power of two moves its last kept place along. -/
theorem ulpExp_mul_two_pow {n : Nat} (h : 2 ^ 23 ≤ n) (j : Nat) : ulpExp (n * 2 ^ j) = ulpExp n + j := by
  have hlow : 2 ^ (23 + ulpExp n) ≤ n := by
    by_cases hk : ulpExp n = 0
    · rwa [hk]
    · exact two_pow_ulpExp_le hk
  refine ulpExp_eq ?_ ?_ <;> rw [← Nat.add_assoc, Nat.pow_add]
  · exact Nat.mul_le_mul_right _ hlow
  · exact Nat.mul_lt_mul_of_pos_right (lt_two_pow_ulpExp n) (Nat.two_pow_pos j)

/-- A normal magnitude scaled up by a power of two rounds to its rounding, scaled. -/
theorem roundMag_mul_two_pow {n : Nat} (h : 2 ^ 23 ≤ n) (j : Nat) : roundMag (n * 2 ^ j) 1 = roundMag n 1 * 2 ^ j := by
  have hround : roundHalfEven (n * 2 ^ j) (2 ^ ulpExp n * 2 ^ j) = roundHalfEven n (2 ^ ulpExp n) := by
    have hcross : n * 2 ^ j * 2 ^ ulpExp n = n * (2 ^ ulpExp n * 2 ^ j) := by ring
    exact (roundHalfEven_mono (by positivity) (by positivity) hcross.le).antisymm
      (roundHalfEven_mono (by positivity) (by positivity) hcross.ge)
  simp only [roundMag, Nat.div_one, Nat.one_mul]
  rw [ulpExp_mul_two_pow h, Nat.pow_add, hround, Nat.mul_assoc]

/-- The magnitude of `p / 2^k`, rounded once. -/
def scaledMag (p k : Nat) : Nat := roundMag (p * 2 ^ (149 - k)) 1

/-- As long as the quotient of a whole number stays normal, dividing it by a power of two commutes with rounding. -/
theorem scaledMag_mul_two_pow (p : Nat) {k j : Nat} (h : k + j ≤ 126) : scaledMag p (k + j) * 2 ^ j = scaledMag p k := by
  rcases Nat.eq_zero_or_pos p with rfl | hp
  · simp [scaledMag]
  · have hnormal : 2 ^ 23 ≤ p * 2 ^ (149 - (k + j)) :=
      (Nat.pow_le_pow_right (by norm_num) (by omega)).trans (Nat.le_mul_of_pos_left _ hp)
    rw [scaledMag, scaledMag, ← roundMag_mul_two_pow hnormal, Nat.mul_assoc, ← Nat.pow_add,
      show 149 - (k + j) + j = 149 - k by omega]

theorem scaledMag_mono {p q : Nat} (k : Nat) (h : p ≤ q) : scaledMag p k ≤ scaledMag q k :=
  roundMag_mono Nat.one_pos Nat.one_pos (Nat.mul_le_mul_right _ (Nat.mul_le_mul_right _ h))

@[simp] theorem scaledMag_zero (k : Nat) : scaledMag 0 k = 0 := by
  rw [scaledMag, Nat.zero_mul, roundMag_zero]

theorem scaledMag_le {p k j : Nat} (hk : k ≤ 149) (h : p ≤ 2 ^ (k + j)) : scaledMag p k ≤ 2 ^ (149 + j) := by
  refine roundMag_le_two_pow Nat.one_pos ?_
  calc p * 2 ^ (149 - k) ≤ 2 ^ (k + j) * 2 ^ (149 - k) := Nat.mul_le_mul_right _ h
    _ = 2 ^ (149 + j) * 1 := by rw [← Nat.pow_add, Nat.mul_one]; congr 1; omega

theorem scaledMag_representable {p : Nat} (hp : p ≤ 2 ^ 64) (k : Nat) : representable (scaledMag p k) = true := by
  refine representable_iff.mpr ⟨?_, roundMag_grid Nat.one_pos⟩
  have hle : scaledMag p k ≤ 2 ^ 213 := by
    refine roundMag_le_two_pow Nat.one_pos ?_
    calc p * 2 ^ (149 - k) ≤ 2 ^ 64 * 2 ^ 149 :=
          Nat.mul_le_mul hp (Nat.pow_le_pow_right (by norm_num) (Nat.sub_le _ _))
      _ = 2 ^ 213 * 1 := by norm_num
  exact hle.trans_lt (two_pow_lt_overflowMag (by norm_num))

theorem cvt_eq_scaledMag {p : Nat} (hp : p ≤ 2 ^ 64) : cvt p = .fin false (scaledMag p 0) := cvt_eq_fin hp

/-- `fmul(cvt(p), P2(-k))`: the product is exact (42_tableless.md R130, R140). -/
theorem fmul_cvt_p2 {p k : Nat} (hp : p ≤ 2 ^ 64) (hk : k ≤ 126) :
    fmul (cvt p) (p2 (-(k : Int))) = .fin false (scaledMag p k) := by
  have hscale : scaledMag p 0 * 2 ^ (149 - k) = scaledMag p k * 2 ^ 149 := by
    rw [← scaledMag_mul_two_pow p (k := 0) (j := k) (by omega), Nat.zero_add, Nat.mul_assoc, ← Nat.pow_add,
      Nat.add_sub_cancel' (by omega)]
  rw [cvt_eq_scaledMag hp, p2_neg_natCast (by omega), fmul_fin, hscale]
  exact roundF32_exact (Nat.two_pow_pos 149) (scaledMag_representable hp k)

/-- `fdiv(cvt(p), P2(k))`: the quotient is exact (42_tableless.md R130). -/
theorem fdiv_cvt_p2 {p k : Nat} (hp : p ≤ 2 ^ 64) (hk : k ≤ 126) :
    fdiv (cvt p) (p2 k) = .fin false (scaledMag p k) := by
  have hscale : scaledMag p 0 * 2 ^ 149 = scaledMag p k * 2 ^ (k + 149) := by
    rw [← scaledMag_mul_two_pow p (k := 0) (j := k) (by omega), Nat.zero_add, Nat.mul_assoc, ← Nat.pow_add]
  rw [cvt_eq_scaledMag hp, p2_natCast, fdiv_fin _ _ _ (Nat.two_pow_pos _).ne', hscale]
  exact roundF32_exact (Nat.two_pow_pos _) (scaledMag_representable hp k)

/-- Doubling is exact where the double is in the format. -/
theorem fmul_two {m : Nat} (s : Bool) (h : representable (m * 2) = true) :
    fmul (.fin s m) two = .fin s (m * 2) := by
  have htwo : two = .fin false (2 * 2 ^ 149) := rfl
  rw [htwo, fmul_fin, ← Nat.mul_assoc, Bool.bne_false]
  exact roundF32_exact (Nat.two_pow_pos 149) h

/-! ## A difference -/

theorem one_eq : one = .fin false (2 ^ 149) := rfl

/-- The difference of two values in [+0.0, 2.0]: the distance of the magnitudes, rounded, negative where the first is the
smaller one; a zero difference is +0.0. -/
theorem fsub_fin_fin {a b : Nat} (ha : a ≤ 2 ^ 150) (hb : b ≤ 2 ^ 150) :
    fsub (.fin false a) (.fin false b) = .fin (decide (a < b)) (roundMag (a - b + (b - a)) 1) := by
  have hfin {s : Bool} {n : Nat} (hn : n ≤ 2 ^ 150) : roundF32 s n 1 = .fin s (roundMag n 1) :=
    roundF32_eq_fin (j := 150) Nat.one_pos (by norm_num) (by omega)
  rw [fsub, fneg, Bool.not_false, fadd_fin_opposite Bool.false_ne_true]
  rcases Nat.lt_trichotomy a b with hlt | rfl | hgt
  · rw [if_neg hlt.not_gt, if_pos hlt, hfin (by omega), decide_eq_true hlt, Nat.sub_eq_zero_of_le hlt.le, Nat.zero_add]
  · simp
  · rw [if_pos hgt, hfin (by omega), decide_eq_false hgt.not_gt, Nat.sub_eq_zero_of_le hgt.le, Nat.add_zero]

/-- The difference in units: one of the two truncated differences is 0. -/
theorem units_fsub_fin_fin {a b : Nat} (ha : a ≤ 2 ^ 150) (hb : b ≤ 2 ^ 150) :
    (fsub (.fin false a) (.fin false b)).units = some ((roundMag (a - b) 1 : Int) - roundMag (b - a) 1) := by
  rw [fsub_fin_fin ha hb, F32.units]
  rcases Nat.lt_or_ge a b with hlt | hge
  · simp [hlt, Nat.sub_eq_zero_of_le hlt.le]
  · simp [hge.not_gt, Nat.sub_eq_zero_of_le hge]

/-- Subtracting a constant keeps order. -/
theorem units_fsub_mono {a a' b : Nat} (h : a ≤ a') (ha' : a' ≤ 2 ^ 150) (hb : b ≤ 2 ^ 150) :
    ∃ x y, (fsub (.fin false a) (.fin false b)).units = some x ∧
      (fsub (.fin false a') (.fin false b)).units = some y ∧ x ≤ y := by
  have hup : roundMag (a - b) 1 ≤ roundMag (a' - b) 1 := roundMag_mono Nat.one_pos Nat.one_pos (by omega)
  have hdown : roundMag (b - a') 1 ≤ roundMag (b - a) 1 := roundMag_mono Nat.one_pos Nat.one_pos (by omega)
  exact ⟨_, _, units_fsub_fin_fin (h.trans ha') hb, units_fsub_fin_fin ha' hb, by omega⟩

/-- A difference and its mirror image are exact opposites, and a zero difference is +0.0 both ways (42_tableless.md R134). -/
theorem fadd_fsub_fsub {a b : Nat} (ha : a ≤ 2 ^ 150) (hb : b ≤ 2 ^ 150) :
    fadd (fsub (.fin false a) (.fin false b)) (fsub (.fin false b) (.fin false a)) = .fin false 0 := by
  rw [fsub_fin_fin ha hb, fsub_fin_fin hb ha, Nat.add_comm (b - a)]
  rcases Nat.lt_trichotomy a b with hlt | rfl | hgt
  · rw [decide_eq_true hlt, decide_eq_false hlt.not_gt, fadd_fin_opposite (by decide)]
    simp
  · simp [fadd_fin_same, roundF32_zero]
  · rw [decide_eq_false hgt.not_gt, decide_eq_true hgt, fadd_fin_opposite (by decide)]
    simp

end Sys2Proof.Machine
end

section
/-! The shapes PULSE and TRIA accept, as patterns (spec 42_tableless.md R135, R141): the order of magnitudes is the order of
their patterns. -/
namespace Sys2Proof.Machine

theorem magBits_mono {m n : Nat} (h : m ≤ n) : magBits m ≤ magBits n := by
  rw [magBits, magBits]
  rcases (ulpExp_mono h).eq_or_lt with heq | hlt
  · rw [heq]
    exact Nat.add_le_add_left (Nat.div_le_div_right h) _
  · have hm : m / 2 ^ ulpExp m < 2 ^ 24 := by
      rw [Nat.div_lt_iff_lt_mul (Nat.two_pow_pos _), ← Nat.pow_add]
      exact lt_two_pow_ulpExp m
    have hn : 2 ^ 23 ≤ n / 2 ^ ulpExp n := by
      rw [Nat.le_div_iff_mul_le (Nat.two_pow_pos _), ← Nat.pow_add]
      exact two_pow_ulpExp_le (Nat.ne_zero_of_lt hlt)
    omega

theorem magBits_injective {m n : Nat} (hm : representable m = true) (hn : representable n = true)
    (h : magBits m = magBits n) : m = n := by
  have hbits : (F32.fin false m).bits 0#32 = (F32.fin false n).bits 0#32 := congrArg (signed false) h
  have hval := congrArg f32of hbits
  rw [f32of_bits (x := .fin false m) _ hm, f32of_bits (x := .fin false n) _ hn] at hval
  exact (F32.fin.inj hval).2

theorem magBits_le_iff {m n : Nat} (hm : representable m = true) (hn : representable n = true) :
    magBits m ≤ magBits n ↔ m ≤ n := by
  refine ⟨fun h => ?_, magBits_mono⟩
  by_contra hlt
  exact hlt (magBits_injective hm hn (h.antisymm (magBits_mono (not_le.mp hlt).le))).le

theorem magBits_one : magBits (2 ^ 149) = 0x3F800000 := by decide

/-- The pattern of a finite value. -/
theorem toNat_of_f32of_fin {b : Pattern} {s : Bool} {m : Nat} (h : f32of b = .fin s m) :
    representable m = true ∧ magBits m < 2 ^ 31 ∧ b.toNat = (if s then 2 ^ 31 else 0) + magBits m := by
  have hrep : representable m = true := by simpa only [h, F32.valid] using f32of_valid b
  obtain ⟨e, f, hbits, hf, he, -⟩ := magBits_fields hrep
  have hlt : magBits m < 2 ^ 31 := by omega
  have hb := bits_f32of 0#32 (b := b) (by rw [h, F32.isNaN])
  rw [h, F32.bits] at hb
  exact ⟨hrep, hlt, by rw [← hb, signed_toNat hlt]⟩

/-- The patterns of the infinities and the NaNs lie above all others of their sign. -/
theorem le_of_not_isFinite {b : Pattern} (h : (f32of b).isFinite = false) : 0x7F800000 ≤ b.toNat % 2 ^ 31 := by
  have hf : (b.extractLsb' 0 23).toNat < 2 ^ 23 := (b.extractLsb' 0 23).isLt
  have hfields := pattern_fields b
  simp only [f32of] at h
  split at h
  next he => split at hfields <;> omega
  next => split at h <;> cases h

theorem legalWidth_fin (s : Bool) (m : Nat) :
    legalWidth (.fin s m) = true ↔ m ≤ 2 ^ 149 ∧ (s = true → m = 0) := by
  cases s with
  | false => simp [legalWidth, F32.units]
  | true =>
    simp only [legalWidth, F32.units, if_true, Bool.and_eq_true, decide_eq_true_eq, forall_const]
    omega

theorem legalSlope_fin (s : Bool) (m : Nat) :
    legalSlope (.fin s m) = true ↔ s = false ∧ 0 < m ∧ m < 2 ^ 149 := by
  cases s <;> simp [legalSlope, F32.units]

theorem isFinite_of_legalWidth {x : F32} (h : legalWidth x = true) : x.isFinite = true := by
  cases x with
  | fin s m => rfl
  | nan | inf _ => cases h

theorem legalWidth_of_legalSlope {x : F32} (h : legalSlope x = true) : legalWidth x = true :=
  eq_true_of_ne_false fun hw => by simp [illegalSlope_of_illegalWidth hw] at h

/-- The widths from +0.0 to 1.0, and -0.0 (42_tableless.md R135). -/
theorem legalWidth_f32of_iff (b : Pattern) :
    legalWidth (f32of b) = true ↔ b.toNat ≤ 0x3F800000 ∨ b.toNat = 0x80000000 := by
  by_cases hfin : (f32of b).isFinite = true
  · obtain ⟨s, m, hx⟩ := exists_fin_of_isFinite hfin
    obtain ⟨hrep, hlt, hb⟩ := toNat_of_f32of_fin hx
    have hone := magBits_le_iff hrep (representable_two_pow (j := 149) (by norm_num))
    have hzero : magBits m ≤ 0 ↔ m ≤ 0 := magBits_le_iff hrep representable_zero
    rw [magBits_one] at hone
    rw [hx, legalWidth_fin]
    cases s with
    | false =>
      rw [if_neg Bool.false_ne_true] at hb
      simp only [Bool.false_eq_true, false_implies, and_true]
      omega
    | true =>
      rw [if_pos rfl] at hb
      simp only [forall_const]
      omega
  · have hbig := le_of_not_isFinite (eq_false_of_ne_true hfin)
    exact iff_of_false (fun h => hfin (isFinite_of_legalWidth h)) (by omega)

/-- The slopes strictly between +0.0 and 1.0 (42_tableless.md R141). -/
theorem legalSlope_f32of_iff (b : Pattern) :
    legalSlope (f32of b) = true ↔ 0 < b.toNat ∧ b.toNat < 0x3F800000 := by
  by_cases hfin : (f32of b).isFinite = true
  · obtain ⟨s, m, hx⟩ := exists_fin_of_isFinite hfin
    obtain ⟨hrep, hlt, hb⟩ := toNat_of_f32of_fin hx
    have hone := magBits_le_iff (representable_two_pow (j := 149) (by norm_num)) hrep
    have hzero : magBits m ≤ 0 ↔ m ≤ 0 := magBits_le_iff hrep representable_zero
    rw [magBits_one] at hone
    rw [hx, legalSlope_fin]
    cases s with
    | false =>
      rw [if_neg Bool.false_ne_true] at hb
      simp only [true_and]
      omega
    | true =>
      rw [if_pos rfl] at hb
      simp only [Bool.true_eq_false, false_and, false_iff]
      omega
  · have hbig := le_of_not_isFinite (eq_false_of_ne_true hfin)
    exact iff_of_false (fun h => hfin (isFinite_of_legalWidth (legalWidth_of_legalSlope h))) (by omega)

end Sys2Proof.Machine
end

section
/-! What the tableless commands of an unfaulted block answer (spec 42_tableless.md R130 to R144): O25, O36, O37, O38, O53,
O39 and O44. -/
namespace Sys2Proof.Machine

variable {s : State}

theorem one_le_w (c : Config) : 1 ≤ c.w := by rcases w_cases c with h | h <;> omega

/-- A phase is at most 2^64. -/
theorem phase_le {w : Nat} (hw : w ≤ 64) (p : BitVec w) : p.toNat ≤ 2 ^ 64 :=
  p.isLt.le.trans (Nat.pow_le_pow_right (by norm_num) hw)

/-! ## SAW and SAWD -/

theorem exec_saw (hf : s.fault = false) : exec .saw s = .next (s.setSample (saw s.phaseW)) := by
  simp only [exec, execSaw, State.command_running hf]

theorem exec_sawd (hf : s.fault = false) : exec .sawd s = .next (s.setSample (sawd s.phaseW)) := by
  simp only [exec, execSawd, State.command_running hf]

/-- The phase scaled to [0, 2], exactly (42_tableless.md R130). -/
theorem fmul_cvt_p2_one_sub {w p : Nat} (h1 : 1 ≤ w) (hw : w ≤ 64) (hp : p ≤ 2 ^ 64) :
    fmul (cvt p) (p2 (1 - (w : Int))) = .fin false (scaledMag p (w - 1)) := by
  rw [show (1 - (w : Int)) = -((w - 1 : Nat) : Int) by omega]
  exact fmul_cvt_p2 hp (by omega)

/-- `p / 2^W` doubled is `p / 2^(W-1)`. -/
theorem scaledMag_mul_two {w : Nat} (h1 : 1 ≤ w) (hw : w ≤ 64) (p : Nat) :
    scaledMag p w * 2 = scaledMag p (w - 1) := by
  simpa [Nat.sub_add_cancel h1] using scaledMag_mul_two_pow p (k := w - 1) (j := 1) (by omega)

/-- R130's longer form: the division and the doubling are exact too. -/
theorem saw_eq {w : Nat} (h1 : 1 ≤ w) (hw : w ≤ 64) (p : BitVec w) :
    saw p = fsub (fmul (cvt p.toNat) (p2 (1 - (w : Int)))) one := by
  have hp := phase_le hw p
  have hdouble := scaledMag_mul_two h1 hw p.toNat
  rw [saw, fdiv_cvt_p2 hp (by omega), fmul_two _ (hdouble ▸ scaledMag_representable hp _), hdouble,
    fmul_cvt_p2_one_sub h1 hw hp]

/-- Settles O36: SAW's longer form is R130's shorter one, and SAWD is stated in it. -/
theorem sawAndSawdResults : Obligations.SawAndSawdResults := by
  intro s hf y
  refine ⟨?_, ?_⟩
  · rw [exec_saw hf, State.setSample, State.setResult, State.nanPayload, saw_eq (one_le_w _) (w_le _), phaseW_toNat]
  · rw [exec_sawd hf, State.setSample, State.setResult, State.nanPayload, sawd, phaseW_toNat]

/-! ## TRI -/

theorem exec_tri (hf : s.fault = false) : exec .tri s = .next (s.setSample (tri s.phaseW)) := by
  simp only [exec, execTri, State.command_running hf]

/-- Below the midpoint the mask is all zeros, from it on all ones (42_tableless.md R138). -/
theorem triMask_eq {w : Nat} (h1 : 1 ≤ w) (p : BitVec w) :
    0#w - (p >>> (w - 1)) = if p.toNat < 2 ^ (w - 1) then 0#w else BitVec.allOnes w := by
  have hw := Nat.two_pow_pred_mul_two h1
  have hlt := p.isLt
  have hshift : (p >>> (w - 1)).toNat = p.toNat / 2 ^ (w - 1) := by
    rw [BitVec.toNat_ushiftRight, Nat.shiftRight_eq_div_pow]
  split
  next h =>
    have hzero : p >>> (w - 1) = 0#w := BitVec.eq_of_toNat_eq (by rw [hshift, Nat.div_eq_of_lt h]; simp)
    rw [hzero, BitVec.sub_zero]
  next h =>
    have hq : p.toNat / 2 ^ (w - 1) = 1 := Nat.div_eq_of_lt_le (by omega) (by omega)
    have hone : p >>> (w - 1) = 1#w := BitVec.eq_of_toNat_eq (by
      rw [hshift, hq, BitVec.toNat_ofNat, Nat.mod_eq_of_lt (by have := Nat.two_pow_pos (w - 1); omega)])
    rw [hone, BitVec.zero_sub, BitVec.neg_one_eq_allOnes]

/-- The phase folded at the midpoint and doubled. -/
theorem triFold_toNat {w : Nat} (h1 : 1 ≤ w) (p : BitVec w) :
    (triFold p).toNat = if p.toNat < 2 ^ (w - 1) then 2 * p.toNat else 2 * (2 ^ w - 1 - p.toNat) := by
  have hw := Nat.two_pow_pred_mul_two h1
  have hlt := p.isLt
  rw [triFold, triMask_eq h1, BitVec.toNat_shiftLeft, Nat.shiftLeft_eq, Nat.pow_one]
  split
  next h => rw [BitVec.xor_zero, Nat.mod_eq_of_lt (by omega), Nat.mul_comm]
  next h => rw [BitVec.xor_allOnes, BitVec.toNat_not, Nat.mod_eq_of_lt (by omega), Nat.mul_comm]

/-- Settles O37: the mask-and-shift fold as arithmetic. -/
theorem triFoldsThePhase : Obligations.TriFoldsThePhase := by
  intro s hf p u
  rw [exec_tri hf, State.setSample, State.setResult, State.nanPayload, tri, triFold_toNat (one_le_w _), phaseW_toNat]

/-! ## The shape check -/

@[simp] theorem State.requireShape_legal {legal : Bool} {run : Result} (h : legal = true) :
    s.requireShape legal run = run := by
  rw [State.requireShape, if_pos h]

@[simp] theorem State.requireShape_illegal {legal : Bool} {run : Result} (h : legal = false) :
    s.requireShape legal run = .next (s.raise .shapeRange (s.shape.setWidth 64)) := by
  rw [State.requireShape, h, if_neg Bool.false_ne_true]

theorem exec_pulse (hf : s.fault = false) (h : legalWidth s.shapeF = true) :
    exec .pulse s = .next (s.setResult (pulse s.phaseW s.shapeF)) := by
  simp only [exec, execPulse, State.command_running hf, State.requireShape_legal h]

theorem exec_pulse_illegal (hf : s.fault = false) (h : legalWidth s.shapeF = false) :
    exec .pulse s = .next (s.raise .shapeRange (s.shape.setWidth 64)) := by
  simp only [exec, execPulse, State.command_running hf, State.requireShape_illegal h]

theorem exec_tria (hf : s.fault = false) (h : legalSlope s.shapeF = true) :
    exec .tria s = .next (s.setResult (tria s.phaseW s.shapeF (s.nanPayload 0))) := by
  simp only [exec, execTria, State.command_running hf, State.requireShape_legal h]

theorem exec_tria_illegal (hf : s.fault = false) (h : legalSlope s.shapeF = false) :
    exec .tria s = .next (s.raise .shapeRange (s.shape.setWidth 64)) := by
  simp only [exec, execTria, State.command_running hf, State.requireShape_illegal h]

/-- Settles O25: the legal shapes are those of the two pattern ranges. -/
theorem illegalShapesFault : Obligations.IllegalShapesFault := by
  intro s hf
  refine ⟨fun hw => ?_, fun hs => ?_⟩
  · have hbad : legalWidth s.shapeF = false := eq_false_of_ne_true (mt (legalWidth_f32of_iff s.shape).mp hw)
    rw [exec_pulse_illegal hf hbad, State.raise, BitVec.ofNat_toNat]
  · have hbad : legalSlope s.shapeF = false := eq_false_of_ne_true (mt (legalSlope_f32of_iff s.shape).mp hs)
    rw [exec_tria_illegal hf hbad, State.raise, BitVec.ofNat_toNat]

/-! ## PULSE -/

/-- A select by a comparison's mask passes one pattern unchanged (00_scope.md R13). -/
theorem select_maskOf (c : Bool) (a b : Pattern) : select (maskOf c) a b = if c then a else b := by
  have hzeros : maskOf false = 0#32 := rfl
  have hones : maskOf true = BitVec.allOnes 32 := rfl
  cases c
  · rw [select, hzeros, BitVec.not_zero, BitVec.and_zero, BitVec.zero_or, BitVec.and_allOnes]
    rfl
  · rw [select, hones, BitVec.not_allOnes, BitVec.and_zero, BitVec.or_zero, BitVec.and_allOnes]
    rfl

/-- Comparing with the ceiling is comparing exactly (42_tableless.md R136). -/
theorem lt_ceilScaled_iff (p w : Nat) (x : F32) : p < ceilScaled w x ↔ p * 2 ^ 149 < x.mag * 2 ^ w := by
  rw [ceilScaled, Nat.lt_iff_add_one_le, Nat.le_div_iff_mul_le (Nat.two_pow_pos 149), Nat.add_one_mul]
  omega

/-- -1.0 while the phase lies below the width, as an exact comparison, else +1.0. -/
theorem pulse_eq {w : Nat} (p : BitVec w) (width : F32) :
    pulse p width = if p.toNat * 2 ^ 149 < width.mag * 2 ^ w then 0xBF800000#32 else 0x3F800000#32 := by
  have hneg : (fneg one).bits 0#32 = 0xBF800000#32 := by decide
  have hpos : one.bits 0#32 = 0x3F800000#32 := by decide
  simp only [pulse, select_maskOf, decide_eq_true_eq, lt_ceilScaled_iff, hneg, hpos]

/-- Settles O38: a legal width compares exactly. -/
theorem pulseComparesExactly : Obligations.PulseComparesExactly := by
  intro s hf hw
  rw [exec_pulse hf ((legalWidth_f32of_iff s.shape).mpr hw), State.setResult, pulse_eq, phaseW_toNat, State.shapeF]

/-- The width 0.5. -/
theorem f32of_half : f32of 0x3F000000#32 = .fin false (2 ^ 148) := by decide

/-- The phase lies below the width 0.5 exactly below the midpoint. -/
theorem below_half_iff {w : Nat} (h1 : 1 ≤ w) (p : Nat) : p * 2 ^ 149 < 2 ^ 148 * 2 ^ w ↔ p < 2 ^ (w - 1) := by
  rw [show 2 ^ 148 * 2 ^ w = 2 ^ (w - 1) * 2 ^ 149 by rw [← Nat.pow_add, ← Nat.pow_add]; congr 1; omega]
  exact Nat.mul_lt_mul_right (Nat.two_pow_pos 149)

/-- Settles O53: the exact comparison of O38 at the width 0.5. -/
theorem pulseMidpoint : Obligations.PulseMidpoint := by
  intro s hf hshape
  have hexec := pulseComparesExactly s hf (.inl (by rw [hshape]; decide))
  simp only [hshape, f32of_half, F32.mag_fin, below_half_iff (one_le_w s.cfg)] at hexec
  have hpos := Nat.two_pow_pos (s.cfg.w - 1)
  exact ⟨fun h => ⟨_, hexec, if_pos (by omega)⟩, fun h => ⟨_, hexec, if_neg h.not_gt⟩⟩

/-! ## TRIA -/

/-- Comparing with the floor is comparing exactly (42_tableless.md R143). -/
theorem triaPivot_lt_iff (w p : Nat) (slope : F32) : triaPivot w slope < p ↔ slope.mag * 2 ^ w < p * 2 ^ 149 := by
  rw [triaPivot, floorScaled, Nat.div_lt_iff_lt_mul (Nat.two_pow_pos 149)]

/-- The rising ramp while the phase is at most the slope, as an exact comparison, else the falling one. -/
theorem tria_eq {w : Nat} (p : BitVec w) (slope : F32) (nan : BitVec 32) :
    tria p slope nan =
      (if p.toNat * 2 ^ 149 ≤ slope.mag * 2 ^ w then triaRise p slope else triaFall p slope).bits nan := by
  simp only [tria, select_maskOf, decide_eq_true_eq, triaPivot_lt_iff]
  rcases Nat.lt_or_ge (slope.mag * 2 ^ w) (p.toNat * 2 ^ 149) with hlt | hle
  · rw [if_pos hlt, if_neg hlt.not_ge]
  · rw [if_neg hle.not_gt, if_pos hle]

/-- Settles O39: a legal slope compares exactly. -/
theorem triaSelectsItsRamp : Obligations.TriaSelectsItsRamp := by
  intro s hf h0 h1 p x slope rise fall
  rw [exec_tria hf ((legalSlope_f32of_iff s.shape).mpr ⟨h0, h1⟩), State.setResult, State.nanPayload, tria_eq, triaRise,
    triaFall, triaX, phaseW_toNat, State.shapeF]

/-! ## No table -/

/-- The same arithmetic result is the same sample in any two blocks. -/
theorem sameSample_setSample (s t : State) (x : F32) : sameSample (s.setSample x).result (t.setSample x).result := by
  rw [State.setSample_result, State.setSample_result]
  exact sameSample_bits _ _ _

/-- Settles O44: each command's sample, and each fault, is given by PHASE and SHAPE. -/
theorem tablelessCommandsArePure : Obligations.TablelessCommandsArePure := by
  intro i s t s' hi hfs hft hcfg hphase hshape hexec
  have hshapeF : t.shapeF = s.shapeF := by rw [State.shapeF, State.shapeF, hshape]
  have hw : Written s i s' := by simpa [hfs] using exec_next hexec
  cases hw with
  | saw =>
    rw [State.phaseW, ← hphase, ← hcfg]
    exact ⟨_, exec_saw hft, hft.trans hfs.symm, fun _ => sameSample_setSample s t _⟩
  | sawd =>
    rw [State.phaseW, ← hphase, ← hcfg]
    exact ⟨_, exec_sawd hft, hft.trans hfs.symm, fun _ => sameSample_setSample s t _⟩
  | tri =>
    rw [State.phaseW, ← hphase, ← hcfg]
    exact ⟨_, exec_tri hft, hft.trans hfs.symm, fun _ => sameSample_setSample s t _⟩
  | pulse h =>
    rw [State.phaseW, ← hphase, ← hcfg, ← hshapeF]
    exact ⟨_, exec_pulse hft (hshapeF ▸ h), hft.trans hfs.symm, fun _ => .inl rfl⟩
  | tria h =>
    rw [State.phaseW, ← hphase, ← hcfg, ← hshapeF]
    refine ⟨_, exec_tria hft (hshapeF ▸ h), hft.trans hfs.symm, fun _ => ?_⟩
    rw [State.setResult_result, State.setResult_result, tria_eq, tria_eq]
    exact sameSample_bits _ _ _
  | badWidth h => exact ⟨_, exec_pulse_illegal hft (hshapeF ▸ h), rfl, nofun⟩
  | badSlope h => exact ⟨_, exec_tria_illegal hft (hshapeF ▸ h), rfl, nofun⟩
  | noTable hi' => exact absurd hi (by rcases hi' with rfl | rfl | rfl | rfl | rfl <;> decide)
  | _ => simp at hi

end Sys2Proof.Machine
end

section
/-! The waveforms: order, ends, symmetry and cancellation (spec 42_tableless.md R132, R134, R139, R142, R143): O51, O52, O54
and O58. -/
namespace Sys2Proof.Machine

variable {c : Config}

/-! ## Sawtooth -/

/-- The phase scaled to [0, 2] and lowered by 1.0. -/
theorem saw_eq_fsub (p : BitVec c.w) : saw p = fsub (.fin false (scaledMag p.toNat (c.w - 1))) one := by
  rw [saw_eq (one_le_w c) (w_le c), fmul_cvt_p2_one_sub (one_le_w c) (w_le c) (phase_le (w_le c) p)]

theorem sawd_eq_fsub (p : BitVec c.w) : sawd p = fsub one (.fin false (scaledMag p.toNat (c.w - 1))) := by
  rw [sawd, fmul_cvt_p2_one_sub (one_le_w c) (w_le c) (phase_le (w_le c) p)]

/-- A scaled phase is at most 2.0. -/
theorem scaledMag_le_two {p : Nat} (hp : p < 2 ^ c.w) : scaledMag p (c.w - 1) ≤ 2 ^ 150 := by
  have hw := w_le c
  refine scaledMag_le (j := 1) (by omega) ?_
  rw [Nat.sub_add_cancel (one_le_w c)]
  exact hp.le

/-- 1.0 lies below 2.0. -/
theorem one_le_two_mag : 2 ^ 149 ≤ 2 ^ 150 := Nat.pow_le_pow_right (by norm_num) (by norm_num)

/-- A smaller scaled phase gives no greater sample. -/
theorem units_scaledMag_mono {u v : Nat} (h : u ≤ v) (hv : v < 2 ^ c.w) :
    ∃ x y, (fsub (.fin false (scaledMag u (c.w - 1))) one).units = some x ∧
      (fsub (.fin false (scaledMag v (c.w - 1))) one).units = some y ∧ x ≤ y :=
  units_fsub_mono (scaledMag_mono _ h) (scaledMag_le_two hv) one_le_two_mag

theorem fsub_zero_one : fsub (.fin false 0) one = fneg one := by decide +kernel

/-- The greatest phase converts to 2^W, so it scales to 1.0 (90_conflicts.md C2). -/
theorem scaledMag_maxPhase (c : Config) : scaledMag (2 ^ c.w - 1) c.w = 2 ^ 149 := by
  rcases w_cases c with hw | hw <;> rw [hw] <;> decide

/-- Phase 1 scales to less than half a last place of 1.0. -/
theorem fsub_scaledMag_one (c : Config) : fsub (.fin false (scaledMag 1 (c.w - 1))) one = fneg one := by
  rcases w_cases c with hw | hw <;> rw [hw] <;> decide +kernel

theorem fsub_two_one : fsub (.fin false (2 ^ 150)) one = one := by decide +kernel

/-- Settles O51: scaling and subtracting a constant keep order, and phases 0 and 1 both round to -1.0. -/
theorem sawDoesNotDecrease : Obligations.SawDoesNotDecrease := by
  intro c p q
  rw [saw_eq_fsub, saw_eq_fsub]
  refine ⟨fun h => units_scaledMag_mono h q.isLt, fun hp => ?_, fun hp => ?_, fun hp hq => ?_⟩
  · rw [hp, scaledMag_zero, fsub_zero_one]
  · rw [hp, ← scaledMag_mul_two (one_le_w c) (w_le c), scaledMag_maxPhase, ← Nat.pow_succ, fsub_two_one]
  · rw [hp, hq, scaledMag_zero, fsub_zero_one, fsub_scaledMag_one]

/-- Settles O52: saw and sawd are a difference and its mirror image. -/
theorem sawPairCancels : Obligations.SawPairCancels := by
  intro c p
  rw [saw_eq_fsub, sawd_eq_fsub]
  exact fadd_fsub_fsub (scaledMag_le_two p.isLt) one_le_two_mag

/-! ## Triangle -/

/-- The sawtooth of the folded phase. -/
theorem tri_eq_fsub (p : BitVec c.w) : tri p = fsub (.fin false (scaledMag (triFold p).toNat (c.w - 1))) one := by
  rw [tri, fmul_cvt_p2_one_sub (one_le_w c) (w_le c) (phase_le (w_le c) _)]

/-- Settles O54: the fold is symmetric, rises to the midpoint and falls from it. -/
theorem triangleIsSymmetric : Obligations.TriangleIsSymmetric := by
  intro c p q
  have hw := Nat.two_pow_pred_mul_two (one_le_w c)
  have hfold := triFold_toNat (one_le_w c)
  have hp := p.isLt
  have hq := q.isLt
  have hmid := Nat.two_pow_pos (c.w - 1)
  rw [tri_eq_fsub, tri_eq_fsub]
  refine ⟨fun h => ?_, fun hpq hq' => ?_, fun hp' hpq => ?_, fun hend => ?_⟩
  · have hsame : (triFold p).toNat = (triFold q).toNat := by
      rw [hfold, hfold]
      split <;> split <;> omega
    rw [hsame]
  · refine units_scaledMag_mono ?_ (triFold q).isLt
    rw [hfold, hfold, if_pos (by omega), if_pos (by omega)]
    omega
  · obtain ⟨y, x, hy, hx, hyx⟩ := units_scaledMag_mono (c := c) (u := (triFold q).toNat) (by
      rw [hfold, hfold, if_neg (by omega), if_neg (by omega)]
      omega) (triFold p).isLt
    exact ⟨x, y, hx, hy, hyx⟩
  · have h0 : (triFold p).toNat = 0 := by
      rw [hfold]
      split <;> omega
    rw [h0, scaledMag_zero, fsub_zero_one]

/-! ## Asymmetric triangle -/

theorem triaX_eq (p : BitVec c.w) : triaX p = .fin false (scaledMag p.toNat c.w) := by
  have hw := w_le c
  rw [triaX, fmul_cvt_p2 (phase_le hw p) (by omega)]

/-- 2.0 over a positive magnitude stays finite down to 2^-126 (42_tableless.md R142). -/
theorem fdiv_two_fin {m : Nat} (h : 2 ^ 23 ≤ m) :
    fdiv two (.fin false m) = .fin false (roundMag (2 ^ 150 * 2 ^ 149) m) := by
  have hpos : 0 < m := (Nat.two_pow_pos 23).trans_le h
  have htwo : two = .fin false (2 ^ 150) := rfl
  rw [htwo, fdiv_fin _ _ _ hpos.ne']
  refine roundF32_eq_fin (j := 150 + 126) hpos (by norm_num) ?_
  calc 2 ^ 150 * 2 ^ 149 ≤ 2 ^ 150 * (2 ^ 126 * m) := Nat.mul_le_mul_left _ (by omega)
    _ = 2 ^ (150 + 126) * m := by rw [Nat.pow_add, Nat.mul_assoc]

theorem fmul_zero_fin (m : Nat) : fmul (.fin false 0) (.fin false m) = .fin false 0 := by
  rw [fmul_fin, Nat.zero_mul, Bool.bne_false]
  simpa using roundF32_exact (neg := false) (Nat.two_pow_pos 149) representable_zero

/-- At phase 0 the rising ramp of a normal slope is -1.0 (42_tableless.md R142). -/
theorem triaRise_zero {p : BitVec c.w} (hp : p.toNat = 0) {m : Nat} (h : 2 ^ 23 ≤ m) :
    triaRise p (.fin false m) = fneg one := by
  rw [triaRise, triaX_eq, hp, scaledMag_zero, fdiv_two_fin h, fmul_zero_fin, fsub_zero_one]

/-- The greatest value below 1.0 is 1 - 2^-24. -/
theorem le_pred_one {m : Nat} (hrep : representable m = true) (h : m < 2 ^ 149) : m ≤ 2 ^ 149 - 2 ^ 125 := by
  by_contra hlt
  obtain ⟨-, hgrid⟩ := representable_iff.mp hrep
  have hulp : ulpExp m = 125 := ulpExp_eq (by omega) h
  rw [hulp] at hgrid
  omega

/-- At the greatest phase the falling ramp is selected (42_tableless.md R143). -/
theorem triaPivot_lt_maxPhase (c : Config) {m : Nat} (h : m ≤ 2 ^ 149 - 2 ^ 125) :
    triaPivot c.w (.fin false m) < 2 ^ c.w - 1 := by
  rw [triaPivot_lt_iff, F32.mag_fin]
  rcases w_cases c with hw | hw <;> rw [hw] <;> omega

/-- One rounding of a normal magnitude takes at most its 2^24th part. -/
theorem relative_le_roundMag {n d : Nat} (hd : 0 < d) (h : 2 ^ 23 * d ≤ n) :
    0xFFFFFF * n ≤ 2 ^ 24 * (roundMag n d * d) := by
  have hplace := lastPlace_le hd h
  have hnear := (roundHalfEven_mul_near (n := n) (Nat.mul_pos hd (Nat.two_pow_pos (ulpExp (n / d))))).1
  rw [roundMag_mul]
  omega

/-- A value times the rounded quotient of 2.0 by it lies within 2^-23 of 2.0, and not above: the error of the quotient is at
most its 2^24th part, which above 2.0 is a tie that rounds away. -/
theorem roundMag_mul_quotient {d : Nat} (h0 : 0 < d) (h : d ≤ 2 ^ 149) :
    0xFFFFFF * 2 ^ 126 ≤ roundMag (d * roundMag (2 ^ 150 * 2 ^ 149) d) (2 ^ 149) ∧
      roundMag (d * roundMag (2 ^ 150 * 2 ^ 149) d) (2 ^ 149) ≤ 2 ^ 150 := by
  have hnormal : 2 ^ 23 * d ≤ 2 ^ 150 * 2 ^ 149 :=
    (Nat.mul_le_mul_left _ h).trans (Nat.mul_le_mul_right _ (Nat.pow_le_pow_right (by norm_num) (by norm_num)))
  have hlow := relative_le_roundMag h0 hnormal
  have hhigh := roundMag_le_relative h0 hnormal
  rw [Nat.mul_comm (roundMag _ _)] at hlow hhigh
  have hexact : roundMag (0xFFFFFF * 2 ^ 150) (2 ^ 24) = 0xFFFFFF * 2 ^ 126 := by decide
  have htie : roundMag ((2 ^ 24 + 1) * 2 ^ 150) (2 ^ 24) = 2 ^ 150 := by decide
  constructor
  · calc 0xFFFFFF * 2 ^ 126 = roundMag (0xFFFFFF * 2 ^ 150) (2 ^ 24) := hexact.symm
      _ ≤ _ := roundMag_mono (Nat.two_pow_pos 24) (Nat.two_pow_pos 149) (by linarith)
  · calc _ ≤ roundMag ((2 ^ 24 + 1) * 2 ^ 150) (2 ^ 24) :=
          roundMag_mono (Nat.two_pow_pos 149) (Nat.two_pow_pos 24) (by linarith)
      _ = 2 ^ 150 := htie

/-- `1.0 - y` for y within 2^-23 below 2.0 lies within 2^-23 above -1.0. -/
theorem units_one_fsub {y : Nat} (h1 : 0xFFFFFF * 2 ^ 126 ≤ y) (h2 : y ≤ 2 ^ 150) :
    ∃ u, (fsub one (.fin false y)).units = some u ∧ |u + 2 ^ 149| ≤ 2 ^ 126 := by
  have hlow : 0x7FFFFF * 2 ^ 126 ≤ roundMag (y - 2 ^ 149) 1 :=
    calc 0x7FFFFF * 2 ^ 126 = roundMag (0x7FFFFF * 2 ^ 126) 1 := by decide +kernel
      _ ≤ _ := roundMag_mono Nat.one_pos Nat.one_pos (by omega)
  have hhigh : roundMag (y - 2 ^ 149) 1 ≤ 2 ^ 149 := roundMag_le_two_pow Nat.one_pos (by omega)
  have hsub : 2 ^ 149 - y = 0 := by omega
  rw [one_eq, units_fsub_fin_fin one_le_two_mag h2, hsub, roundMag_zero]
  refine ⟨_, rfl, abs_le.mpr ?_⟩
  omega

/-- At the greatest phase `x - s` is `1.0 - s`, so the falling ramp subtracts from 1.0 a value times 2.0 over that value. -/
theorem triaFall_maxPhase {p : BitVec c.w} (hp : p.toNat = 2 ^ c.w - 1) {m : Nat} (h : m ≤ 2 ^ 149 - 2 ^ 125) :
    ∃ u, (triaFall p (.fin false m)).units = some u ∧ |u + 2 ^ 149| ≤ 2 ^ 126 := by
  have hx : triaX p = one := by rw [triaX_eq, hp, scaledMag_maxPhase, one_eq]
  set d := roundMag (2 ^ 149 - m) 1 with hd
  have hdlow : 2 ^ 125 ≤ d := two_pow_le_roundMag Nat.one_pos (by omega)
  have hdhigh : d ≤ 2 ^ 149 := roundMag_le_two_pow Nat.one_pos (by omega)
  have hdiff : fsub one (.fin false m) = .fin false d := by
    have hsub : m - 2 ^ 149 = 0 := by omega
    rw [one_eq, fsub_fin_fin one_le_two_mag (by omega), decide_eq_false (by omega), hsub, Nat.add_zero, hd]
  obtain ⟨hlow, hhigh⟩ := roundMag_mul_quotient (by omega) hdhigh
  have hprod : fmul (.fin false d) (.fin false (roundMag (2 ^ 150 * 2 ^ 149) d)) =
      .fin false (roundMag (d * roundMag (2 ^ 150 * 2 ^ 149) d) (2 ^ 149)) := by
    rw [fmul_fin, roundF32_eq, if_neg (hhigh.trans_lt (two_pow_lt_overflowMag (by norm_num))).not_ge]
    rfl
  rw [triaFall, hx, hdiff, fdiv_two_fin (by omega), hprod]
  exact units_one_fsub hlow hhigh

/-- Settles O58, with the bound 2^-23 in place of 2^-22. -/
theorem triaClosesTheCycle : Obligations.TriaClosesTheCycle := by
  intro c p m hrep h0 h1
  have hle := le_pred_one hrep h1
  refine ⟨fun hp hnormal => triaRise_zero hp hnormal, fun hp => ⟨?_, ?_⟩⟩
  · rw [hp]
    exact triaPivot_lt_maxPhase c hle
  · obtain ⟨u, hu, hbound⟩ := triaFall_maxPhase hp hle
    exact ⟨u, hu, hbound.trans (by norm_num)⟩

end Sys2Proof.Machine
end

section
/-! The batch: which elements BHERM can compute, what it leaves in OBUF, and that an element is what HERM gives for the
same phase (spec 43_batch_hermite.md R161 to R164, R167): O40, O41 and O42. -/
namespace Sys2Proof.Machine

variable {s t : State}

/-! ## The element rule -/

/-- Element `i` is the Hermite sample at PBUF[i], its NaN under the element's own payload (43_batch_hermite.md R162). -/
theorem State.batchElement_ok_iff {i : Nat} {v : Pattern} :
    s.batchElement i = .ok v ↔ ∃ q x, Memory.read s.pbuf i = some q ∧ s.hermAt (q.setWidth s.cfg.w) = .ok x ∧
      v = x.bits (s.nanPayload i) := by
  simp only [State.batchElement, State.pbufAt]
  cases Memory.read s.pbuf i with
  | none => simp
  | some q => cases hx : s.hermAt (q.setWidth s.cfg.w) <;> simp [hx, eq_comm]

/-- HERM with PHASE = `q` takes its sample at the phase that a batch reads from an entry holding `q`. -/
theorem State.hermAt_phase (s : State) (q : BitVec 64) :
    State.hermAt { s with phase := q } (State.phaseW { s with phase := q }) = s.hermAt (q.setWidth s.cfg.w) := rfl

/-! ## What BHERM answers -/

theorem legalBatch_eq_true {c : Config} {b : BitVec 32} (h16 : b.toNat % 16 = 0) (hb : b.toNat ≤ c.bmax) :
    legalBatch c b = true := by
  rw [legalBatch, Config.group, Bool.and_eq_true]
  exact ⟨beq_iff_eq.mpr h16, decide_eq_true hb⟩

/-- BHERM with a table and a legal BLEN leaves its batch in OBUF (43_batch_hermite.md R163). -/
theorem exec_bherm {m : Memory 32} (hf : s.fault = false) (h0 : s.tsize ≠ 0#64)
    (hb : legalBatch s.cfg s.blen = true) (hm : s.batch s.blen.toNat = .ok m) :
    exec .bherm s = .next (s.setObuf m) := by
  simp only [exec, execBherm, State.command_running hf, State.requireTable_some h0, State.requireBatch, hb, if_true, hm]

/-- A BHERM that completes without a fault had a table, and wrote each element below BLEN from its own phase
(43_batch_hermite.md R162, R163). -/
theorem bherm_writes_element {i : Nat} (hf : s.fault = false) (h : exec .bherm s = .next t) (ht : t.fault = false)
    (hi : i < s.blen.toNat) :
    s.tsize ≠ 0#64 ∧ ∃ q x, Memory.read s.pbuf i = some q ∧ s.hermAt (q.setWidth s.cfg.w) = .ok x ∧
      Memory.read t.obuf i = some (x.bits (s.nanPayload i)) := by
  have hw : Written s .bherm t := by simpa [hf] using exec_next h
  cases hw with
  | bherm h0 _ hm =>
    have hbatch := State.batch_read hm i
    rw [if_pos hi] at hbatch
    obtain ⟨v, hv, hread⟩ := hbatch
    obtain ⟨q, x, hq, hx, rfl⟩ := State.batchElement_ok_iff.mp hv
    exact ⟨h0, q, x, hq, hx, hread⟩
  | noTable | badBatch => simp at ht

/-- Settles O41: the batch and HERM take the same Hermite sample, each under its own payload. -/
theorem batchEqualsScalarHerm : Obligations.BatchEqualsScalarHerm := by
  intro s t i q hf hexec ht hi hq
  obtain ⟨h0, q', x, hq', hx, hread⟩ := bherm_writes_element hf hexec ht hi
  obtain rfl : q = q' := Option.some.inj (hq.symm.trans hq')
  exact ⟨_, _, exec_herm (s := { s with phase := q }) hf h0 ((s.hermAt_phase q).trans hx), hf, hread,
    sameSample_bits x _ _⟩

/-- Settles O42: equal phases have one Hermite sample. -/
theorem equalPhasesGiveEqualOutputs : Obligations.EqualPhasesGiveEqualOutputs := by
  intro s t i j hf hexec ht hi hj hij
  obtain ⟨-, q, x, hq, hx, hri⟩ := bherm_writes_element hf hexec ht hi
  obtain ⟨-, q', x', hq', hx', hrj⟩ := bherm_writes_element hf hexec ht hj
  obtain rfl : q = q' := Option.some.inj (hq.symm.trans (hij.trans hq'))
  obtain rfl : x = x' := Except.ok.inj (hx.symm.trans hx')
  exact ⟨_, _, hri, hrj, sameSample_bits x _ _⟩

/-! ## The Hermite sample on PHASE in numbers -/

section
variable {k : Nat} (hc : s.cfg.wellFormed = true) (hk : k ≤ s.cfg.tmaxLog2) (hn : s.tsize.toNat = 2 ^ k)
include hc hk hn

/-- The four neighbours, at displacement `d - 1` for `d` below 4. -/
theorem State.hermAt_phaseW_ok
    (h : ∀ d < 4, Memory.read s.tmem
      ((s.phase.toNat % 2 ^ s.cfg.w / 2 ^ (s.cfg.w - k) + 2 ^ k + d - 1) % 2 ^ k) ≠ none) :
    ∃ x, s.hermAt s.phaseW = .ok x := by
  rw [← State.phaseW_index hn] at h
  have hnb (d : Nat) : ((phaseIndex s.tsize s.phaseW).toNat + 2 ^ k + (d + 1) - 1) % 2 ^ k =
      nbIndex s.tsize (phaseIndex s.tsize s.phaseW) d := by
    rw [nbIndex_natCast hc hk hn, ← Nat.add_assoc, Nat.add_sub_cancel, Nat.add_right_comm, Nat.add_mod_right]
  simp only [State.hermAt_ok_iff, List.forall_mem_cons]
  exact ⟨nbIndex_neg_one hc hk hn _ ▸ h 0 (by decide), hnb 0 ▸ h 1 (by decide), hnb 1 ▸ h 2 (by decide),
    hnb 2 ▸ h 3 (by decide), List.forall_mem_nil _⟩

/-- HERM's sample is its kernel on the four entries around PHASE's index (41_table_sampler.md R117). -/
theorem State.hermAt_phaseW {vm v0 v1 v2 : Pattern}
    (hm : Memory.read s.tmem ((s.phase.toNat % 2 ^ s.cfg.w / 2 ^ (s.cfg.w - k) + 2 ^ k - 1) % 2 ^ k) = some vm)
    (h0 : Memory.read s.tmem (s.phase.toNat % 2 ^ s.cfg.w / 2 ^ (s.cfg.w - k)) = some v0)
    (h1 : Memory.read s.tmem ((s.phase.toNat % 2 ^ s.cfg.w / 2 ^ (s.cfg.w - k) + 1) % 2 ^ k) = some v1)
    (h2 : Memory.read s.tmem ((s.phase.toNat % 2 ^ s.cfg.w / 2 ^ (s.cfg.w - k) + 2) % 2 ^ k) = some v2) :
    s.hermAt s.phaseW = .ok (herm4 (f32of vm) (f32of v0) (f32of v1) (f32of v2)
      (fmul (cvt (s.phase.toNat % 2 ^ s.cfg.w % 2 ^ (s.cfg.w - k))) (fdiv one (cvt (2 ^ (s.cfg.w - k) - 1))))) := by
  rw [State.hermAt_of_nb (State.phaseW_nb_neg_one hc hk hn hm) (State.phaseW_nb_zero hc hk hn h0)
    (State.phaseW_nb_natCast (d := 1) hc hk hn h1) (State.phaseW_nb_natCast (d := 2) hc hk hn h2),
    phaseFraction_eq hn, phaseW_toNat]

end

/-- Settles O40: every element can be computed, so the batch runs, and each entry below BLEN holds the Hermite sample of
a block whose PHASE is the element's. -/
theorem batchWritesEveryElement : Obligations.BatchWritesEveryElement := by
  intro s k hc hf _ hk hn h16 hbmax hwritten
  have helement : ∀ i < s.blen.toNat, ∃ v, s.batchElement i = .ok v := fun i hi => by
    obtain ⟨q, hq, htable⟩ := hwritten i hi
    obtain ⟨x, hx⟩ := State.hermAt_phaseW_ok (s := { s with phase := q }) hc hk hn htable
    exact ⟨_, State.batchElement_ok_iff.mpr ⟨q, x, hq, hx, rfl⟩⟩
  obtain ⟨m, hm⟩ := State.batch_ok helement
  have h0 := tsize_ne_zero hn
  have hb := legalBatch_eq_true h16 hbmax
  have hexec := exec_bherm hf h0 hb hm
  refine ⟨_, hexec, rfl, fun i hi => (Written.bherm h0 hb hm).obuf_read_of_blen_le hi, ?_⟩
  intro i hi q vm v0 v1 v2 hq p j hvm hv0 hv1 hv2
  obtain ⟨-, q', x, hq', hx, hread⟩ := bherm_writes_element hf hexec hf hi
  obtain rfl : q = q' := Option.some.inj (hq.symm.trans hq')
  rw [← State.hermAt_phase, State.hermAt_phaseW (s := { s with phase := q }) hc hk hn hvm hv0 hv1 hv2] at hx
  obtain rfl := Except.ok.inj hx
  exact hread

end Sys2Proof.Machine
end

section
/-! The fault state: how a step enters it, that only reset leaves it, and that a faulted block, like an idle one, keeps
its registers and memories (spec 60_exceptions.md R183 to R186 and R195): O19, O20, O21 and O6. -/
namespace Sys2Proof.Machine

variable {s t : State} {e : PortEvent} {rest : List PortEvent}

/-! ## The idle block -/

/-- With nothing at the port a step changes nothing (60_exceptions.md R195; log 10). -/
theorem step_idle (h : s.port = []) : step s = .next s := by
  rw [step, State.advance, h]

/-- Settles O6: the port is empty, so the step performs no event. -/
theorem idleBlockKeepsItsState : Obligations.IdleBlockKeepsItsState := fun _ => step_idle

/-! ## Entering a fault -/

/-- A command that enters a fault has raised it on the state before, and done nothing else (60_exceptions.md R183). -/
theorem Written.raises {i : Instr} (hw : Written s i t) (hs : s.fault = false) (ht : t.fault = true) :
    ∃ code info, code ≠ .none ∧ t = s.raise code info := by
  cases hw with
  | noTable | badBatch | badWidth | badSlope => exact ⟨_, _, by decide, rfl⟩
  | _ => simp [hs] at ht

/-- A host write that enters a fault has raised it on the state before: a bad TSIZE, an illegal command
word, or a command that enters a fault. -/
theorem Stored.raises {x : Target} {v : Slot} (hst : Stored s x v t) (hs : s.fault = false) (ht : t.fault = true) :
    ∃ code info, code ≠ .none ∧ t = s.raise code info := by
  cases hst with
  | badTsize | illegal => exact ⟨_, _, by decide, rfl⟩
  | command _ hw => exact hw.raises hs ht
  | _ => simp [hs] at ht

/-- Of the events at the port only a write enters a fault. -/
theorem Performed.raises (hp : Performed s e t) (hs : s.fault = false) (ht : t.fault = true) :
    ∃ code info, code ≠ .none ∧ t = s.raise code info := by
  cases hp with
  | stored _ _ hst => exact hst.raises hs ht
  | _ => simp [hs] at ht

/-- Settles O19: the event performed raises the fault on the state the port has accepted it in. -/
theorem faultEntryWritesThreeFields : Obligations.FaultEntryWritesThreeFields := by
  intro s t e rest hport hs hstep ht
  have hperformed : Performed (s.accept rest) e t := State.perform_next ((step_of_port hport).symm.trans hstep)
  obtain ⟨code, info, hcode, rfl⟩ := hperformed.raises hs ht
  exact ⟨rfl, hcode⟩

/-! ## Leaving a fault -/

/-- In a faulted block an event other than reset changes at most the data returned (10_state.md R21, 60_exceptions.md
R186). -/
theorem Performed.faulted_frame (hp : Performed s e t) (hf : s.fault = true) (he : e ≠ .reset) :
    t = { s with rdata := t.rdata } := by
  cases hp with
  | ignored _ _ => rfl
  | stored _ hs _ => cases hf.symm.trans hs
  | returned _ => rfl
  | reset => exact absurd rfl he

/-- A step of a faulted block on an event other than reset changes only the model's port fields. -/
theorem step_faulted_frame (hport : s.port = e :: rest) (hf : s.fault = true) (he : e ≠ .reset)
    (hstep : step s = .next t) : t = { s with port := rest, rdata := t.rdata } :=
  (State.perform_next ((step_of_port hport).symm.trans hstep)).faulted_frame (s := s.accept rest) hf he

/-- A step that leaves the fault state takes a reset: an idle step and every other event keep FAULT. -/
theorem port_of_step_clears_fault (hf : s.fault = true) (hstep : step s = .next t) (ht : t.fault = false) :
    ∃ rest, s.port = .reset :: rest := by
  cases hport : s.port with
  | nil =>
    obtain rfl : s = t := by simpa [step_idle hport] using hstep
    cases hf.symm.trans ht
  | cons e rest =>
    by_cases he : e = .reset
    · exact ⟨rest, by rw [he]⟩
    · have hkept : t.fault = s.fault := by rw [step_faulted_frame hport hf he hstep]
      cases hf.symm.trans (hkept.symm.trans ht)

/-- Settles O20: the frame of a faulted step, the reset behind a cleared fault, and exec's own check of FAULT. -/
theorem faultEndsOnlyByReset : Obligations.FaultEndsOnlyByReset :=
  ⟨fun _ _ _ _ => step_faulted_frame, fun _ _ => port_of_step_clears_fault, fun i _ => exec_faulted i⟩

/-! ## Runs of a faulted block -/

/-- An accepted access to a faulted block is taken from the port; a read returns its data, a write nothing (10_state.md
R21, 20_memory.md R55). -/
theorem step_faulted_of_acceptable (hc : s.cfg.wellFormed = true) (hf : s.fault = true) (hport : s.port = e :: rest)
    (he : e ≠ .reset) (ha : acceptable s.cfg e) : ∃ d, step s = .next { s with port := rest, rdata := d } := by
  cases e with
  | hostWrite a bits v =>
    obtain ⟨rfl, h8, hmapped⟩ := ha
    exact ⟨none, (faultedBlockIgnoresWrites s a rest hc hf h8 hmapped).1 v hport⟩
  | hostRead a bits =>
    obtain ⟨rfl, h8, hmapped⟩ := ha
    obtain ⟨x, -, hstep⟩ := (faultedBlockIgnoresWrites s a rest hc hf h8 hmapped).2 hport
    exact ⟨_, hstep⟩
  | reset => exact absurd rfl he

/-- `k` steps of a faulted block take `k` accepted accesses from the port, by induction on the number of steps. -/
theorem core_run_faulted (hc : s.cfg.wellFormed = true) (hf : s.fault = true)
    (haccesses : ∀ e ∈ s.port, e ≠ .reset ∧ acceptable s.cfg e) (k : Nat) :
    ∃ d, core.run k s = .next { s with port := s.port.drop k, rdata := d } := by
  induction k generalizing s with
  | zero => exact ⟨s.rdata, rfl⟩
  | succ k ih =>
    cases hport : s.port with
    | nil =>
      obtain ⟨d, hrun⟩ := ih hc hf haccesses
      rw [hport, List.drop_nil] at hrun
      exact ⟨d, (core_run_succ (step_idle hport) k).trans hrun⟩
    | cons e rest =>
      obtain ⟨⟨he, ha⟩, hrest⟩ := List.forall_mem_cons.mp (hport ▸ haccesses)
      obtain ⟨d, hstep⟩ := step_faulted_of_acceptable hc hf hport he ha
      obtain ⟨d', hrun⟩ := ih (s := { s with port := rest, rdata := d }) hc hf hrest
      exact ⟨d', (core_run_succ hstep k).trans hrun⟩

/-- Settles O21: the run's last state is the first with the accesses taken and some data returned. -/
theorem faultedRunLeavesTheBlockAlone : Obligations.FaultedRunLeavesTheBlockAlone := by
  intro s hc hf haccesses k
  obtain ⟨d, hrun⟩ := core_run_faulted hc hf haccesses k
  exact ⟨_, hrun, rfl⟩

end Sys2Proof.Machine
end

section
/-! Reset (spec 70_reset_and_hazards.md R200, R201): what a step on a reset event leaves, and that the invariants hold
there: O22, O23 and O26. -/
namespace Sys2Proof.Machine

variable {s : State} {rest : List PortEvent}

/-- A step on a reset event resets the block (70_reset_and_hazards.md R200). -/
theorem step_reset (h : s.port = .reset :: rest) : step s = .next (s.accept rest).takeReset := by
  rw [step_of_port h, State.perform]

/-- STATUS reads 0 while no fault is recorded (10_state.md R33). -/
theorem statusWord_unfaulted : statusWord false .none = 0#64 := by decide

/-- Settles O22: each register of a block that took a reset reads its reset value, and only a reset clears FAULT. -/
theorem resetRestoresEveryRegister : Obligations.ResetRestoresEveryRegister :=
  ⟨fun _ _ h => ⟨_, step_reset h, rfl, rfl, rfl, rfl, rfl, rfl, rfl, rfl, rfl, rfl,
      statusWord_unfaulted, rfl⟩,
    fun _ _ => port_of_step_clears_fault⟩

/-- Settles O23: a reset leaves the three memories with no entry listed. -/
theorem resetUnwritesTheMemories : Obligations.ResetUnwritesTheMemories := by
  intro s t rest hport hstep i
  obtain rfl : (s.accept rest).takeReset = t := by simpa [step_reset hport] using hstep
  exact ⟨Memory.read_nil i, Memory.read_nil i, Memory.read_nil i⟩

/-- The invariant holds right after reset, in every legal configuration. -/
theorem State.resetWith_inv {c : Config} (hc : c.wellFormed = true) : (State.resetWith c).Inv where
  cfgLegal := hc
  tsizeLegal := .inl rfl
  phaseWidth := Nat.two_pow_pos _
  indexWidth := Nat.two_pow_pos _
  tmemForm := List.Pairwise.nil
  tmemWithin := nofun
  pbufForm := List.Pairwise.nil
  pbufWithin := nofun
  obufForm := List.Pairwise.nil
  obufWithin := nofun
  pbufWidth := nofun
  faultCode := iff_of_true rfl rfl
  faultInfo := rfl

/-- Settles O26: the reference configuration is legal, and FRAC is what every reset leaves in it. -/
theorem invHoldsAtReset : Obligations.InvHoldsAtReset :=
  ⟨State.resetWith_inv (by decide), fracInUnit_of_frac_eq rfl (takeReset_fracInUnit State.reset)⟩

end Sys2Proof.Machine
end

section
/-! Refusals (spec 70_reset_and_hazards.md R201): a step is refused only over an unwritten entry, and the commands that
read the memories exactly where an entry they read is unwritten: O9 and O35. -/
namespace Sys2Proof.Machine

variable {s : State}

/-! ## A refusal names an unwritten entry -/

/-- The entry a refused command could not read is unwritten. -/
theorem ReadFails.unwritten {i : Instr} {r : Refusal} (h : ReadFails s i r) :
    (∃ j, r = .unwrittenTmem j ∧ Memory.read s.tmem j = none) ∨
      ∃ j, r = .unwrittenPbuf j ∧ Memory.read s.pbuf j = none := by
  cases h with
  | near _ hr => exact .inl ⟨_, State.tmemAt_error hr⟩
  | lin _ hr => exact .inl (State.linAt_error hr)
  | herm _ hr => exact .inl (State.hermAt_error hr)
  | bherm _ _ hr => exact State.batch_error hr

/-- Of the events at the port only a write is refused, where it issues a command that is. -/
theorem State.perform_refused {e : PortEvent} {r : Refusal} (h : s.perform e = .refused r) : ∃ i, ReadFails s i r := by
  cases e with
  | hostWrite a bits v =>
    simp only [State.perform, State.hostWrite] at h
    split at h
    · rename_i x _
      rcases writeTarget_answers s x v with ⟨t, ht⟩ | ⟨i, r', hr', hread⟩
      · cases h.symm.trans ht
      · obtain rfl : r = r' := by simpa [hr'] using h.symm
        exact ⟨i, hread⟩
    · cases h
  | hostRead a bits =>
    simp only [State.perform, State.hostRead] at h
    split at h <;> cases h
  | reset => cases h

/-- Settles O9: a refused step issued a command whose read failed, and a command answers a next state or a refusal. -/
theorem onlyUnwrittenEntriesAreRefused : Obligations.OnlyUnwrittenEntriesAreRefused := by
  refine ⟨fun s r h => ?_, fun i s f h => ?_⟩
  · cases hport : s.port with
    | nil => cases h.symm.trans (step_idle hport)
    | cons e rest =>
      obtain ⟨_, hread⟩ := State.perform_refused ((step_of_port hport).symm.trans h)
      exact hread.unwritten
  · rcases exec_answers i s with ⟨t, ht⟩ | ⟨r, hr, -⟩
    · cases h.symm.trans ht
    · cases h.symm.trans hr

/-! ## A command is refused exactly where its sample cannot be taken -/

section
variable (hf : s.fault = false) (h0 : s.tsize ≠ 0#64)
include hf h0

theorem exec_near_refused_iff :
    (∃ r, exec .near s = .refused r) ↔ Memory.read s.tmem (phaseIndex s.tsize s.phaseW).toNat = none := by
  simp only [exec, execNear, State.command_running hf, State.requireTable_some h0, State.tmemAt]
  cases Memory.read s.tmem (phaseIndex s.tsize s.phaseW).toNat <;> simp

theorem exec_lin_refused_iff : (∃ r, exec .lin s = .refused r) ↔ ¬ ∃ x, s.linAt s.phaseW = .ok x := by
  simp only [exec, execLin, State.command_running hf, State.requireTable_some h0]
  cases s.linAt s.phaseW <;> simp [State.deliver]

theorem exec_herm_refused_iff : (∃ r, exec .herm s = .refused r) ↔ ¬ ∃ x, s.hermAt s.phaseW = .ok x := by
  simp only [exec, execHerm, State.command_running hf, State.requireTable_some h0]
  cases s.hermAt s.phaseW <;> simp [State.deliver]

/-- BHERM with a legal BLEN is refused where the sample of some element below it cannot be taken. -/
theorem exec_bherm_refused_iff (hb : legalBatch s.cfg s.blen = true) :
    (∃ r, exec .bherm s = .refused r) ↔ ∃ e < s.blen.toNat, ¬ ∃ v, s.batchElement e = .ok v := by
  have hbatch : (∃ r, exec .bherm s = .refused r) ↔ ¬ ∃ m, s.batch s.blen.toNat = .ok m := by
    simp only [exec, execBherm, State.command_running hf, State.requireTable_some h0, State.requireBatch, hb, if_true]
    cases s.batch s.blen.toNat <;> simp
  simp only [hbatch, State.batch_ok_iff, not_forall, exists_prop]

end

/-! ## The entries a sample needs, in numbers -/

/-- The table entry that the index `j` wraps around to in a table of `2 ^ k` is unwritten. -/
def State.goneAt (s : State) (k j : Nat) : Prop := Memory.read s.tmem (j % 2 ^ k) = none

/-- One of the four table entries around the index `j` is unwritten. -/
def State.hermGone (s : State) (k j : Nat) : Prop :=
  s.goneAt k (j + 2 ^ k - 1) ∨ s.goneAt k j ∨ s.goneAt k (j + 1) ∨ s.goneAt k (j + 2)

/-- A linear sample can be taken exactly where its two entries are written. -/
theorem State.linAt_ok_iff {w : Nat} {p : BitVec w} :
    (∃ x, s.linAt p = .ok x) ↔ ∀ d ∈ [(0 : Int), 1],
      Memory.read s.tmem (nbIndex s.tsize (phaseIndex s.tsize p) d) ≠ none := by
  simp only [List.forall_mem_cons, ← State.nb_ok_iff, State.linAt]
  cases s.nb (phaseIndex s.tsize p) 0 <;> cases s.nb (phaseIndex s.tsize p) 1 <;> simp

section
variable {k : Nat} (hc : s.cfg.wellFormed = true) (hk : k ≤ s.cfg.tmaxLog2) (hn : s.tsize.toNat = 2 ^ k)
  (p : BitVec s.cfg.w)
include hc hk hn

/-- The neighbour at a displacement from 0 on is an entry of the table, around its end. -/
theorem State.goneAt_natCast (d : Nat) : s.goneAt k (p.toNat / 2 ^ (s.cfg.w - k) + d) ↔
    Memory.read s.tmem (nbIndex s.tsize (phaseIndex s.tsize p) d) = none := by
  rw [State.goneAt, nbIndex_natCast hc hk hn, phaseIndex_toNat hn]

/-- The neighbour before the index is an entry of the table, around its start. -/
theorem State.goneAt_neg_one : s.goneAt k (p.toNat / 2 ^ (s.cfg.w - k) + 2 ^ k - 1) ↔
    Memory.read s.tmem (nbIndex s.tsize (phaseIndex s.tsize p) (-1)) = none := by
  rw [State.goneAt, nbIndex_neg_one hc hk hn, phaseIndex_toNat hn]

theorem State.goneAt_phaseIndex : s.goneAt k (p.toNat / 2 ^ (s.cfg.w - k)) ↔
    Memory.read s.tmem (phaseIndex s.tsize p).toNat = none := by
  rw [State.goneAt, ← phaseIndex_toNat hn, Nat.mod_eq_of_lt (phaseIndex_lt hn (legal_pow_lt hc hk).le p)]

theorem State.linAt_gone_iff : (¬ ∃ x, s.linAt p = .ok x) ↔
    s.goneAt k (p.toNat / 2 ^ (s.cfg.w - k)) ∨ s.goneAt k (p.toNat / 2 ^ (s.cfg.w - k) + 1) := by
  have h0 := State.goneAt_natCast hc hk hn p 0
  have h1 := State.goneAt_natCast hc hk hn p 1
  simp only [Nat.add_zero, Nat.cast_zero, Nat.cast_one] at h0 h1
  simp [State.linAt_ok_iff, h0, h1, imp_iff_not_or]

theorem State.hermAt_gone_iff : (¬ ∃ x, s.hermAt p = .ok x) ↔ s.hermGone k (p.toNat / 2 ^ (s.cfg.w - k)) := by
  have hm := State.goneAt_neg_one hc hk hn p
  have h0 := State.goneAt_natCast hc hk hn p 0
  have h1 := State.goneAt_natCast hc hk hn p 1
  have h2 := State.goneAt_natCast hc hk hn p 2
  simp only [Nat.add_zero, Nat.cast_zero, Nat.cast_one, Nat.cast_ofNat] at h0 h1 h2
  simp [State.hermAt_ok_iff, State.hermGone, hm, h0, h1, h2, imp_iff_not_or]

/-- An element cannot be computed where its PBUF entry is unwritten, or a table entry that its phase needs is. -/
theorem State.batchElement_gone_iff (e : Nat) : (¬ ∃ v, s.batchElement e = .ok v) ↔
    Memory.read s.pbuf e = none ∨
      ∃ q, Memory.read s.pbuf e = some q ∧ s.hermGone k (q.toNat % 2 ^ s.cfg.w / 2 ^ (s.cfg.w - k)) := by
  have hq (q : BitVec 64) := State.hermAt_gone_iff hc hk hn (q.setWidth s.cfg.w)
  simp only [BitVec.toNat_setWidth] at hq
  simp only [State.batchElement_ok_iff, ← hq]
  cases Memory.read s.pbuf e <;> simp

end

/-- Settles O35: each command is refused exactly where its sample cannot be taken, and that is where an entry the sample
needs is unwritten. -/
theorem samplersRefuseUnwrittenEntries : Obligations.SamplersRefuseUnwrittenEntries := by
  intro s k hc hf _ hk hn i gone
  have h0 := tsize_ne_zero hn
  have hi : i = s.phaseW.toNat / 2 ^ (s.cfg.w - k) := by rw [phaseW_toNat]
  rw [exec_near_refused_iff hf h0, exec_lin_refused_iff hf h0, exec_herm_refused_iff hf h0, hi]
  refine ⟨(State.goneAt_phaseIndex hc hk hn _).symm, State.linAt_gone_iff hc hk hn _,
    State.hermAt_gone_iff hc hk hn _, fun h16 hbmax => ?_⟩
  simp only [exec_bherm_refused_iff hf h0 (legalBatch_eq_true h16 hbmax), State.batchElement_gone_iff hc hk hn]
  rfl

end Sys2Proof.Machine
end
